-- ==== Sys2Proof/Word.lean ====
section
/-! DEFINITION. The widths the spec fixes: bytes, 32-bit physical addresses (R34), 16-bit port
addresses (R35) and the 128-bit command word (R56). -/

namespace Sys2Proof

/-- A byte of memory, a byte port value, an 8-bit operand field. -/
abbrev Byte := BitVec 8

/-- A 16-bit value: `RES`, a word port value, a cell (R17, R74). -/
abbrev Word16 := BitVec 16

/-- A physical address (R8 `ADDR_W`, R34). -/
abbrev Addr := BitVec 32

/-- An I/O port address (R8 `PORT_W`, R35). -/
abbrev Port := BitVec 16

/-- A command word `W` (R56). -/
abbrev CommandWord := BitVec 128

/-- The two widths of a port access (R35, R44). -/
inductive PortWidth where
  | byte
  | word
  deriving DecidableEq, Repr, Inhabited

/-- The value of a port access, with its width (R36). -/
inductive PortData where
  | byte (v : Byte)
  | word (v : Word16)
  deriving DecidableEq, Repr

/-- The width `n` of an event's value (R36). -/
def PortData.width : PortData → PortWidth
  | .byte _ => .byte
  | .word _ => .word

/-- A port event (R36): `W(port, n, v)`, or `R(port, n, v)` for a read that returned `v`. -/
inductive PortEvent where
  | write (port : Port) (data : PortData)
  | read (port : Port) (data : PortData)
  deriving DecidableEq, Repr

/-- The port an event accessed. -/
def PortEvent.port : PortEvent → Port
  | .write port _ => port
  | .read port _ => port

/-- The value an event carried. -/
def PortEvent.data : PortEvent → PortData
  | .write _ data => data
  | .read _ data => data

end Sys2Proof
end

