-- ==== Sys2Proof/Config.lean ====
section
/-! DEFINITION. What is fixed for a run: the implementation parameters of R8, the constants of the
PIC, CRTC and VGA formats (R72, R73, R75), and the free values the spec leaves open (opaque, without
a body: nothing can be proved of their value). -/

namespace Sys2Proof

/-- What the environment does at one opportunity between two commands (R15, R123, R128). -/
inductive EnvAction where
  /-- Nothing. -/
  | quiet
  /-- It delivers an interrupt, if `IF` = 1. -/
  | interrupt
  /-- A device raises an interrupt line of the reference controllers. -/
  | raiseLine (line : Fin 16)
  deriving DecidableEq, Repr

end Sys2Proof

namespace Sys2Proof.Config

/-- The launch parameters R8 leaves OPEN or switchable. A state carries them, so a claim over all
states is a claim over all of them. -/
structure Params where
  /-- `GDT_TABLE_ADDR` (R8, OPEN). -/
  gdtTableAddr : Addr
  /-- `GDTPTR_ADDR` (R8, OPEN). -/
  gdtPtrAddr : Addr
  /-- `P_SHADOW_TRACKS_SETCLEAR` (R92). -/
  shadowTracksSetClear : Bool
  deriving DecidableEq, Repr

/-- A segment register with its hidden descriptor cache (R30; widths PRESUMED, log 5). -/
structure SegReg where
  selector : Word16
  cache : BitVec 64
  deriving DecidableEq, Repr, Inhabited

/-- The processor's segment registers (R30), neither read nor written by any command. -/
structure SegmentRegisters where
  cs : SegReg
  ds : SegReg
  es : SegReg
  fs : SegReg
  gs : SegReg
  ss : SegReg
  deriving DecidableEq, Repr, Inhabited

/-- `GDT_CAP` (R8). -/
def gdtCap : Nat := 6
/-- `DESC_SIZE` (R8). -/
def descSize : Nat := 8
/-- `GDT_BYTES` (R8). -/
def gdtBytes : Nat := gdtCap * descSize
/-- Bytes of the table pointer (R32, R70). -/
def gdtPtrBytes : Nat := 6
/-- `GDT_LIMIT_VALUE` (R8): total table bytes minus one, 47. -/
def gdtLimitValue : Word16 := BitVec.ofNat 16 (gdtBytes - 1)
/-- `FLAT_LIMIT` (R8). -/
def flatLimit : BitVec 20 := 0xFFFFF
/-- `N_IRQ` (R8). -/
def nIrq : Nat := 16

/-- `PIC1_CMD` (R8, R49). -/
def pic1Cmd : Port := 0x0020
/-- `PIC1_DATA` (R8, R49). -/
def pic1Data : Port := 0x0021
/-- `PIC2_CMD` (R8, R49). -/
def pic2Cmd : Port := 0x00A0
/-- `PIC2_DATA` (R8, R49). -/
def pic2Data : Port := 0x00A1
/-- `PIC1_OFFSET_DEFAULT` (R8). -/
def pic1OffsetDefault : Byte := 0x20
/-- `PIC2_OFFSET_DEFAULT` (R8). -/
def pic2OffsetDefault : Byte := 0x28

/-- `ICW1` (R72): initialise, edge triggered, cascade, ICW4 follows. -/
def icw1 : Byte := 0x11
/-- `ICW3_M` (R72): a slave on master line 2. -/
def icw3M : Byte := 0x04
/-- `ICW3_S` (R72): slave identity 2. -/
def icw3S : Byte := 0x02
/-- `ICW4` (R72): 8086/88 mode. -/
def icw4 : Byte := 0x01
/-- `EOI` (R72): non-specific end of interrupt. -/
def eoi : Byte := 0x20
/-- `OCW3_READ_IRR` (R72). -/
def ocw3ReadIrr : Byte := 0x0A
/-- `OCW3_READ_ISR` (R72). -/
def ocw3ReadIsr : Byte := 0x0B
/-- All 8 lines of a controller masked (R94). -/
def maskAll : Byte := 0xFF

/-- `VGA_W` (R8). -/
def vgaW : Nat := 80
/-- `VGA_H` (R8). -/
def vgaH : Nat := 25
/-- `VGA_CELLS` (R8). -/
def vgaCells : Nat := vgaW * vgaH
/-- Bytes of the cell grid (R48). -/
def vgaBytes : Nat := 2 * vgaCells
/-- `VGA_BASE` (R8). -/
def vgaBase : Addr := 0x000B8000
/-- `CRTC_INDEX` (R8, R49). -/
def crtcIndex : Port := 0x03D4
/-- `CRTC_DATA` (R8, R49). -/
def crtcData : Port := 0x03D5
/-- `CUR_MAX_SCANLINE` (R8). -/
def curMaxScanline : Byte := 15
/-- `DEFAULT_ATTR` (R8, R75): light grey on black. -/
def defaultAttr : Byte := 0x07
/-- `BLANK_GLYPH` (R8, R75). -/
def blankGlyph : Byte := 0x20
/-- The newline byte, the only special one (R105). -/
def newline : Byte := 0x0A
/-- CRTC register: cursor start (R73). -/
def crCursorStart : Byte := 0x0A
/-- CRTC register: cursor end (R73). -/
def crCursorEnd : Byte := 0x0B
/-- CRTC register: cursor location high (R73). -/
def crLocationHigh : Byte := 0x0E
/-- CRTC register: cursor location low (R73). -/
def crLocationLow : Byte := 0x0F
/-- The cursor disable sentinel (R73). -/
def cursorDisable : Byte := 0x20

/-- Free value: the draw `PIC_SHADOW_RESET_M` of `State.reset` (R23; log 3). -/
opaque picShadowResetM : Byte
/-- Free value: the draw `PIC_SHADOW_RESET_S` of `State.reset` (R23; log 3). -/
opaque picShadowResetS : Byte
/-- Free value: `IF_AT_RESET` of `State.reset` (R20; log 4). -/
opaque ifAtReset : Bool
/-- Free value: `GDTR.BASE` the boot loader left (R29; log 4). -/
opaque gdtrBaseAtReset : Addr
/-- Free value: `GDTR.LIMIT` the boot loader left (R29; log 4). -/
opaque gdtrLimitAtReset : Word16

/-- Free value: the segment registers the boot loader left (R30; log 5). -/
opaque segsAtReset : SegmentRegisters
/-- Free value: the unconstrained oracle's answer to a port read, a function of the trace so far, the
port and the width (R37; log 8). A byte read takes its low byte. The trace grows at every access, so
two reads of a run never ask for the same value. -/
opaque portAnswer : List PortEvent → Port → PortWidth → Word16

/-- Free value: the environment's choices between commands of a run from `State.reset` (R123; log 9). -/
opaque envActionsAtReset : List EnvAction

end Sys2Proof.Config
end

