-- ==== Sys2Proof/Syntax.lean ====
section
/-! DEFINITION. The commands of the block: one constructor per row of the opcode map (R58), its
operands in the order of the operation's signature (R63), each as wide as its field (R57, R60). -/

namespace Sys2Proof

/-- A command of the jkos bootstrap block. Every operand is the plain unsigned value of its field
(R60), so a limit wider than 20 bits or a flags nibble wider than 4 bits cannot be written. -/
inductive Instr where
  | outb (port : Port) (value : Byte)
  | outw (port : Port) (value : Word16)
  | inb (port : Port)
  | inw (port : Port)
  | gdtAdd (slot : Byte) (base : Addr) (limit : BitVec 20) (access : Byte) (flags : BitVec 4)
  | gdtInitDefaults
  | gdtInit
  | picInit (offset1 : Byte) (offset2 : Byte)
  | picDisable
  | picEnable
  | picSetMask (irq : Byte)
  | picClearMask (irq : Byte)
  | picSendEoi (irq : Byte)
  | picGetIrr
  | picGetIsr
  | termInit
  | termSetFg (color : Byte)
  | termSetBg (color : Byte)
  | termPutchar (c : Byte)
  | termWrite (address : Addr) (length : BitVec 32)
  | termWritestring (address : Addr)
  | termScroll
  | curEnable (min : Byte) (max : Byte)
  | curDisable
  | curSetpos (x : Word16) (y : Word16)
  deriving DecidableEq, Repr

end Sys2Proof
end

