-- ==== Sys2Proof/WellFormed.lean ====
section
/-! DEFINITION. What is well formed: operand values that fit their fields (R57, R60, R63) and launch
parameters that meet R9. -/

namespace Sys2Proof

/-- The ten formats of R57. -/
inductive Format where
  | n | p | pa | ph | a | ab | xy | d | de | g
  deriving DecidableEq, Repr

/-- The widths of a format's operands, in the order of the operation's signature (R57, R63). -/
def Format.widths : Format → List Nat
  | .n => []
  | .p => [16]
  | .pa => [16, 8]
  | .ph => [16, 16]
  | .a => [8]
  | .ab => [8, 8]
  | .xy => [16, 16]
  | .d => [32]
  | .de => [32, 32]
  | .g => [8, 32, 20, 8, 4]

/-- The format of each command (R57, R58). -/
def Instr.format : Instr → Format
  | .outb _ _ => .pa
  | .outw _ _ => .ph
  | .inb _ => .p
  | .inw _ => .p
  | .gdtAdd _ _ _ _ _ => .g
  | .gdtInitDefaults => .n
  | .gdtInit => .n
  | .picInit _ _ => .ab
  | .picDisable => .n
  | .picEnable => .n
  | .picSetMask _ => .a
  | .picClearMask _ => .a
  | .picSendEoi _ => .a
  | .picGetIrr => .n
  | .picGetIsr => .n
  | .termInit => .n
  | .termSetFg _ => .a
  | .termSetBg _ => .a
  | .termPutchar _ => .a
  | .termWrite _ _ => .de
  | .termWritestring _ => .d
  | .termScroll => .n
  | .curEnable _ _ => .ab
  | .curDisable => .n
  | .curSetpos _ _ => .xy

/-- The operand values of a command, in signature order (R63). -/
def Instr.operands : Instr → List Nat
  | .outb port value => [port.toNat, value.toNat]
  | .outw port value => [port.toNat, value.toNat]
  | .inb port => [port.toNat]
  | .inw port => [port.toNat]
  | .gdtAdd slot base limit access flags =>
      [slot.toNat, base.toNat, limit.toNat, access.toNat, flags.toNat]
  | .gdtInitDefaults => []
  | .gdtInit => []
  | .picInit offset1 offset2 => [offset1.toNat, offset2.toNat]
  | .picDisable => []
  | .picEnable => []
  | .picSetMask irq => [irq.toNat]
  | .picClearMask irq => [irq.toNat]
  | .picSendEoi irq => [irq.toNat]
  | .picGetIrr => []
  | .picGetIsr => []
  | .termInit => []
  | .termSetFg color => [color.toNat]
  | .termSetBg color => [color.toNat]
  | .termPutchar c => [c.toNat]
  | .termWrite address length => [address.toNat, length.toNat]
  | .termWritestring address => [address.toNat]
  | .termScroll => []
  | .curEnable min max => [min.toNat, max.toNat]
  | .curDisable => []
  | .curSetpos x y => [x.toNat, y.toNat]

/-- R63: as many operands as the syntax names, each fitting its field. -/
def operandsFit : List Nat → List Nat → Bool
  | [], [] => true
  | w :: ws, v :: vs => decide (v < 2 ^ w) && operandsFit ws vs
  | [], _ :: _ => false
  | _ :: _, [] => false

/-- A command is well formed when its operands fit its format's fields. The operand types enforce
it, so every `Instr` is well formed; the check itself refuses operand lists that do not fit. -/
def Instr.WellFormed (i : Instr) : Bool := operandsFit i.format.widths i.operands

namespace Config

/-- Two byte ranges of natural addresses share no byte. -/
def rangesDisjoint (a n b m : Nat) : Bool := decide (a + n ≤ b) || decide (b + m ≤ a)

/-- R9: the three regions are pairwise disjoint and none wraps past 2^32. -/
def Params.wf (p : Params) : Bool :=
  rangesDisjoint p.gdtTableAddr.toNat gdtBytes p.gdtPtrAddr.toNat gdtPtrBytes &&
  rangesDisjoint p.gdtTableAddr.toNat gdtBytes vgaBase.toNat vgaBytes &&
  rangesDisjoint p.gdtPtrAddr.toNat gdtPtrBytes vgaBase.toNat vgaBytes &&
  decide (p.gdtTableAddr.toNat + gdtBytes ≤ 2 ^ 32) &&
  decide (p.gdtPtrAddr.toNat + gdtPtrBytes ≤ 2 ^ 32) &&
  decide (vgaBase.toNat + vgaBytes ≤ 2 ^ 32)

end Config

end Sys2Proof
end

