-- ==== Sys2Proof/Decode.lean ====
section
/-! DEFINITION. The command word (R56-R62): its fields, the opcode map, the decoder with its two
rejections (R59, R61), the encoder, and the word carried as 16 little-endian bytes (R56). -/

namespace Sys2Proof

/-- The fields of a command word (R56). -/
structure Fields where
  op : Byte
  a : Byte
  b : Byte
  f : BitVec 4
  z : BitVec 4
  p : BitVec 16
  h : BitVec 16
  d : BitVec 32
  e : BitVec 32
  deriving DecidableEq, Repr

/-- R56: the fields of a word. -/
def Fields.ofWord (w : CommandWord) : Fields where
  op := w.extractLsb' 0 8
  a := w.extractLsb' 8 8
  b := w.extractLsb' 16 8
  f := w.extractLsb' 24 4
  z := w.extractLsb' 28 4
  p := w.extractLsb' 32 16
  h := w.extractLsb' 48 16
  d := w.extractLsb' 64 32
  e := w.extractLsb' 96 32

/-- R56: the word of given fields, `OP` lowest and `E` highest. -/
def Fields.toWord (x : Fields) : CommandWord :=
  x.e ++ x.d ++ x.h ++ x.p ++ x.z ++ x.f ++ x.b ++ x.a ++ x.op

/-- R57, R59: every bit outside `OP` and the format's operand fields is 0. `Z` is always reserved;
for format `G` so is `E[31:20]`. -/
def Format.reservedClear (fmt : Format) (x : Fields) : Bool :=
  x.z == 0 &&
  match fmt with
  | .n => x.a == 0 && x.b == 0 && x.f == 0 && x.p == 0 && x.h == 0 && x.d == 0 && x.e == 0
  | .p => x.a == 0 && x.b == 0 && x.f == 0 && x.h == 0 && x.d == 0 && x.e == 0
  | .pa => x.b == 0 && x.f == 0 && x.h == 0 && x.d == 0 && x.e == 0
  | .ph => x.a == 0 && x.b == 0 && x.f == 0 && x.d == 0 && x.e == 0
  | .a => x.b == 0 && x.f == 0 && x.p == 0 && x.h == 0 && x.d == 0 && x.e == 0
  | .ab => x.f == 0 && x.p == 0 && x.h == 0 && x.d == 0 && x.e == 0
  | .xy => x.a == 0 && x.b == 0 && x.f == 0 && x.d == 0 && x.e == 0
  | .d => x.a == 0 && x.b == 0 && x.f == 0 && x.p == 0 && x.h == 0 && x.e == 0
  | .de => x.a == 0 && x.b == 0 && x.f == 0 && x.p == 0 && x.h == 0
  | .g => x.p == 0 && x.h == 0 && x.e.extractLsb' 20 12 == 0#12

/-- One row of the opcode map (R58). -/
structure OpRow where
  opcode : Byte
  mnemonic : String
  format : Format
  build : Fields → Instr

/-- The port I/O rows of R58. -/
def opcodeRowsPort : List OpRow :=
  [⟨0x01, "OUTB", .pa, fun x => .outb x.p x.a⟩,
   ⟨0x02, "OUTW", .ph, fun x => .outw x.p x.h⟩,
   ⟨0x03, "INB", .p, fun x => .inb x.p⟩,
   ⟨0x04, "INW", .p, fun x => .inw x.p⟩]

/-- The GDT rows of R58. -/
def opcodeRowsGdt : List OpRow :=
  [⟨0x10, "GDT_ADD", .g, fun x => .gdtAdd x.a x.d (x.e.extractLsb' 0 20) x.b x.f⟩,
   ⟨0x11, "GDT_INIT_DEFAULTS", .n, fun _ => .gdtInitDefaults⟩,
   ⟨0x12, "GDT_INIT", .n, fun _ => .gdtInit⟩]

/-- The PIC rows of R58. -/
def opcodeRowsPic : List OpRow :=
  [⟨0x20, "PIC_INIT", .ab, fun x => .picInit x.a x.b⟩,
   ⟨0x21, "PIC_DISABLE", .n, fun _ => .picDisable⟩,
   ⟨0x22, "PIC_ENABLE", .n, fun _ => .picEnable⟩,
   ⟨0x23, "PIC_SET_MASK", .a, fun x => .picSetMask x.a⟩,
   ⟨0x24, "PIC_CLEAR_MASK", .a, fun x => .picClearMask x.a⟩,
   ⟨0x25, "PIC_SEND_EOI", .a, fun x => .picSendEoi x.a⟩,
   ⟨0x26, "PIC_GET_IRR", .n, fun _ => .picGetIrr⟩,
   ⟨0x27, "PIC_GET_ISR", .n, fun _ => .picGetIsr⟩]

/-- The VGA rows of R58. -/
def opcodeRowsVga : List OpRow :=
  [⟨0x30, "TERM_INIT", .n, fun _ => .termInit⟩,
   ⟨0x31, "TERM_SET_FG", .a, fun x => .termSetFg x.a⟩,
   ⟨0x32, "TERM_SET_BG", .a, fun x => .termSetBg x.a⟩,
   ⟨0x33, "TERM_PUTCHAR", .a, fun x => .termPutchar x.a⟩,
   ⟨0x34, "TERM_WRITE", .de, fun x => .termWrite x.d x.e⟩,
   ⟨0x35, "TERM_WRITESTRING", .d, fun x => .termWritestring x.d⟩,
   ⟨0x36, "TERM_SCROLL", .n, fun _ => .termScroll⟩,
   ⟨0x37, "CUR_ENABLE", .ab, fun x => .curEnable x.a x.b⟩,
   ⟨0x38, "CUR_DISABLE", .n, fun _ => .curDisable⟩,
   ⟨0x39, "CUR_SETPOS", .xy, fun x => .curSetpos x.p x.h⟩]

/-- The opcode map of R58. -/
def opcodeMap : List OpRow :=
  opcodeRowsPort ++ (opcodeRowsGdt ++ (opcodeRowsPic ++ opcodeRowsVga))

/-- The row of an opcode, if it is in the map. -/
def findRow (op : Byte) : Option OpRow := opcodeMap.find? (fun r => r.opcode == op)

/-- Why a command word is not a command (R59, R61). -/
inductive DecodeReject where
  /-- `OP` is not in the opcode map: `FLT_ILLEGAL_OPCODE`. -/
  | illegalOpcode
  /-- A must-be-zero bit is 1: `FLT_RESERVED_FIELD`. -/
  | reservedField
  deriving DecidableEq, Repr

/-- Why bytes do not carry a command. -/
inductive BytesReject where
  /-- Fewer than 16 bytes are there (R56, R62). -/
  | shortWord
  /-- The word they carry is no command. -/
  | word (r : DecodeReject)
  deriving DecidableEq, Repr

/-- R59: decode a command word, the opcode check before the must-be-zero check. -/
def decode (w : CommandWord) : Except DecodeReject Instr :=
  let x := Fields.ofWord w
  match findRow x.op with
  | none => .error .illegalOpcode
  | some r => if r.format.reservedClear x then .ok (r.build x) else .error .reservedField

/-- The word of `n` little-endian bytes, if that many are there (R56). -/
def leWord : (n : Nat) → List Byte → Option (BitVec (8 * n) × List Byte)
  | 0, rest => some (0#0, rest)
  | _ + 1, [] => none
  | n + 1, b :: rest =>
    match leWord n rest with
    | none => none
    | some (v, rest') => some (v ++ b, rest')

/-- R56: the 16 bytes of a command word, byte `i` = `W[8i+7:8i]`. -/
def wordBytes (w : CommandWord) : List Byte :=
  (List.range 16).map (fun i => w.extractLsb' (8 * i) 8)

/-- Decode the 16 little-endian bytes a command word is carried as (R56), with the bytes after it.
Total on any list of bytes. -/
def decodeBytes (bytes : List Byte) : Except BytesReject (Instr × List Byte) :=
  match leWord 16 bytes with
  | none => .error .shortWord
  | some (w, rest) =>
    match decode w with
    | .error r => .error (.word r)
    | .ok i => .ok (i, rest)

/-- The command the decoder reads from a word whose bits are `w`, bit 0 the least significant, the
bits from `nbits` on 0: laid out as 16 bytes, byte 0 first, and given to `decodeBytes`. -/
def decodeTableWord (nbits w : Nat) : Option Instr :=
  match decodeBytes (wordBytes (BitVec.ofNat 128 (w % 2 ^ nbits))) with
  | .ok (i, _) => some i
  | .error _ => none

/-! ### The encoder -/

/-- R56-R58: the fields of a command, every must-be-zero field 0. -/
def Instr.fields : Instr → Fields
  | .outb port value => ⟨0x01, value, 0, 0, 0, port, 0, 0, 0⟩
  | .outw port value => ⟨0x02, 0, 0, 0, 0, port, value, 0, 0⟩
  | .inb port => ⟨0x03, 0, 0, 0, 0, port, 0, 0, 0⟩
  | .inw port => ⟨0x04, 0, 0, 0, 0, port, 0, 0, 0⟩
  | .gdtAdd slot base limit access flags =>
      ⟨0x10, slot, access, flags, 0, 0, 0, base, limit.setWidth 32⟩
  | .gdtInitDefaults => ⟨0x11, 0, 0, 0, 0, 0, 0, 0, 0⟩
  | .gdtInit => ⟨0x12, 0, 0, 0, 0, 0, 0, 0, 0⟩
  | .picInit offset1 offset2 => ⟨0x20, offset1, offset2, 0, 0, 0, 0, 0, 0⟩
  | .picDisable => ⟨0x21, 0, 0, 0, 0, 0, 0, 0, 0⟩
  | .picEnable => ⟨0x22, 0, 0, 0, 0, 0, 0, 0, 0⟩
  | .picSetMask irq => ⟨0x23, irq, 0, 0, 0, 0, 0, 0, 0⟩
  | .picClearMask irq => ⟨0x24, irq, 0, 0, 0, 0, 0, 0, 0⟩
  | .picSendEoi irq => ⟨0x25, irq, 0, 0, 0, 0, 0, 0, 0⟩
  | .picGetIrr => ⟨0x26, 0, 0, 0, 0, 0, 0, 0, 0⟩
  | .picGetIsr => ⟨0x27, 0, 0, 0, 0, 0, 0, 0, 0⟩
  | .termInit => ⟨0x30, 0, 0, 0, 0, 0, 0, 0, 0⟩
  | .termSetFg color => ⟨0x31, color, 0, 0, 0, 0, 0, 0, 0⟩
  | .termSetBg color => ⟨0x32, color, 0, 0, 0, 0, 0, 0, 0⟩
  | .termPutchar c => ⟨0x33, c, 0, 0, 0, 0, 0, 0, 0⟩
  | .termWrite address length => ⟨0x34, 0, 0, 0, 0, 0, 0, address, length⟩
  | .termWritestring address => ⟨0x35, 0, 0, 0, 0, 0, 0, address, 0⟩
  | .termScroll => ⟨0x36, 0, 0, 0, 0, 0, 0, 0, 0⟩
  | .curEnable min max => ⟨0x37, min, max, 0, 0, 0, 0, 0, 0⟩
  | .curDisable => ⟨0x38, 0, 0, 0, 0, 0, 0, 0, 0⟩
  | .curSetpos x y => ⟨0x39, 0, 0, 0, 0, x, y, 0, 0⟩

/-- The command word of a command (R56-R58). -/
def encode (i : Instr) : CommandWord := i.fields.toWord

/-- The command words of a command, as the table's encodings give them: always one (R62). -/
def encodeWords (i : Instr) : List CommandWord := [encode i]

/-! ### The rows of the opcode table as match and mask -/

/-- The mask of a format's row in spec/opcode_table.json: the opcode and every must-be-zero bit. -/
def Format.mask : Format → CommandWord
  | .n => 0xFFFFFFFFFFFFFFFFFFFFFFFFFFFFFFFF
  | .p => 0xFFFFFFFFFFFFFFFFFFFF0000FFFFFFFF
  | .pa => 0xFFFFFFFFFFFFFFFFFFFF0000FFFF00FF
  | .ph => 0xFFFFFFFFFFFFFFFF00000000FFFFFFFF
  | .a => 0xFFFFFFFFFFFFFFFFFFFFFFFFFFFF00FF
  | .ab => 0xFFFFFFFFFFFFFFFFFFFFFFFFFF0000FF
  | .xy => 0xFFFFFFFFFFFFFFFF00000000FFFFFFFF
  | .d => 0xFFFFFFFF00000000FFFFFFFFFFFFFFFF
  | .de => 0x0000000000000000FFFFFFFFFFFFFFFF
  | .g => 0xFFF0000000000000FFFFFFFFF00000FF

/-- The opcode of a command (R58). -/
def Instr.opcode (i : Instr) : Byte := i.fields.op

end Sys2Proof
end

