-- ==== Sys2Proof/Machine/State.lean ====
section
/-! DEFINITION. Every piece of state the spec gives the machine (10_state.md), as plain data, the
launch of a run from its OPEN inputs, and the state after reset (R39). -/

namespace Sys2Proof.Machine

/-- The fault codes of R118. -/
inductive FaultCode where
  | illegalOpcode
  | reservedField
  | slotRange
  | irqRange
  | colorRange
  | termUninit
  | scrollUnderflow
  | bufferRange
  | intrUnhandled
  deriving DecidableEq, Repr

/-- `FAULT` when it is not none: `(code, ci, W)`, `W` absent for an interrupt (R28, R117). -/
structure FaultRecord where
  code : FaultCode
  ci : Nat
  word : Option CommandWord
  deriving DecidableEq, Repr

/-- Physical memory (R34): the bytes that differ from what an unlisted address reads as, in rising
address order. -/
abbrev Memory := List Host.Cell

/-- `TERM_ROW`, `TERM_COL` and `TERM_ATTR`, which hold a value only while `TERM_VALID` = 1 (R25). -/
structure Terminal where
  row : Nat
  col : Nat
  attr : Byte
  deriving DecidableEq, Repr

/-- `GDTR` (R29). -/
structure Gdtr where
  base : Addr
  limit : Word16
  deriving DecidableEq, Repr

/-- The read-register select `RS_X` of the reference controller (R128). -/
inductive ReadSelect where
  | irr
  | isr
  deriving DecidableEq, Repr

/-- The initialisation progress `ST_X` of the reference controller (R128). -/
inductive InitState where
  | ready
  | icw2
  | icw3
  | icw4
  deriving DecidableEq, Repr

/-- The reference interrupt controller (R128). `vecOffset` holds the last ICW2 (log 12). -/
structure RefPic where
  imr : Byte
  irr : Byte
  isr : Byte
  rs : ReadSelect
  st : InitState
  ic4 : Bool
  sngl : Bool
  vecOffset : Byte
  deriving DecidableEq, Repr

/-- The reference CRT controller (R129): the index latch `CI` and the registers `CR[i]`, one for each
value of the latch. -/
structure RefCrtc where
  index : Byte
  regs : Vector Byte 256
  deriving DecidableEq, Repr

/-- The cursor the reference CRT controller shows (R129): the scanlines it spans, of the character cell
at a linear offset. -/
structure ShownCursor where
  firstScanline : BitVec 5
  lastScanline : BitVec 5
  offset : Word16
  deriving DecidableEq, Repr

/-- The reference devices behind the ports (R128, R129). -/
structure RefDevices where
  master : RefPic
  slave : RefPic
  crtc : RefCrtc
  deriving DecidableEq, Repr

/-- The environment's port oracle (R37). -/
inductive PortOracle where
  /-- The unconstrained oracle: every answer is a free value. -/
  | free
  /-- The answers to the next reads, oldest first, then free values. -/
  | scripted (answers : List Word16)
  /-- The reference devices, a premise a claim must name. -/
  | reference (d : RefDevices)
  deriving DecidableEq, Repr

/-- The machine state: each element of 10_state.md, the launch parameters, the host's command stream
and the environment's choices. -/
structure State where
  /-- The launch parameters (R8); no step changes them. -/
  params : Config.Params
  /-- The host's command stream (R18, R19). -/
  stream : List CommandWord
  /-- `ci` (R18). -/
  ci : Nat
  /-- `FAULT` (R28). -/
  fault : Option FaultRecord
  /-- `RES` (R17). -/
  res : Option Word16
  /-- `GDT_COUNT` (R22). -/
  gdtCount : BitVec 32
  /-- `SHADOW_M` (R23). -/
  shadowM : Byte
  /-- `SHADOW_S` (R23). -/
  shadowS : Byte
  /-- `SNAP_M` (R24). -/
  snapM : Option Byte
  /-- `SNAP_S` (R24). -/
  snapS : Option Byte
  /-- `TERM_VALID`, with `TERM_ROW`, `TERM_COL`, `TERM_ATTR` when it is 1 (R25). -/
  term : Option Terminal
  /-- `IF` (R20). -/
  ifFlag : Bool
  /-- `GDTR` (R29). -/
  gdtr : Gdtr
  /-- The processor's segment registers (R30). -/
  segs : Config.SegmentRegisters
  /-- Physical memory (R31 to R34). -/
  mem : Memory
  /-- `TRACE` (R36). -/
  trace : List PortEvent
  /-- The port oracle (R37). -/
  oracle : PortOracle
  /-- The environment's choices between commands, oldest first; none left means none is taken (R123). -/
  envActions : List EnvAction
  deriving DecidableEq, Repr

/-- The launch inputs (R8 OPEN parameters and draws, R39, R137). -/
structure Launch where
  params : Config.Params
  stream : List CommandWord
  shadowM : Byte
  shadowS : Byte
  ifFlag : Bool
  gdtr : Gdtr
  segs : Config.SegmentRegisters
  mem : Memory
  oracle : PortOracle
  envActions : List EnvAction
  deriving DecidableEq, Repr

/-- Block reset (R39, R134) of a run launched with the given inputs. -/
def State.launch (l : Launch) : State where
  params := l.params
  stream := l.stream
  ci := 0
  fault := none
  res := none
  gdtCount := 0
  shadowM := l.shadowM
  shadowS := l.shadowS
  snapM := none
  snapS := none
  term := none
  ifFlag := l.ifFlag
  gdtr := l.gdtr
  segs := l.segs
  mem := l.mem
  trace := []
  oracle := l.oracle
  envActions := l.envActions

/-- The launch the model's own reset takes: the spec's parameter default (R92), the addresses of
95_test_vectors.md (log 2), free values for the draws and for what the boot loader left (logs 3 to
5), no command delivered yet (log 6), no byte of memory listed (log 1), the unconstrained oracle (log
8) and free choices of the environment (log 9). -/
def Launch.default : Launch where
  params := { gdtTableAddr := 0x00101000, gdtPtrAddr := 0x00101040, shadowTracksSetClear := true }
  stream := []
  shadowM := Config.picShadowResetM
  shadowS := Config.picShadowResetS
  ifFlag := Config.ifAtReset
  gdtr := { base := Config.gdtrBaseAtReset, limit := Config.gdtrLimitAtReset }
  segs := Config.segsAtReset
  mem := []
  oracle := .free
  envActions := Config.envActionsAtReset

/-- The machine right after reset (R39, R134). -/
def State.reset : State := State.launch Launch.default

/-- Reasons a machine operation stops with a fault. No command and no step raises one: the spec's
own faults (R118) are state (`FAULT`), see log 7. -/
inductive Fault where
  /-- The host reads `RES` while it holds no value (R17, U21): the host's error. Raised by
  `State.readRes` only. Safe: the spec gives that read no value. -/
  | resNoValue
  deriving DecidableEq, Repr

/-- Reasons a step has no meaning. -/
inductive Refusal where
  /-- An instruction without a meaning yet; raised by an arm of `exec` only. Safe. -/
  | notModelled (mnemonic : String)
  /-- The launch parameters violate R9, so the spec gives the run no meaning (U23). Raised by `step`.
  Safe. -/
  | launchParameters
  deriving DecidableEq, Repr

end Sys2Proof.Machine
end

