-- ==== Sys2Proof/Machine/Ops.lean ====
section
/-! DEFINITION. The named operations over the state that the meanings share: memory (R40), ports and
their oracle (R36, R37, R128, R129), completing a command, taking a fault (R117), fetching the host's
next command word (R18, R59), the environment's step (R123) and the host's read of `RES` (R17). -/

namespace Sys2Proof.Machine

/-! ### Memory (R34, R40) -/

/-- What an unlisted address reads as (log 1). -/
def Memory.unlisted : Byte := 0

/-- The number of byte addresses (R34). -/
def Memory.size : Nat := 2 ^ 32

/-- Addresses rise strictly from `lo`, lie in the address space, and no entry holds the unlisted
value. -/
def Memory.wfFrom (lo : Nat) : Memory → Bool
  | [] => true
  | (a, b) :: m =>
    decide (lo ≤ a) && decide (a < Memory.size) && decide (b ≠ Memory.unlisted) &&
      Memory.wfFrom (a + 1) m

/-- The canonical form of memory. -/
def Memory.wf (m : Memory) : Bool := Memory.wfFrom 0 m

/-- The byte at an address. -/
def Memory.lookup : Memory → Nat → Byte
  | [], _ => Memory.unlisted
  | (a, b) :: m, k => if a = k then b else Memory.lookup m k

/-- Put an entry in front, unless it holds the unlisted value. -/
def Memory.consCell (k : Nat) (v : Byte) (m : Memory) : Memory :=
  if v = Memory.unlisted then m else (k, v) :: m

/-- Write one byte, keeping the canonical form. -/
def Memory.update : Memory → Nat → Byte → Memory
  | [], k, v => Memory.consCell k v []
  | (a, b) :: m, k, v =>
    if k < a then Memory.consCell k v ((a, b) :: m)
    else if k = a then Memory.consCell k v m
    else (a, b) :: Memory.update m k v

/-- `MemByte(a)` (R40). -/
def Memory.byte (m : Memory) (a : Addr) : Byte := m.lookup a.toNat

/-- Write one byte at an address. -/
def Memory.setByte (m : Memory) (a : Addr) (v : Byte) : Memory := m.update a.toNat v

/-- `MemRead(a, n)` (R40): little-endian, addresses modulo 2^32. -/
def Memory.read (m : Memory) (a : Addr) : (n : Nat) → BitVec (8 * n)
  | 0 => 0#0
  | n + 1 => Memory.read m (a + 1) n ++ m.byte a

/-- `MemWrite(a, n, v)` (R40): byte `i` of `v` to address `a + i` modulo 2^32, `i` ascending. -/
def Memory.write (m : Memory) (a : Addr) : (n : Nat) → BitVec (8 * n) → Memory
  | 0, _ => m
  | n + 1, v =>
    Memory.write (m.setByte a (v.setWidth 8)) (a + 1) n ((v >>> 8).setWidth (8 * n))

/-- `MemWrite` on the state's memory. -/
def State.memWrite (s : State) (a : Addr) (n : Nat) (v : BitVec (8 * n)) : State :=
  { s with mem := s.mem.write a n v }

/-! ### The reference devices (R128, R129) -/

/-- A write to the command port of a reference controller (R128). -/
def RefPic.writeCommand (x : RefPic) (v : Byte) : RefPic :=
  if v.getLsbD 4 then
    { x with st := .icw2, ic4 := v.getLsbD 0, sngl := v.getLsbD 1, imr := 0, isr := 0, rs := .irr }
  else if !v.getLsbD 3 then
    if v.extractLsb' 5 3 = 1#3 then { x with isr := x.isr &&& (x.isr - 1) } else x
  else if v.getLsbD 1 then
    { x with rs := if v.getLsbD 0 then .isr else .irr }
  else x

/-- A write to the data port of a reference controller (R128). -/
def RefPic.writeData (x : RefPic) (v : Byte) : RefPic :=
  match x.st with
  | .icw2 =>
    { x with
      vecOffset := v
      st := if x.sngl then (if x.ic4 then .icw4 else .ready) else .icw3 }
  | .icw3 => { x with st := if x.ic4 then .icw4 else .ready }
  | .icw4 => { x with st := .ready }
  | .ready => { x with imr := v }

/-- A read of the data port (R128). -/
def RefPic.readData (x : RefPic) : Byte := x.imr

/-- A read of the command port (R128). -/
def RefPic.readCommand (x : RefPic) : Byte :=
  match x.rs with
  | .irr => x.irr
  | .isr => x.isr

/-- A device raises a line of this controller (R128). -/
def RefPic.raise (x : RefPic) (bit : Nat) : RefPic :=
  { x with irr := x.irr ||| (1#8 <<< bit) }

/-- `CR[i]` (R129). -/
def RefCrtc.reg (x : RefCrtc) (i : Byte) : Byte := x.regs[i.toNat]'i.isLt

/-- A write to the index port: `CI <- v` (R129). -/
def RefCrtc.writeIndex (x : RefCrtc) (v : Byte) : RefCrtc := { x with index := v }

/-- A write to the data port: `CR[CI] <- v` (R129). -/
def RefCrtc.writeData (x : RefCrtc) (v : Byte) : RefCrtc :=
  { x with regs := x.regs.set x.index.toNat v x.index.isLt }

/-- A read of the data port: `CR[CI]` (R129). -/
def RefCrtc.readData (x : RefCrtc) : Byte := x.reg x.index

/-- The cursor is hidden: bit 5 of the cursor start register (R129, R73). -/
def RefCrtc.cursorHidden (x : RefCrtc) : Bool := (x.reg Config.crCursorStart).getLsbD 5

/-- The linear offset of the cursor's cell, `CR[0x0E] ++ CR[0x0F]` (R129, R73). -/
def RefCrtc.cursorOffset (x : RefCrtc) : Word16 :=
  x.reg Config.crLocationHigh ++ x.reg Config.crLocationLow

/-- The cursor shown, none when it is hidden (R129). -/
def RefCrtc.cursor (x : RefCrtc) : Option ShownCursor :=
  if x.cursorHidden then none
  else some
    { firstScanline := (x.reg Config.crCursorStart).extractLsb' 0 5
      lastScanline := (x.reg Config.crCursorEnd).extractLsb' 0 5
      offset := x.cursorOffset }

/-- A byte write to a port of the reference devices; other ports have no device. -/
def RefDevices.writeByte (d : RefDevices) (port : Port) (v : Byte) : RefDevices :=
  if port = Config.pic1Cmd then { d with master := d.master.writeCommand v }
  else if port = Config.pic1Data then { d with master := d.master.writeData v }
  else if port = Config.pic2Cmd then { d with slave := d.slave.writeCommand v }
  else if port = Config.pic2Data then { d with slave := d.slave.writeData v }
  else if port = Config.crtcIndex then { d with crtc := d.crtc.writeIndex v }
  else if port = Config.crtcData then { d with crtc := d.crtc.writeData v }
  else d

/-- What a byte read of a port of the reference devices returns, where R128 and R129 say. -/
def RefDevices.readByte (d : RefDevices) (port : Port) : Option Byte :=
  if port = Config.pic1Cmd then some d.master.readCommand
  else if port = Config.pic1Data then some d.master.readData
  else if port = Config.pic2Cmd then some d.slave.readCommand
  else if port = Config.pic2Data then some d.slave.readData
  else if port = Config.crtcData then some d.crtc.readData
  else none

/-- A write of either width; a word's low byte goes to `port` and its high byte to `port + 1` (K19;
log 12). -/
def RefDevices.write (d : RefDevices) (port : Port) : PortData → RefDevices
  | .byte v => d.writeByte port v
  | .word v => (d.writeByte port (v.extractLsb' 0 8)).writeByte (port + 1) (v.extractLsb' 8 8)

/-- A read of either width, as `RefDevices.write` splits a word. -/
def RefDevices.read (d : RefDevices) (port : Port) : PortWidth → Option Word16
  | .byte => (d.readByte port).map (fun v => v.setWidth 16)
  | .word =>
    match d.readByte port, d.readByte (port + 1) with
    | some lo, some hi => some (hi ++ lo)
    | _, _ => none

/-! ### The port oracle and the port accesses (R11, R36, R37) -/

/-- The oracle's answer to a read; a byte read takes its low byte. -/
def PortOracle.answer (o : PortOracle) (trace : List PortEvent) (port : Port) (n : PortWidth) :
    Word16 :=
  match o with
  | .free => Config.portAnswer trace port n
  | .scripted [] => Config.portAnswer trace port n
  | .scripted (v :: _) => v
  | .reference d => (d.read port n).getD (Config.portAnswer trace port n)

/-- The oracle after it answered a read. -/
def PortOracle.afterRead (o : PortOracle) : PortOracle :=
  match o with
  | .free => .free
  | .scripted answers => .scripted answers.tail
  | .reference d => .reference d

/-- The oracle after a write reached the devices. -/
def PortOracle.afterWrite (o : PortOracle) (port : Port) (v : PortData) : PortOracle :=
  match o with
  | .free => .free
  | .scripted answers => .scripted answers
  | .reference d => .reference (d.write port v)

/-- `PortWrite(port, n, v)` (R11). -/
def State.portWrite (s : State) (port : Port) (v : PortData) : State :=
  { s with
    trace := s.trace ++ [.write port v]
    oracle := s.oracle.afterWrite port v }

/-- `PortWrite(port, 1, v)`. -/
def State.portWriteByte (s : State) (port : Port) (v : Byte) : State := s.portWrite port (.byte v)

/-- `PortWrite(port, 2, v)`. -/
def State.portWriteWord (s : State) (port : Port) (v : Word16) : State := s.portWrite port (.word v)

/-- The byte `PortRead(port, 1)` returns now. -/
def State.answerByte (s : State) (port : Port) : Byte :=
  (s.oracle.answer s.trace port .byte).setWidth 8

/-- The word `PortRead(port, 2)` returns now. -/
def State.answerWord (s : State) (port : Port) : Word16 := s.oracle.answer s.trace port .word

/-- The state after a read that returned `v`. -/
def State.portReadEvent (s : State) (port : Port) (v : PortData) : State :=
  { s with
    trace := s.trace ++ [.read port v]
    oracle := s.oracle.afterRead }

/-- `PortRead(port, 1)` (R11). -/
def State.portReadByte (s : State) (port : Port) : Byte × State :=
  (s.answerByte port, s.portReadEvent port (.byte (s.answerByte port)))

/-- `PortRead(port, 2)` (R11). -/
def State.portReadWord (s : State) (port : Port) : Word16 × State :=
  (s.answerWord port, s.portReadEvent port (.word (s.answerWord port)))

/-! ### The block's registers -/

/-- `RES <- v` (R17). -/
def State.setRes (s : State) (v : Word16) : State := { s with res := some v }

/-- `SHADOW_M <- v` (R23). -/
def State.setShadowM (s : State) (v : Byte) : State := { s with shadowM := v }

/-- `SHADOW_S <- v` (R23). -/
def State.setShadowS (s : State) (v : Byte) : State := { s with shadowS := v }

/-- `SNAP_M, SNAP_S <- m, sl` (R24, R93). -/
def State.setSnap (s : State) (m sl : Option Byte) : State := { s with snapM := m, snapS := sl }

/-- The terminal registers and the grid's memory after a VGA body (R25). -/
def State.setScreen (s : State) (t : Terminal) (m : Memory) : State :=
  { s with term := some t, mem := m }

/-- `TERM_VALID` (R25). -/
def State.termValid (s : State) : Bool := s.term.isSome

/-! ### Completing a command and taking a fault -/

/-- `ci <- ci + 1` (R11, R18). -/
def State.advance (s : State) : State := { s with ci := s.ci + 1 }

/-- A command completes without a fault (R18). -/
def complete (s : State) : Host.Outcome State Fault Refusal := .next s.advance

/-- Taking a fault (R117): `FAULT <- (code, ci, W)` and nothing else. The spec has no trap entry
beyond it (R124) and no return (R125). -/
def State.raise (s : State) (code : FaultCode) (w : Option CommandWord) : State :=
  { s with fault := some { code := code, ci := s.ci, word := w } }

/-- A command faults: its word is recorded (R117). The word of a command is `encode` of it, since
every must-be-zero bit of a decoded word is 0 (log 17). -/
def fail (code : FaultCode) (i : Instr) (s : State) : Host.Outcome State Fault Refusal :=
  .next (s.raise code (some (encode i)))

/-- The number of a fault code (R118). -/
def FaultCode.number : FaultCode → Nat
  | .illegalOpcode => 1
  | .reservedField => 2
  | .slotRange => 3
  | .irqRange => 4
  | .colorRange => 5
  | .termUninit => 6
  | .scrollUnderflow => 7
  | .bufferRange => 8
  | .intrUnhandled => 9

/-- The fault a rejected word raises (R59). -/
def rejectCode : DecodeReject → FaultCode
  | .illegalOpcode => .illegalOpcode
  | .reservedField => .reservedField

/-! ### The host's command, the environment's step, the host's read of RES -/

/-- What the host's stream holds at `ci`. -/
inductive Fetched where
  /-- No command is left: the block waits (R133, R135). -/
  | wait
  /-- A word that decodes to no command. -/
  | reject (code : FaultCode) (w : CommandWord)
  /-- A command. -/
  | command (i : Instr)
  deriving DecidableEq, Repr

/-- Take the host's command `ci` and decode it (R18, R59). -/
def State.fetch (s : State) : Fetched :=
  match s.stream[s.ci]? with
  | none => .wait
  | some w =>
    match decode w with
    | .error r => .reject (rejectCode r) w
    | .ok i => .command i

/-- What the environment does before a command. -/
inductive EnvOutcome where
  /-- It took a step of its own. -/
  | acted (s : State)
  /-- It took none: the block may run a command. -/
  | idle (s : State)
  deriving DecidableEq, Repr

/-- The interrupt step (R123): no handler exists, so it sets `FAULT`. -/
def State.interruptStep (s : State) : State := s.raise .intrUnhandled none

/-- A device raises line 0..15 of the reference controllers (R128); without them nothing is to see. -/
def State.raiseLine (s : State) (line : Fin 16) : State :=
  match s.oracle with
  | .reference d =>
    { s with
      oracle := .reference
        (if line.val < 8 then { d with master := d.master.raise line.val }
         else { d with slave := d.slave.raise (line.val - 8) }) }
  | .free => s
  | .scripted _ => s

/-- The environment's opportunity between two commands (R123): it takes the oldest of its choices. An
interrupt is possible only while `IF` = 1. -/
def State.environment (s : State) : EnvOutcome :=
  match s.envActions with
  | [] => .idle s
  | .quiet :: rest => .idle { s with envActions := rest }
  | .interrupt :: rest =>
    if s.ifFlag then .acted ({ s with envActions := rest } : State).interruptStep
    else .idle { s with envActions := rest }
  | .raiseLine line :: rest => .acted (({ s with envActions := rest } : State).raiseLine line)

/-- The host reads `RES` (R17); reading no value is the host's error (U21). -/
def State.readRes (s : State) : Except Fault Word16 :=
  match s.res with
  | some v => .ok v
  | none => .error .resNoValue

end Sys2Proof.Machine
end

