-- ==== Sys2Proof/Machine/Flags.lean ====
section
/-! DEFINITION. The flags. The block has no condition codes (R21); the only flag any command writes is
the processor's `IF`, and only `GDT_INIT` writes it (R20). -/

namespace Sys2Proof.Machine

/-- `SetIF(b)` (R11, R20). -/
def State.setIF (s : State) (b : Bool) : State := { s with ifFlag := b }

end Sys2Proof.Machine
end

