-- ==== Sys2Proof/Machine/Operands.lean ====
section
/-! DEFINITION. The binary formats of 30_encoding.md Part B: the segment descriptor and its fields
(R65 to R69), the table pointer (R70), selectors (R71), cells and attributes (R74 to R76), and the
line numbering of the PIC unit (R91, R121, R122). -/

namespace Sys2Proof.Machine

/-! ### Segment descriptors -/

/-- The fields of a segment descriptor (R65). -/
structure Descriptor where
  base : Addr
  limit : BitVec 20
  access : Byte
  flags : BitVec 4
  deriving DecidableEq, Repr

/-- `pack` (R68). -/
def Descriptor.pack (d : Descriptor) : BitVec 64 :=
  d.base.extractLsb' 24 8 ++ d.flags ++ d.limit.extractLsb' 16 4 ++ d.access ++
    d.base.extractLsb' 16 8 ++ d.base.extractLsb' 0 16 ++ d.limit.extractLsb' 0 16

/-- `unpack` (R69). -/
def Descriptor.unpack (v : BitVec 64) : Descriptor where
  base := v.extractLsb' 56 8 ++ v.extractLsb' 16 24
  limit := v.extractLsb' 48 4 ++ v.extractLsb' 0 16
  access := v.extractLsb' 40 8
  flags := v.extractLsb' 52 4

/-- The null descriptor (R85, slot 0). -/
def nullDescriptor : Descriptor := { base := 0, limit := 0, access := 0x00, flags := 0x0 }
/-- The kernel code descriptor (R85, slot 1). -/
def kernelCode : Descriptor := { base := 0, limit := Config.flatLimit, access := 0x9A, flags := 0xC }
/-- The kernel data descriptor (R85, slot 2). -/
def kernelData : Descriptor := { base := 0, limit := Config.flatLimit, access := 0x92, flags := 0xC }
/-- The user code descriptor (R85, slot 3). -/
def userCode : Descriptor := { base := 0, limit := Config.flatLimit, access := 0xFA, flags := 0xC }
/-- The user data descriptor (R85, slot 4). -/
def userData : Descriptor := { base := 0, limit := Config.flatLimit, access := 0xF2, flags := 0xC }

/-- Access byte bit 0, accessed (R66). -/
def accessAccessed (access : Byte) : Bool := access.getLsbD 0
/-- Access byte bit 1, read/write (R66). -/
def accessReadWrite (access : Byte) : Bool := access.getLsbD 1
/-- Access byte bit 2, direction/conforming (R66). -/
def accessDirection (access : Byte) : Bool := access.getLsbD 2
/-- Access byte bit 3, executable (R66). -/
def accessExecutable (access : Byte) : Bool := access.getLsbD 3
/-- Access byte bit 4, descriptor type (R66). -/
def accessCodeData (access : Byte) : Bool := access.getLsbD 4
/-- Access byte bits 6:5, privilege level (R66). -/
def accessDpl (access : Byte) : BitVec 2 := access.extractLsb' 5 2
/-- Access byte bit 7, present (R66). -/
def accessPresent (access : Byte) : Bool := access.getLsbD 7

/-- Flags bit 0, available to software (R67). -/
def flagsAvailable (flags : BitVec 4) : Bool := flags.getLsbD 0
/-- Flags bit 1, long mode (R67). -/
def flagsLong (flags : BitVec 4) : Bool := flags.getLsbD 1
/-- Flags bit 2, default operand size (R67). -/
def flagsSize (flags : BitVec 4) : Bool := flags.getLsbD 2
/-- Flags bit 3, granularity (R67). -/
def flagsGranularity (flags : BitVec 4) : Bool := flags.getLsbD 3

/-- The byte limit of a segment: with granularity 1 the 20-bit limit counts 4 KiB pages (R50). With
granularity 0 the spec gives no formula; that the limit then counts bytes, as it stands, is PRESUMED
from the IA-32 family (log 24). -/
def Descriptor.byteLimit (d : Descriptor) : BitVec 32 :=
  if flagsGranularity d.flags then d.limit ++ 0xFFF#12 else d.limit.setWidth 32

/-- Address of slot `s` of the table (R83, R84). -/
def slotAddr (table : Addr) (slot : Byte) : Addr :=
  table + (BitVec.ofNat 32 Config.descSize) * slot.setWidth 32

/-! ### Table pointer and selectors -/

/-- The table pointer as a 48-bit value (R70): `base ++ limit`. -/
def tablePointer (base : Addr) (limit : Word16) : BitVec 48 := base ++ limit

/-- `selector(slot) = slot << 3` (R71). -/
def selector (slot : Nat) : Word16 := BitVec.ofNat 16 (slot * Config.descSize)
/-- `SEL_KCODE` (R71, R89). -/
def selKcode : Word16 := selector 1
/-- `SEL_KDATA` (R71, R89). -/
def selKdata : Word16 := selector 2
/-- `SEL_UCODE` (R71, R89). -/
def selUcode : Word16 := selector 3
/-- `SEL_UDATA` (R71, R89). -/
def selUdata : Word16 := selector 4
/-- A selector's table index, bits 15:3 (R71). -/
def selectorIndex (s : Word16) : BitVec 13 := s.extractLsb' 3 13
/-- A selector's table indicator, bit 2 (R71). -/
def selectorTable (s : Word16) : Bool := s.getLsbD 2
/-- A selector's requested privilege level, bits 1:0 (R71). -/
def selectorRpl (s : Word16) : BitVec 2 := s.extractLsb' 0 2

/-! ### Cells, attributes, colours -/

/-- `make_cell(c, attr) = attr ++ c` (R75, R102). -/
def makeCell (c : Byte) (attr : Byte) : Word16 := attr ++ c
/-- The blank cell of `TERM_INIT` (R75, R107). -/
def blankCell : Word16 := makeCell Config.blankGlyph Config.defaultAttr
/-- `cell_addr(row, col)` (R102). -/
def cellAddr (row col : Nat) : Addr :=
  Config.vgaBase + BitVec.ofNat 32 (2 * (row * Config.vgaW + col))
/-- Address of cell `k`, row-major (R74). -/
def cellAddrOf (k : Nat) : Addr := Config.vgaBase + BitVec.ofNat 32 (2 * k)
/-- `Cell[7:0]` (R74). -/
def cellGlyph (cell : Word16) : Byte := cell.extractLsb' 0 8
/-- `Cell[15:8]` (R75). -/
def cellAttr (cell : Word16) : Byte := cell.extractLsb' 8 8
/-- `FG`, attribute bits 3:0 (R26). -/
def attrForeground (attr : Byte) : BitVec 4 := attr.extractLsb' 0 4
/-- `BG`, attribute bits 6:4 (R26). -/
def attrBackground (attr : Byte) : BitVec 3 := attr.extractLsb' 4 3
/-- `BLINK`, attribute bit 7 (R26). -/
def attrBlink (attr : Byte) : Bool := attr.getLsbD 7
/-- The attribute with the low nibble replaced (R108). -/
def withForeground (attr color : Byte) : Byte := (attr &&& 0xF0) ||| color
/-- The attribute with the high nibble replaced (R109). -/
def withBackground (attr color : Byte) : Byte := (attr &&& 0x0F) ||| (color <<< 4)

/-- The colour names of R76; no command depends on them. -/
inductive Colour where
  | black | blue | green | cyan | red | magenta | brown | lightGrey
  | darkGrey | lightBlue | lightGreen | lightCyan | lightRed | lightMagenta | yellow | white
  deriving DecidableEq, Repr

/-- The number of a colour (R76). -/
def Colour.number : Colour → BitVec 4
  | .black => 0
  | .blue => 1
  | .green => 2
  | .cyan => 3
  | .red => 4
  | .magenta => 5
  | .brown => 6
  | .lightGrey => 7
  | .darkGrey => 8
  | .lightBlue => 9
  | .lightGreen => 10
  | .lightCyan => 11
  | .lightRed => 12
  | .lightMagenta => 13
  | .yellow => 14
  | .white => 15

/-! ### Interrupt lines -/

/-- A line below 8 is on the master (R91). -/
def onMaster (irq : Byte) : Bool := decide (irq.toNat < 8)
/-- `port(irq)` (R91). -/
def irqPort (irq : Byte) : Port := if onMaster irq then Config.pic1Data else Config.pic2Data
/-- `bit(irq)` (R91). -/
def irqBit (irq : Byte) : Nat := if onMaster irq then irq.toNat else irq.toNat - 8
/-- `1 << bit(irq)` as a mask byte (R96). -/
def irqMask (irq : Byte) : Byte := 1#8 <<< irqBit irq

/-- The vector a line's interrupt carries in 8086 mode (R121): the offset's bits 7:3, then the line's
number on its controller. Outside the block: the block delivers no vector. -/
def irqVector (offset1 offset2 : Byte) (irq : Byte) : Byte :=
  ((if onMaster irq then offset1 else offset2) &&& 0xF8) ||| BitVec.ofNat 8 (irqBit irq)

/-- The fully nested priority order of the reference controllers (R122). -/
def irqPriority : List Nat := [0, 1, 8, 9, 10, 11, 12, 13, 14, 15, 3, 4, 5, 6, 7]

end Sys2Proof.Machine
end

