-- ==== Sys2Proof/Machine/Gdt.lean ====
section
/-! DEFINITION. The GDT unit (41_gdt.md). -/

namespace Sys2Proof.Machine

/-- The six field stores of a descriptor, in the order of R45. -/
def storeDescriptor (m : Memory) (a : Addr) (d : Descriptor) : Memory :=
  let m := m.write a 2 (d.limit.extractLsb' 0 16)
  let m := m.write (a + 2) 2 (d.base.extractLsb' 0 16)
  let m := m.write (a + 4) 1 (d.base.extractLsb' 16 8)
  let m := m.write (a + 5) 1 d.access
  let m := m.write (a + 6) 1 (d.flags ++ d.limit.extractLsb' 16 4)
  m.write (a + 7) 1 (d.base.extractLsb' 24 8)

/-- The `GDT_ADD` body of R84, after its range check and without its `ci` update (R12). -/
def gdtAddBody (slot : Byte) (d : Descriptor) (s : State) : State :=
  { s with
    mem := storeDescriptor s.mem (slotAddr s.params.gdtTableAddr slot) d
    gdtCount := s.gdtCount + 1 }

/-- The `GDT_INIT_DEFAULTS` body (R86): slots 0 to 4, ascending. -/
def gdtDefaultsBody (s : State) : State :=
  let s := gdtAddBody 0 nullDescriptor s
  let s := gdtAddBody 1 kernelCode s
  let s := gdtAddBody 2 kernelData s
  let s := gdtAddBody 3 userCode s
  gdtAddBody 4 userData s

/-- `LoadGDT(addr)` (R87). -/
def State.loadGdt (s : State) (a : Addr) : State :=
  { s with gdtr := { limit := s.mem.read a 2, base := s.mem.read (a + 2) 4 } }

/-- The two pointer stores of `GDT_INIT` (R88). -/
def storePointer (s : State) : State :=
  let s := s.memWrite s.params.gdtPtrAddr 2 Config.gdtLimitValue
  s.memWrite (s.params.gdtPtrAddr + 2) 4 s.params.gdtTableAddr

/-- `GDT_ADD slot, base, limit, access, flags` (R84). -/
def execGdtAdd (slot : Byte) (base : Addr) (limit : BitVec 20) (access : Byte) (flags : BitVec 4)
    (s : State) : Host.Outcome State Fault Refusal :=
  if slot.toNat ≥ Config.gdtCap then fail .slotRange (.gdtAdd slot base limit access flags) s
  else complete
    (gdtAddBody slot { base := base, limit := limit, access := access, flags := flags } s)

/-- `GDT_INIT_DEFAULTS` (R86). -/
def execGdtInitDefaults (s : State) : Host.Outcome State Fault Refusal :=
  complete (gdtDefaultsBody s)

/-- `GDT_INIT` (R88): `IF` cleared, pointer, defaults, table load, `IF` set. -/
def execGdtInit (s : State) : Host.Outcome State Fault Refusal :=
  let s := s.setIF false
  let s := storePointer s
  let s := gdtDefaultsBody s
  let s := s.loadGdt s.params.gdtPtrAddr
  complete (s.setIF true)

end Sys2Proof.Machine
end

