-- ==== Sys2Proof/Machine/Pic.lean ====
section
/-! DEFINITION. The PIC unit (42_pic.md): every access is one byte wide (R101). -/

namespace Sys2Proof.Machine

/-- R93: each of the four initialisation words goes to the master, then the slave, before the next. -/
def picInitWords (offset1 offset2 : Byte) (s : State) : State :=
  let s := s.portWriteByte Config.pic1Cmd Config.icw1
  let s := s.portWriteByte Config.pic2Cmd Config.icw1
  let s := s.portWriteByte Config.pic1Data offset1
  let s := s.portWriteByte Config.pic2Data offset2
  let s := s.portWriteByte Config.pic1Data Config.icw3M
  let s := s.portWriteByte Config.pic2Data Config.icw3S
  let s := s.portWriteByte Config.pic1Data Config.icw4
  s.portWriteByte Config.pic2Data Config.icw4

/-- `PIC_INIT offset1, offset2` (R93): snapshot the masks in `SNAP_M`/`SNAP_S`, initialise, restore. -/
def execPicInit (offset1 offset2 : Byte) (s : State) : Host.Outcome State Fault Refusal :=
  let rm := s.portReadByte Config.pic1Data
  let rs := rm.2.portReadByte Config.pic2Data
  let s := rs.2.setSnap (some rm.1) (some rs.1)
  let s := picInitWords offset1 offset2 s
  let s := s.portWriteByte Config.pic1Data rm.1
  let s := s.portWriteByte Config.pic2Data rs.1
  complete (s.setSnap none none)

/-- `PIC_DISABLE` (R94). -/
def execPicDisable (s : State) : Host.Outcome State Fault Refusal :=
  let rm := s.portReadByte Config.pic1Data
  let s := rm.2.setShadowM rm.1
  let rs := s.portReadByte Config.pic2Data
  let s := rs.2.setShadowS rs.1
  let s := s.portWriteByte Config.pic1Data Config.maskAll
  complete (s.portWriteByte Config.pic2Data Config.maskAll)

/-- `PIC_ENABLE` (R95). -/
def execPicEnable (s : State) : Host.Outcome State Fault Refusal :=
  let s := s.portWriteByte Config.pic1Data s.shadowM
  complete (s.portWriteByte Config.pic2Data s.shadowS)

/-- Apply a change to the shadow register of the line's controller, if the switch tells the shadows
to follow (R92). -/
def trackShadow (irq : Byte) (change : Byte → Byte) (s : State) : State :=
  if s.params.shadowTracksSetClear then
    if onMaster irq then s.setShadowM (change s.shadowM) else s.setShadowS (change s.shadowS)
  else s

/-- The read-modify-write of one mask register (R96, R97). -/
def modifyMask (irq : Byte) (change : Byte → Byte) (s : State) : State :=
  let r := s.portReadByte (irqPort irq)
  trackShadow irq change (r.2.portWriteByte (irqPort irq) (change r.1))

/-- `PIC_SET_MASK irq` (R96). -/
def execPicSetMask (irq : Byte) (s : State) : Host.Outcome State Fault Refusal :=
  if irq.toNat ≥ Config.nIrq then fail .irqRange (.picSetMask irq) s
  else complete (modifyMask irq (fun v => v ||| irqMask irq) s)

/-- `PIC_CLEAR_MASK irq` (R97). -/
def execPicClearMask (irq : Byte) (s : State) : Host.Outcome State Fault Refusal :=
  if irq.toNat ≥ Config.nIrq then fail .irqRange (.picClearMask irq) s
  else complete (modifyMask irq (fun v => v &&& ~~~ irqMask irq) s)

/-- `PIC_SEND_EOI irq` (R98): the slave first, for its lines only, then the master. -/
def execPicSendEoi (irq : Byte) (s : State) : Host.Outcome State Fault Refusal :=
  if irq.toNat ≥ Config.nIrq then fail .irqRange (.picSendEoi irq) s
  else
    let s := if onMaster irq then s else s.portWriteByte Config.pic2Cmd Config.eoi
    complete (s.portWriteByte Config.pic1Cmd Config.eoi)

/-- The read-register sequence R99 and R100 share: select on both, read one byte from each, the
slave's in the high byte of `RES`. -/
def readStatus (select : Byte) (s : State) : State :=
  let s := s.portWriteByte Config.pic1Cmd select
  let s := s.portWriteByte Config.pic2Cmd select
  let rm := s.portReadByte Config.pic1Cmd
  let rs := rm.2.portReadByte Config.pic2Cmd
  rs.2.setRes (rs.1 ++ rm.1)

/-- `PIC_GET_IRR` (R99). -/
def execPicGetIrr (s : State) : Host.Outcome State Fault Refusal :=
  complete (readStatus Config.ocw3ReadIrr s)

/-- `PIC_GET_ISR` (R100). -/
def execPicGetIsr (s : State) : Host.Outcome State Fault Refusal :=
  complete (readStatus Config.ocw3ReadIsr s)

end Sys2Proof.Machine
end

