-- ==== Sys2Proof/Machine/Port.lean ====
section
/-! DEFINITION. The port I/O primitives (40_portio.md). -/

namespace Sys2Proof.Machine

/-- `OUTB port, value` (R79). -/
def execOutb (port : Port) (value : Byte) (s : State) : Host.Outcome State Fault Refusal :=
  complete (s.portWriteByte port value)

/-- `OUTW port, value` (R80): one event of width 2. -/
def execOutw (port : Port) (value : Word16) (s : State) : Host.Outcome State Fault Refusal :=
  complete (s.portWriteWord port value)

/-- `INB port` (R81): `RES` gets the byte zero-extended. -/
def execInb (port : Port) (s : State) : Host.Outcome State Fault Refusal :=
  let r := s.portReadByte port
  complete (r.2.setRes (r.1.setWidth 16))

/-- `INW port` (R82). -/
def execInw (port : Port) (s : State) : Host.Outcome State Fault Refusal :=
  let r := s.portReadWord port
  complete (r.2.setRes r.1)

end Sys2Proof.Machine
end

