-- ==== Sys2Proof/Machine/Vga.lean ====
section
/-! DEFINITION. The VGA unit (43_vga.md): the terminal and the cursor controller. The bodies of R103 to
R106 are not commands; the commands perform them inline (R12). -/

namespace Sys2Proof.Machine

/-! ### Bodies -/

/-- One row of the scroll (R103): row `r` gets row `r + 1`, columns ascending. -/
def scrollRow (r : Nat) (m : Memory) : Memory :=
  (List.range Config.vgaW).foldl
    (fun m col => m.write (cellAddr r col) 2 (m.read (cellAddr (r + 1) col) 2)) m

/-- The cell moves of `scroll_body` (R103): rows 0 to 23, ascending; row 24 is not written. -/
def scrollCells (m : Memory) : Memory :=
  (List.range (Config.vgaH - 1)).foldl (fun m r => scrollRow r m) m

/-- `scroll_body` (R103) past its check of `TERM_ROW = 0`, which `TERM_SCROLL` makes and which the
scroll of `advance_row` cannot meet (R110). -/
def scrollBody (t : Terminal) (m : Memory) : Terminal × Memory :=
  ({ t with row := t.row - 1 }, scrollCells m)

/-- `advance_row` (R104). -/
def advanceRow (t : Terminal) (m : Memory) : Terminal × Memory :=
  if t.row + 1 = Config.vgaH then scrollBody { t with row := t.row + 1 } m
  else ({ t with row := t.row + 1 }, m)

/-- `putchar_body` (R105). -/
def putcharBody (c : Byte) (t : Terminal) (m : Memory) : Terminal × Memory :=
  if c = Config.newline then advanceRow { t with col := 0 } m
  else
    let m := m.write (cellAddr t.row t.col) 2 (makeCell c t.attr)
    if t.col + 1 = Config.vgaW then advanceRow { t with col := 0 } m
    else ({ t with col := t.col + 1 }, m)

/-- The loop of `TERM_WRITE` (R111): each byte read just before its own `putchar_body`. -/
def writeLoop : Nat → Addr → Terminal → Memory → Terminal × Memory
  | 0, _, t, m => (t, m)
  | n + 1, a, t, m =>
    let r := putcharBody (m.byte a) t m
    writeLoop n (a + 1) r.1 r.2

/-- `setpos_body` (R106): the position modulo 2^16, its low byte pair first. -/
def setposBody (x y : Word16) (s : State) : State :=
  let pos := y * BitVec.ofNat 16 Config.vgaW + x
  let s := s.portWriteByte Config.crtcIndex Config.crLocationLow
  let s := s.portWriteByte Config.crtcData (pos.extractLsb' 0 8)
  let s := s.portWriteByte Config.crtcIndex Config.crLocationHigh
  s.portWriteByte Config.crtcData (pos.extractLsb' 8 8)

/-- The `TERM_WRITE` body past its checks (R111): the loop, then the hardware cursor once. -/
def writeBody (address : Addr) (n : Nat) (t : Terminal) (s : State) : State :=
  let r := writeLoop n address t s.mem
  setposBody (BitVec.ofNat 16 r.1.col) (BitVec.ofNat 16 r.1.row) (s.setScreen r.1 r.2)

/-- The blank cells of `TERM_INIT` (R107), `k` ascending. -/
def clearCells (m : Memory) : Memory :=
  (List.range Config.vgaCells).foldl (fun m k => m.write (cellAddrOf k) 2 blankCell) m

/-! ### Buffer checks -/

/-- `[a, a + n)` meets the grid, for `n > 0` (R111). -/
def meetsGrid (a n : Nat) : Bool :=
  decide (a < Config.vgaBase.toNat + Config.vgaBytes) && decide (Config.vgaBase.toNat < a + n)

/-- R111: a non-empty buffer wraps past 2^32 or meets the grid. -/
def bufferOutOfRange (a n : Nat) : Bool :=
  decide (0 < n) && (decide (Memory.size < a + n) || meetsGrid a n)

/-- The length scan of `TERM_WRITESTRING` (R112) over the `fuel` addresses from `a` on: the bytes
before the first 0x00, or none if there is no 0x00. -/
def stringLength (m : Memory) : Nat → Addr → Option Nat
  | 0, _ => none
  | fuel + 1, a =>
    if m.byte a = 0 then some 0
    else
      match stringLength m fuel (a + 1) with
      | none => none
      | some n => some (n + 1)

/-- The scan of R112 from `address`: it ends at the top of memory. -/
def scanString (m : Memory) (address : Addr) : Option Nat :=
  stringLength m (Memory.size - address.toNat) address

/-! ### Terminal commands -/

/-- `TERM_INIT` (R107). -/
def execTermInit (s : State) : Host.Outcome State Fault Refusal :=
  complete (s.setScreen { row := 0, col := 0, attr := Config.defaultAttr } (clearCells s.mem))

/-- `TERM_SET_FG color` (R108). -/
def execTermSetFg (color : Byte) (s : State) : Host.Outcome State Fault Refusal :=
  if color.toNat ≥ 16 then fail .colorRange (.termSetFg color) s
  else
    match s.term with
    | none => fail .termUninit (.termSetFg color) s
    | some t => complete (s.setScreen { t with attr := withForeground t.attr color } s.mem)

/-- `TERM_SET_BG color` (R109). -/
def execTermSetBg (color : Byte) (s : State) : Host.Outcome State Fault Refusal :=
  if color.toNat ≥ 16 then fail .colorRange (.termSetBg color) s
  else
    match s.term with
    | none => fail .termUninit (.termSetBg color) s
    | some t => complete (s.setScreen { t with attr := withBackground t.attr color } s.mem)

/-- `TERM_PUTCHAR c` (R110). -/
def execTermPutchar (c : Byte) (s : State) : Host.Outcome State Fault Refusal :=
  match s.term with
  | none => fail .termUninit (.termPutchar c) s
  | some t =>
    let r := putcharBody c t s.mem
    complete (s.setScreen r.1 r.2)

/-- `TERM_WRITE address, length` (R111). -/
def execTermWrite (address : Addr) (length : BitVec 32) (s : State) :
    Host.Outcome State Fault Refusal :=
  if bufferOutOfRange address.toNat length.toNat then
    fail .bufferRange (.termWrite address length) s
  else
    match s.term with
    | none => fail .termUninit (.termWrite address length) s
    | some t => complete (writeBody address length.toNat t s)

/-- `TERM_WRITESTRING address` (R112). The string and its terminator are the `n + 1` bytes checked
against the grid. -/
def execTermWritestring (address : Addr) (s : State) : Host.Outcome State Fault Refusal :=
  match scanString s.mem address with
  | none => fail .bufferRange (.termWritestring address) s
  | some n =>
    if meetsGrid address.toNat (n + 1) then fail .bufferRange (.termWritestring address) s
    else
      match s.term with
      | none => fail .termUninit (.termWritestring address) s
      | some t => complete (writeBody address n t s)

/-- `TERM_SCROLL` (R113). -/
def execTermScroll (s : State) : Host.Outcome State Fault Refusal :=
  match s.term with
  | none => fail .termUninit .termScroll s
  | some t =>
    if t.row = 0 then fail .scrollUnderflow .termScroll s
    else
      let r := scrollBody t s.mem
      complete (s.setScreen r.1 r.2)

/-! ### Cursor controller -/

/-- Clamp to `CUR_MAX_SCANLINE` (R114). -/
def clampScanline (max : Byte) : Byte :=
  if max.toNat > Config.curMaxScanline.toNat then Config.curMaxScanline else max

/-- `CUR_ENABLE min, max` (R114): rejected without an access when `max <= min`. -/
def execCurEnable (min max : Byte) (s : State) : Host.Outcome State Fault Refusal :=
  if max.toNat ≤ min.toNat then complete s
  else
    let s := s.portWriteByte Config.crtcIndex Config.crCursorStart
    let s := s.portWriteByte Config.crtcData min
    let s := s.portWriteByte Config.crtcIndex Config.crCursorEnd
    complete (s.portWriteByte Config.crtcData (clampScanline max))

/-- `CUR_DISABLE` (R115). -/
def execCurDisable (s : State) : Host.Outcome State Fault Refusal :=
  let s := s.portWriteByte Config.crtcIndex Config.crCursorStart
  complete (s.portWriteByte Config.crtcData Config.cursorDisable)

/-- `CUR_SETPOS x, y` (R116). -/
def execCurSetpos (x y : Word16) (s : State) : Host.Outcome State Fault Refusal :=
  complete (setposBody x y s)

end Sys2Proof.Machine
end

