-- ==== Sys2Proof/Machine/Dispatch.lean ====
section
/-! DEFINITION. The meaning of each command: one arm per constructor. -/

namespace Sys2Proof.Machine

/-- Perform a decoded command (R59). -/
def exec (i : Instr) (s : State) : Host.Outcome State Fault Refusal :=
  match i with
  | .outb port value => Sys2Proof.Machine.execOutb port value s
  | .outw port value => Sys2Proof.Machine.execOutw port value s
  | .inb port => Sys2Proof.Machine.execInb port s
  | .inw port => Sys2Proof.Machine.execInw port s
  | .gdtAdd slot base limit access flags => Sys2Proof.Machine.execGdtAdd slot base limit access flags s
  | .gdtInitDefaults => Sys2Proof.Machine.execGdtInitDefaults s
  | .gdtInit => Sys2Proof.Machine.execGdtInit s
  | .picInit offset1 offset2 => Sys2Proof.Machine.execPicInit offset1 offset2 s
  | .picDisable => Sys2Proof.Machine.execPicDisable s
  | .picEnable => Sys2Proof.Machine.execPicEnable s
  | .picSetMask irq => Sys2Proof.Machine.execPicSetMask irq s
  | .picClearMask irq => Sys2Proof.Machine.execPicClearMask irq s
  | .picSendEoi irq => Sys2Proof.Machine.execPicSendEoi irq s
  | .picGetIrr => Sys2Proof.Machine.execPicGetIrr s
  | .picGetIsr => Sys2Proof.Machine.execPicGetIsr s
  | .termInit => Sys2Proof.Machine.execTermInit s
  | .termSetFg color => Sys2Proof.Machine.execTermSetFg color s
  | .termSetBg color => Sys2Proof.Machine.execTermSetBg color s
  | .termPutchar c => Sys2Proof.Machine.execTermPutchar c s
  | .termWrite address length => Sys2Proof.Machine.execTermWrite address length s
  | .termWritestring address => Sys2Proof.Machine.execTermWritestring address s
  | .termScroll => Sys2Proof.Machine.execTermScroll s
  | .curEnable min max => Sys2Proof.Machine.execCurEnable min max s
  | .curDisable => Sys2Proof.Machine.execCurDisable s
  | .curSetpos x y => Sys2Proof.Machine.execCurSetpos x y s

end Sys2Proof.Machine
end

