-- ==== Sys2Proof/Machine/Step.lean ====
section
/-! DEFINITION. One step of the machine: the environment's opportunity (R123), then the host's next
command (R18, R59). -/

namespace Sys2Proof.Machine

/-- One step. A faulted block takes none (R117); parameters that violate R9 give the run no meaning;
with no command left the block waits (R133, R135). -/
def step (s : State) : Host.Outcome State Fault Refusal :=
  if s.fault.isSome then .next s
  else if s.params.wf then
    match s.environment with
    | .acted s' => .next s'
    | .idle s' =>
      match s'.fetch with
      | .wait => .next s'
      | .reject code w => .next (s'.raise code (some w))
      | .command i => exec i s'
  else .refused .launchParameters

/-- The state with the word whose bits are `w` (those from `nbits` on 0) as the host's command `ci`, no
fault, and a quiet environment before it, so that the next step runs it (log 19). -/
def State.withFetchWord (s : State) (nbits w : Nat) : State :=
  { s with
    stream :=
      s.stream.take s.ci ++ List.replicate (s.ci - s.stream.length) 0 ++
        [BitVec.ofNat 128 (w % 2 ^ nbits)] ++ s.stream.drop (s.ci + 1)
    fault := none
    envActions := .quiet :: s.envActions }

end Sys2Proof.Machine
end

