-- ==== Sys2Proof/Machine/Assembler.lean ====
section
/-! DEFINITION. The assembler of R63 and R64: a line of text to the command it names. It is the host's
tool, not part of a step: commands reach the block as words only. Details the spec leaves open are in
log 18. -/

namespace Sys2Proof.Machine

/-- The mnemonic of a command (R58). -/
def mnemonicOf (i : Instr) : String :=
  match findRow i.opcode with
  | some r => r.mnemonic
  | none => ""

/-- Operand values, in signature order, put into the fields of their format (R57, R63). -/
def placeOperands (op : Byte) : Format → List Nat → Option Fields
  | .n, [] => some ⟨op, 0, 0, 0, 0, 0, 0, 0, 0⟩
  | .p, [port] => some ⟨op, 0, 0, 0, 0, BitVec.ofNat 16 port, 0, 0, 0⟩
  | .pa, [port, value] => some ⟨op, BitVec.ofNat 8 value, 0, 0, 0, BitVec.ofNat 16 port, 0, 0, 0⟩
  | .ph, [port, value] => some ⟨op, 0, 0, 0, 0, BitVec.ofNat 16 port, BitVec.ofNat 16 value, 0, 0⟩
  | .a, [v] => some ⟨op, BitVec.ofNat 8 v, 0, 0, 0, 0, 0, 0, 0⟩
  | .ab, [v1, v2] => some ⟨op, BitVec.ofNat 8 v1, BitVec.ofNat 8 v2, 0, 0, 0, 0, 0, 0⟩
  | .xy, [x, y] => some ⟨op, 0, 0, 0, 0, BitVec.ofNat 16 x, BitVec.ofNat 16 y, 0, 0⟩
  | .d, [address] => some ⟨op, 0, 0, 0, 0, 0, 0, BitVec.ofNat 32 address, 0⟩
  | .de, [address, length] =>
      some ⟨op, 0, 0, 0, 0, 0, 0, BitVec.ofNat 32 address, BitVec.ofNat 32 length⟩
  | .g, [slot, base, limit, access, flags] =>
      some ⟨op, BitVec.ofNat 8 slot, BitVec.ofNat 8 access, BitVec.ofNat 4 flags, 0, 0, 0,
        BitVec.ofNat 32 base, BitVec.ofNat 32 limit⟩
  | _, _ => none

/-- The command of an opcode with the given operand values; refused when an operand does not fit its
field or their number is wrong (R63). A value that fits but is out of the command's range assembles. -/
def assembleOp (op : Byte) (operands : List Nat) : Option Instr :=
  match findRow op with
  | none => none
  | some r =>
    if operandsFit r.format.widths operands then
      (placeOperands op r.format operands).map r.build
    else none

/-- The opcode of a mnemonic (R58). -/
def opcodeOf (mnemonic : List Char) : Option Byte :=
  (opcodeMap.find? (fun r => r.mnemonic.toList == mnemonic)).map OpRow.opcode

/-- The pseudo-instructions of R64, each expanded to one command. -/
def expandPseudo (mnemonic : List Char) (operands : List Nat) : Option (Byte × List Nat) :=
  if mnemonic = "GDT_NULL".toList then
    match operands with
    | [slot] => some (0x10, [slot, 0, 0, 0, 0])
    | _ => none
  else if mnemonic = "PIC_INIT_DEFAULT".toList then
    match operands with
    | [] => some (0x20, [Config.pic1OffsetDefault.toNat, Config.pic2OffsetDefault.toNat])
    | _ => none
  else if mnemonic = "TERM_NEWLINE".toList then
    match operands with
    | [] => some (0x33, [Config.newline.toNat])
    | _ => none
  else if mnemonic = "CUR_HOME".toList then
    match operands with
    | [] => some (0x39, [0, 0])
    | _ => none
  else none

/-- A mnemonic with its operand values: a command of R58 or a pseudo-instruction of R64. -/
def assemble (mnemonic : List Char) (operands : List Nat) : Option Instr :=
  match opcodeOf mnemonic with
  | some op => assembleOp op operands
  | none =>
    match expandPseudo mnemonic operands with
    | some (op, vs) => assembleOp op vs
    | none => none

/-! ### Text (R63) -/

/-- The value of a digit in a base of at most 16. -/
def digitValue (base : Nat) (c : Char) : Option Nat :=
  let n := c.toNat
  let v :=
    if 48 ≤ n ∧ n ≤ 57 then n - 48
    else if 65 ≤ n ∧ n ≤ 70 then n - 55
    else if 97 ≤ n ∧ n ≤ 102 then n - 87
    else base
  if v < base then some v else none

/-- The digits after `acc`, most significant first. -/
def digitsValue (base : Nat) : Nat → List Char → Option Nat
  | acc, [] => some acc
  | acc, c :: cs =>
    match digitValue base c with
    | none => none
    | some d => digitsValue base (acc * base + d) cs

/-- A number: decimal, or `0x` hexadecimal (R63). -/
def parseNumber : List Char → Option Nat
  | [] => none
  | '0' :: 'x' :: c :: cs => digitsValue 16 0 (c :: cs)
  | c :: cs => digitsValue 10 0 (c :: cs)

/-- The selector symbols of R64. -/
def parseSymbol (t : List Char) : Option Nat :=
  if t = "SEL_KCODE".toList then some selKcode.toNat
  else if t = "SEL_KDATA".toList then some selKdata.toNat
  else if t = "SEL_UCODE".toList then some selUcode.toNat
  else if t = "SEL_UDATA".toList then some selUdata.toNat
  else none

/-- An operand that is a number or a symbol. -/
def parseOperand (t : List Char) : Option Nat :=
  match parseNumber t with
  | some n => some n
  | none => parseSymbol t

/-- A character operand `'c'`, for its byte value (R63). DESIGN CHOICE: that value is the character's
Unicode code point, so one above 0xFF does not fit and is refused (log 18). -/
def parseChar : List Char → Option Nat
  | ['\'', c, '\''] => some c.toNat
  | _ => none

/-- Drop leading spaces. -/
def dropSpaces : List Char → List Char
  | ' ' :: cs => dropSpaces cs
  | cs => cs

/-- Drop leading and trailing spaces. -/
def trimSpaces (t : List Char) : List Char := (dropSpaces (dropSpaces t).reverse).reverse

/-- Split at a character; there is always one part. -/
def splitAtChar (sep : Char) : List Char → List (List Char)
  | [] => [[]]
  | c :: cs =>
    match splitAtChar sep cs with
    | [] => [[c]]
    | p :: ps => if c = sep then [] :: p :: ps else (c :: p) :: ps

/-- Every operand's value, or none if one is no operand. -/
def parseOperands : List (List Char) → Option (List Nat)
  | [] => some []
  | t :: ts =>
    match parseOperand (trimSpaces t), parseOperands ts with
    | some n, some ns => some (n :: ns)
    | _, _ => none

/-- The operand part of a line: nothing, one character operand of `TERM_PUTCHAR`, or operands
separated by commas. -/
def parseRest (mnemonic rest : List Char) : Option (List Nat) :=
  if rest = [] then some []
  else
    match if mnemonic = "TERM_PUTCHAR".toList then parseChar rest else none with
    | some n => some [n]
    | none => parseOperands (splitAtChar ',' rest)

/-- One line `MNEMONIC operand, operand, ...` (R63). -/
def assembleLine (line : List Char) : Option Instr :=
  let t := trimSpaces line
  let mnemonic := t.takeWhile (fun c => c ≠ ' ')
  let rest := trimSpaces (t.dropWhile (fun c => c ≠ ' '))
  match parseRest mnemonic rest with
  | none => none
  | some ns => assemble mnemonic ns

/-- One line to its command word (R63, R56). -/
def assembleWord (line : List Char) : Option CommandWord := (assembleLine line).map encode

end Sys2Proof.Machine
end

