-- ==== Sys2Proof/Safety.lean ====
section
/-! DEFINITION. What counts as a safe run, in the terms claims use: the invariant of every state a step
reaches, the three regions, a run's normal end (R133), and the premise on interrupts (R123). -/

namespace Sys2Proof.Machine

/-- R27: the terminal's cursor is in bounds. -/
def Terminal.inBounds (t : Terminal) : Prop := t.row < Config.vgaH ∧ t.col < Config.vgaW

/-- R27 for a state: while `TERM_VALID` = 1 the cursor is in bounds. -/
def State.cursorInBounds (s : State) : Prop :=
  match s.term with
  | none => True
  | some t => t.inBounds

/-- What holds between commands: memory is canonical, `SNAP_M` and `SNAP_S` hold no value (R24), the
cursor is in bounds (R27), and `ci` has not passed the end of the stream (R18). -/
structure State.Inv (s : State) : Prop where
  memory : s.mem.wf = true
  snapM : s.snapM = none
  snapS : s.snapS = none
  cursor : s.cursorInBounds
  index : s.ci ≤ s.stream.length

/-- The address lies in the `n` bytes from `base` on, addresses modulo 2^32. -/
def inRange (base : Addr) (n : Nat) (a : Addr) : Prop := (a - base).toNat < n

/-- The table region (R31, R48). -/
def inTable (p : Config.Params) (a : Addr) : Prop := inRange p.gdtTableAddr Config.gdtBytes a

/-- The pointer region (R32, R48). -/
def inPointer (p : Config.Params) (a : Addr) : Prop := inRange p.gdtPtrAddr Config.gdtPtrBytes a

/-- The grid region (R33, R48). -/
def inGrid (a : Addr) : Prop := inRange Config.vgaBase Config.vgaBytes a

/-- A launch the spec gives a meaning to (R9), its memory in canonical form. -/
def Launch.wf (l : Launch) : Bool := l.params.wf && l.mem.wf

/-- The run has ended normally (R133). -/
def State.final (s : State) : Prop := s.fault = none ∧ s.ci = s.stream.length

/-- The premise `NO_INTERRUPT_DELIVERED` (R123). -/
def State.noInterruptDelivered (s : State) : Prop := EnvAction.interrupt ∉ s.envActions

/-- A safe state: the block has not faulted. -/
def State.safe (s : State) : Prop := s.fault = none

/-- Perform commands one after another through `exec`; none if one has no next state. -/
def performAll : List Instr → State → Option State
  | [], s => some s
  | i :: is, s =>
    match exec i s with
    | .next t => performAll is t
    | .fault _ => none
    | .refused _ => none

/-- The port accesses of a completed command (R101, R148). -/
def portAccessCount : Instr → Nat
  | .outb _ _ => 1
  | .outw _ _ => 1
  | .inb _ => 1
  | .inw _ => 1
  | .gdtAdd _ _ _ _ _ => 0
  | .gdtInitDefaults => 0
  | .gdtInit => 0
  | .picInit _ _ => 12
  | .picDisable => 4
  | .picEnable => 2
  | .picSetMask _ => 2
  | .picClearMask _ => 2
  | .picSendEoi irq => if irq.toNat < 8 then 1 else 2
  | .picGetIrr => 4
  | .picGetIsr => 4
  | .termInit => 0
  | .termSetFg _ => 0
  | .termSetBg _ => 0
  | .termPutchar _ => 0
  | .termWrite _ _ => 4
  | .termWritestring _ => 4
  | .termScroll => 0
  | .curEnable min max => if max.toNat ≤ min.toNat then 0 else 4
  | .curDisable => 2
  | .curSetpos _ _ => 4

/-- R35: a byte access to one of the four ports of the interrupt controllers. -/
def picAccess (e : PortEvent) : Prop :=
  e.data.width = .byte ∧
    (e.port = 0x0020 ∨ e.port = 0x0021 ∨ e.port = 0x00A0 ∨ e.port = 0x00A1)

/-- R35: a byte write to the CRT controller's index or data port. -/
def crtcWrite (e : PortEvent) : Prop :=
  ∃ v, e = .write 0x03D4 (.byte v) ∨ e = .write 0x03D5 (.byte v)

/-- The port events R35 allows a command: the primitives any port; the PIC commands `picAccess`;
`TERM_WRITE`, `TERM_WRITESTRING` and the cursor commands `crtcWrite`; no other command any. -/
def portAllowed (e : PortEvent) : Instr → Prop
  | .outb _ _ => True
  | .outw _ _ => True
  | .inb _ => True
  | .inw _ => True
  | .gdtAdd _ _ _ _ _ => False
  | .gdtInitDefaults => False
  | .gdtInit => False
  | .picInit _ _ => picAccess e
  | .picDisable => picAccess e
  | .picEnable => picAccess e
  | .picSetMask _ => picAccess e
  | .picClearMask _ => picAccess e
  | .picSendEoi _ => picAccess e
  | .picGetIrr => picAccess e
  | .picGetIsr => picAccess e
  | .termInit => False
  | .termSetFg _ => False
  | .termSetBg _ => False
  | .termPutchar _ => False
  | .termWrite _ _ => crtcWrite e
  | .termWritestring _ => crtcWrite e
  | .termScroll => False
  | .curEnable _ _ => crtcWrite e
  | .curDisable => crtcWrite e
  | .curSetpos _ _ => crtcWrite e

/-- The commands that write the table region (R34). -/
def writesTable : Instr → Bool
  | .gdtAdd _ _ _ _ _ => true
  | .gdtInitDefaults => true
  | .gdtInit => true
  | _ => false

/-- The commands that write the grid region (R34). -/
def writesGrid : Instr → Bool
  | .termInit => true
  | .termPutchar _ => true
  | .termWrite _ _ => true
  | .termWritestring _ => true
  | .termScroll => true
  | _ => false

/-- A state whose `FAULT` is set by a command's word, and nothing else changed (R117). -/
def State.faulted (s : State) (code : FaultCode) (i : Instr) : State :=
  { s with fault := some { code := code, ci := s.ci, word := some (encode i) } }

end Sys2Proof.Machine
end

