-- ==== Sys2Proof/Certificates/Slice0/Obligations.lean ====
section
/-! DEFINITION. The statements for the provers, from the numbered rules of spec/. Each docstring names
the rule. A next state is written as the old one with the changed fields replaced, so that every other
field, every byte of memory among them, is said to be unchanged. -/

open Sys2Proof Sys2Proof.Machine

/-! ### Decoding and the step -/

/-- R7, R18, R59: when the environment takes no step of its own and the host's word `ci` decodes to a
command, the step is that command's `exec`, on the state less the environment's oldest choice (the
choices are the model's field, log 9). -/
def Obligations.StepRunsTheFetchedCommand : Prop :=
  ∀ (s s' : State) (w : CommandWord) (i : Instr), s.fault = none → s.params.wf = true →
    s.environment = .idle s' → s.stream[s.ci]? = some w → decode w = .ok i →
    s' = { s with envActions := s.envActions.tail } ∧ step s = exec i s'

/-- R59, R117, R135: a word that decodes to no command sets `FAULT` with its code, `ci` and the word, and
changes nothing else; with no word left in the host's stream the block waits, its state unchanged (that
waiting is a step is the model's choice, log 6). -/
def Obligations.RejectedWordFaultsAndNoWordWaits : Prop :=
  ∀ s : State, s.fault = none → s.params.wf = true → s.envActions = [] →
    (∀ (w : CommandWord) (r : DecodeReject), s.stream[s.ci]? = some w → decode w = .error r →
      step s = .next { s with
        fault := some
          { code := match r with
              | .illegalOpcode => .illegalOpcode
              | .reservedField => .reservedField
            ci := s.ci
            word := some w } }) ∧
    (s.stream.length ≤ s.ci → step s = .next s)

/-- R56 to R60: decoding the word of any command gives it back, every operand at every value of its
field. -/
def Obligations.DecodeOfEncodeIsTheCommand : Prop :=
  ∀ i : Instr, decode (encode i) = .ok i

/-- R57, R59: a word that decodes is the word of the command it decodes to, so no bit of it is
dropped and each command has one word. -/
def Obligations.EncodeOfDecodeIsTheWord : Prop :=
  ∀ (w : CommandWord) (i : Instr), decode w = .ok i → encode i = w

/-- R56 to R58: the word of every command, as a number: its opcode at bit 0, each operand at its field's
place, every other bit 0. -/
def Obligations.CommandWordsLayOutTheirFields : Prop :=
  (∀ (port : Port) (value : Byte),
    (encode (.outb port value)).toNat = 0x01 + 2 ^ 8 * value.toNat + 2 ^ 32 * port.toNat) ∧
  (∀ (port : Port) (value : Word16),
    (encode (.outw port value)).toNat = 0x02 + 2 ^ 32 * port.toNat + 2 ^ 48 * value.toNat) ∧
  (∀ port : Port, (encode (.inb port)).toNat = 0x03 + 2 ^ 32 * port.toNat) ∧
  (∀ port : Port, (encode (.inw port)).toNat = 0x04 + 2 ^ 32 * port.toNat) ∧
  (∀ (slot : Byte) (base : Addr) (limit : BitVec 20) (access : Byte) (flags : BitVec 4),
    (encode (.gdtAdd slot base limit access flags)).toNat =
      0x10 + 2 ^ 8 * slot.toNat + 2 ^ 16 * access.toNat + 2 ^ 24 * flags.toNat +
        2 ^ 64 * base.toNat + 2 ^ 96 * limit.toNat) ∧
  (∀ offset1 offset2 : Byte,
    (encode (.picInit offset1 offset2)).toNat =
      0x20 + 2 ^ 8 * offset1.toNat + 2 ^ 16 * offset2.toNat) ∧
  (∀ irq : Byte, (encode (.picSetMask irq)).toNat = 0x23 + 2 ^ 8 * irq.toNat ∧
    (encode (.picClearMask irq)).toNat = 0x24 + 2 ^ 8 * irq.toNat ∧
    (encode (.picSendEoi irq)).toNat = 0x25 + 2 ^ 8 * irq.toNat) ∧
  (∀ color : Byte, (encode (.termSetFg color)).toNat = 0x31 + 2 ^ 8 * color.toNat ∧
    (encode (.termSetBg color)).toNat = 0x32 + 2 ^ 8 * color.toNat) ∧
  (∀ c : Byte, (encode (.termPutchar c)).toNat = 0x33 + 2 ^ 8 * c.toNat) ∧
  (∀ (address : Addr) (length : BitVec 32),
    (encode (.termWrite address length)).toNat =
      0x34 + 2 ^ 64 * address.toNat + 2 ^ 96 * length.toNat) ∧
  (∀ address : Addr,
    (encode (.termWritestring address)).toNat = 0x35 + 2 ^ 64 * address.toNat) ∧
  (∀ min max : Byte,
    (encode (.curEnable min max)).toNat = 0x37 + 2 ^ 8 * min.toNat + 2 ^ 16 * max.toNat) ∧
  (∀ x y : Word16,
    (encode (.curSetpos x y)).toNat = 0x39 + 2 ^ 32 * x.toNat + 2 ^ 48 * y.toNat) ∧
  [Instr.gdtInitDefaults, .gdtInit, .picDisable, .picEnable, .picGetIrr, .picGetIsr, .termInit,
    .termScroll, .curDisable].map encode =
    [0x11, 0x12, 0x21, 0x22, 0x26, 0x27, 0x30, 0x36, 0x38]

/-- R61: exactly the opcodes outside the map are illegal, the all-zero word among them; a legal opcode
with a bit set that its format reserves is rejected for that. -/
def Obligations.IllegalAndReservedEncodings : Prop :=
  (∀ w : CommandWord, decode w = .error .illegalOpcode ↔
    (w.toNat % 256 = 0x00 ∨ (0x05 ≤ w.toNat % 256 ∧ w.toNat % 256 ≤ 0x0F) ∨
      (0x13 ≤ w.toNat % 256 ∧ w.toNat % 256 ≤ 0x1F) ∨
      (0x28 ≤ w.toNat % 256 ∧ w.toNat % 256 ≤ 0x2F) ∨ 0x3A ≤ w.toNat % 256)) ∧
  decode 0 = .error .illegalOpcode ∧
  ∀ w : CommandWord, decode w = .error .reservedField ↔
    ∃ r, findRow (w.setWidth 8) = some r ∧
      w &&& r.format.mask &&& 0xFFFFFFFFFFFFFFFFFFFFFFFFFFFFFF00 ≠ 0

/-- 95_test_vectors.md E1 to E9, IO1, IO2, G2, K-9, P-1, P2, P4: words written out from the spec's
encodings and what they decode to. -/
def Obligations.SampleWordsDecode : Prop :=
  decode 0x0000000000000000000000210000FB01 = .ok (.outb 0x0021 0xFB) ∧
  decode 0x0000000000000000200A03D400000002 = .ok (.outw 0x03D4 0x200A) ∧
  decode 0x000ABCDE123456780000000005890110 = .ok (.gdtAdd 1 0x12345678 0xABCDE 0x89 0x5) ∧
  decode 0x00000000000000000000000000282020 = .ok (.picInit 0x20 0x28) ∧
  decode 0x000007D0003000000000000000000034 = .ok (.termWrite 0x00300000 2000) ∧
  decode 0x000000000000000000000000000F0E37 = .ok (.curEnable 14 15) ∧
  decode 0x00000000000000000018004F00000039 = .ok (.curSetpos 79 24) ∧
  decode 0x0000000000000000000000000000003A = .error .illegalOpcode ∧
  decode 0x00000000000000000000002110000001 = .error .reservedField ∧
  decode 0x00100000000000000000000000000110 = .error .reservedField

/-- R56: a word carried as its 16 little-endian bytes decodes as the word, and leaves the bytes after
it. -/
def Obligations.BytesCarryTheWord : Prop :=
  ∀ (w : CommandWord) (rest : List Byte),
    decodeBytes (wordBytes w ++ rest) =
      match decode w with
      | .ok i => .ok (i, rest)
      | .error r => .error (.word r)

/-- R63: the assembler gives each command from its mnemonic and its operand values, in range of the
command or not, and refuses a list of operands that are too many, too few or too wide for its
fields. -/
def Obligations.AssemblerGivesEveryCommand : Prop :=
  (∀ i : Instr, assemble (mnemonicOf i).toList i.operands = some i) ∧
  ∀ (i : Instr) (values : List Nat), operandsFit i.format.widths values = false →
    assemble (mnemonicOf i).toList values = none

/-- R64, R71: the pseudo-instructions and the selector symbols; a selector is its slot's index times 8,
so its requested level is 0 and its table indicator names the GDT. -/
def Obligations.PseudoInstructionsAndSelectors : Prop :=
  (∀ slot : Nat, slot < 256 →
    assemble "GDT_NULL".toList [slot] = some (.gdtAdd (BitVec.ofNat 8 slot) 0 0 0 0)) ∧
  assemble "PIC_INIT_DEFAULT".toList [] = some (.picInit 0x20 0x28) ∧
  assemble "TERM_NEWLINE".toList [] = some (.termPutchar 0x0A) ∧
  assemble "CUR_HOME".toList [] = some (.curSetpos 0 0) ∧
  parseOperand "SEL_KCODE".toList = some 0x08 ∧ parseOperand "SEL_KDATA".toList = some 0x10 ∧
  parseOperand "SEL_UCODE".toList = some 0x18 ∧ parseOperand "SEL_UDATA".toList = some 0x20 ∧
  selKcode = selector 1 ∧ selKdata = selector 2 ∧ selUcode = selector 3 ∧ selUdata = selector 4 ∧
  (∀ slot : Nat, slot < 6 → (selector slot).toNat = 8 * slot ∧
    selectorIndex (selector slot) = BitVec.ofNat 13 slot ∧
    selectorTable (selector slot) = false ∧ selectorRpl (selector slot) = 0)

/-! ### Port I/O primitives -/

/-- R79, R80: `OUTB` and `OUTW` make one event, of width 1 and of width 2, at any port, and change no
block register but `ci`. -/
def Obligations.PortWritesAreOneEvent : Prop :=
  (∀ (s : State) (port : Port) (value : Byte),
    exec (.outb port value) s = .next { s with
      trace := s.trace ++ [.write port (.byte value)]
      oracle := s.oracle.afterWrite port (.byte value)
      ci := s.ci + 1 }) ∧
  ∀ (s : State) (port : Port) (value : Word16),
    exec (.outw port value) s = .next { s with
      trace := s.trace ++ [.write port (.word value)]
      oracle := s.oracle.afterWrite port (.word value)
      ci := s.ci + 1 }

/-- R81: `INB` makes one byte read; `RES` gets the byte zero-extended, so its high byte is 0. -/
def Obligations.InbReadsOneByte : Prop :=
  ∀ (s : State) (port : Port), ∃ (v : Byte) (r : Word16),
    v = s.answerByte port ∧ r.extractLsb' 0 8 = v ∧ r.extractLsb' 8 8 = 0 ∧
    exec (.inb port) s = .next { s with
      trace := s.trace ++ [.read port (.byte v)]
      oracle := s.oracle.afterRead
      res := some r
      ci := s.ci + 1 }

/-- R82: `INW` makes one event of width 2 and `RES` gets the word. -/
def Obligations.InwReadsOneWord : Prop :=
  ∀ (s : State) (port : Port), ∃ v : Word16, v = s.answerWord port ∧
    exec (.inw port) s = .next { s with
      trace := s.trace ++ [.read port (.word v)]
      oracle := s.oracle.afterRead
      res := some v
      ci := s.ci + 1 }

/-- R37: any value may be returned: whatever word the environment answers is what `INW` delivers, and
its low byte is what `INB` delivers (the scripted oracle is the model's form of an answer, log 8). -/
def Obligations.AnyPortAnswerIsDelivered : Prop :=
  ∀ (s : State) (port : Port) (v : Word16) (rest : List Word16),
    s.oracle = .scripted (v :: rest) →
    exec (.inw port) s = .next { s with
      trace := s.trace ++ [.read port (.word v)]
      oracle := .scripted rest
      res := some v
      ci := s.ci + 1 } ∧
    exec (.inb port) s = .next { s with
      trace := s.trace ++ [.read port (.byte (v.setWidth 8))]
      oracle := .scripted rest
      res := some (v &&& 0x00FF)
      ci := s.ci + 1 }

/-! ### GDT unit -/

/-- R84: `GDT_ADD` with a slot below 6 stores the packed descriptor in the slot's 8 bytes, counts, and
leaves every other byte and register alone; with any other slot it faults and writes nothing. -/
def Obligations.GdtAddStoresDescriptor : Prop :=
  ∀ (s : State) (slot : Byte) (base : Addr) (limit : BitVec 20) (access : Byte) (flags : BitVec 4),
    (slot.toNat < 6 → s.mem.wf = true → ∃ m : Memory,
      exec (.gdtAdd slot base limit access flags) s = .next { s with
        mem := m
        gdtCount := s.gdtCount + 1
        ci := s.ci + 1 } ∧
      m.read (slotAddr s.params.gdtTableAddr slot) 8 =
        ({ base := base, limit := limit, access := access, flags := flags } : Descriptor).pack ∧
      ∀ a, ¬ inRange (slotAddr s.params.gdtTableAddr slot) 8 a → m.byte a = s.mem.byte a) ∧
    (6 ≤ slot.toNat →
      exec (.gdtAdd slot base limit access flags) s =
        .next (s.faulted .slotRange (.gdtAdd slot base limit access flags)))

/-- R69: unpacking a packed descriptor gives its fields, and packing an unpacked value gives the
value. -/
def Obligations.PackAndUnpackAreInverse : Prop :=
  (∀ d : Descriptor, Descriptor.unpack d.pack = d) ∧
    ∀ v : BitVec 64, (Descriptor.unpack v).pack = v

/-- R85, R86: `GDT_INIT_DEFAULTS` leaves the five descriptors of R85, counts five, and leaves every
byte outside slots 0 to 4 (slot 5 among them) and every other register alone. -/
def Obligations.GdtInitDefaultsWritesFiveSlots : Prop :=
  ∀ s : State, s.mem.wf = true → ∃ m : Memory,
    exec .gdtInitDefaults s = .next { s with
      mem := m
      gdtCount := s.gdtCount + 5
      ci := s.ci + 1 } ∧
    m.read (slotAddr s.params.gdtTableAddr 0) 8 = 0x0000000000000000#64 ∧
    m.read (slotAddr s.params.gdtTableAddr 1) 8 = 0x00CF9A000000FFFF#64 ∧
    m.read (slotAddr s.params.gdtTableAddr 2) 8 = 0x00CF92000000FFFF#64 ∧
    m.read (slotAddr s.params.gdtTableAddr 3) 8 = 0x00CFFA000000FFFF#64 ∧
    m.read (slotAddr s.params.gdtTableAddr 4) 8 = 0x00CFF2000000FFFF#64 ∧
    ∀ a, (∀ i : Byte, i.toNat < 5 → ¬ inRange (slotAddr s.params.gdtTableAddr i) 8 a) →
      m.byte a = s.mem.byte a

/-- R87, R88: `GDT_INIT` stores the pointer (limit 47, base the table's address), writes the five
descriptors, loads `GDTR` from the pointer and leaves `IF` = 1; bytes outside the pointer and slots 0
to 4 and every other register are unchanged. -/
def Obligations.GdtInitBuildsAndLoadsTheTable : Prop :=
  ∀ s : State, s.params.wf = true → s.mem.wf = true → ∃ m : Memory,
    exec .gdtInit s = .next { s with
      mem := m
      gdtCount := s.gdtCount + 5
      gdtr := { base := s.params.gdtTableAddr, limit := 47 }
      ifFlag := true
      ci := s.ci + 1 } ∧
    m.read s.params.gdtPtrAddr 2 = 47#16 ∧
    m.read (s.params.gdtPtrAddr + 2) 4 = s.params.gdtTableAddr ∧
    m.read (slotAddr s.params.gdtTableAddr 0) 8 = 0x0000000000000000#64 ∧
    m.read (slotAddr s.params.gdtTableAddr 1) 8 = 0x00CF9A000000FFFF#64 ∧
    m.read (slotAddr s.params.gdtTableAddr 2) 8 = 0x00CF92000000FFFF#64 ∧
    m.read (slotAddr s.params.gdtTableAddr 3) 8 = 0x00CFFA000000FFFF#64 ∧
    m.read (slotAddr s.params.gdtTableAddr 4) 8 = 0x00CFF2000000FFFF#64 ∧
    ∀ a, ¬ inPointer s.params a →
      (∀ i : Byte, i.toNat < 5 → ¬ inRange (slotAddr s.params.gdtTableAddr i) 8 a) →
      m.byte a = s.mem.byte a

/-- R88 (corner case): running `GDT_INIT` twice gives the state of running it once, but for `GDT_COUNT`
raised by 10 in total and one more command counted. -/
def Obligations.GdtInitTwiceChangesOnlyTheCount : Prop :=
  ∀ s : State, s.params.wf = true → s.mem.wf = true → ∃ u : State,
    exec .gdtInit s = .next u ∧
    performAll [.gdtInit, .gdtInit] s =
      some { u with gdtCount := s.gdtCount + 10, ci := s.ci + 2 }

/-! ### PIC unit -/

/-- R93: the two reads and ten writes of `PIC_INIT`, in order, the masks read written back at the end;
the shadows and `IF` keep their values and the snapshot registers hold none. -/
def Obligations.PicInitSequence : Prop :=
  ∀ (s : State) (offset1 offset2 : Byte), ∃ (m sl : Byte) (o : PortOracle),
    m = s.answerByte 0x0021 ∧ sl = (s.portReadByte 0x0021).2.answerByte 0x00A1 ∧
    exec (.picInit offset1 offset2) s = .next { s with
      trace := s.trace ++
        [.read 0x0021 (.byte m), .read 0x00A1 (.byte sl),
         .write 0x0020 (.byte 0x11), .write 0x00A0 (.byte 0x11),
         .write 0x0021 (.byte offset1), .write 0x00A1 (.byte offset2),
         .write 0x0021 (.byte 0x04), .write 0x00A1 (.byte 0x02),
         .write 0x0021 (.byte 0x01), .write 0x00A1 (.byte 0x01),
         .write 0x0021 (.byte m), .write 0x00A1 (.byte sl)]
      oracle := o
      snapM := none
      snapS := none
      ci := s.ci + 1 }

/-- R94: `PIC_DISABLE` saves the two masks it reads in the shadows and masks all 16 lines. -/
def Obligations.PicDisableSavesAndMasks : Prop :=
  ∀ s : State, ∃ (m sl : Byte) (o : PortOracle),
    m = s.answerByte 0x0021 ∧ sl = (s.portReadByte 0x0021).2.answerByte 0x00A1 ∧
    exec .picDisable s = .next { s with
      trace := s.trace ++
        [.read 0x0021 (.byte m), .read 0x00A1 (.byte sl),
         .write 0x0021 (.byte 0xFF), .write 0x00A1 (.byte 0xFF)]
      oracle := o
      shadowM := m
      shadowS := sl
      ci := s.ci + 1 }

/-- R95: `PIC_ENABLE` writes the shadows to the two mask registers, whatever they hold. -/
def Obligations.PicEnableWritesTheShadows : Prop :=
  ∀ s : State, ∃ o : PortOracle,
    exec .picEnable s = .next { s with
      trace := s.trace ++
        [.write 0x0021 (.byte s.shadowM), .write 0x00A1 (.byte s.shadowS)]
      oracle := o
      ci := s.ci + 1 }

/-- R91, R92, R96: `PIC_SET_MASK` reads the line's mask register and writes it back with the line's
bit set; the shadow of that controller follows when the switch is on; a line from 16 on faults before
any access. -/
def Obligations.PicSetMaskSetsOneBit : Prop :=
  ∀ (s : State) (irq : Byte),
    (irq.toNat < 8 → ∃ (v : Byte) (o : PortOracle), v = s.answerByte 0x0021 ∧
      exec (.picSetMask irq) s = .next { s with
        trace := s.trace ++
          [.read 0x0021 (.byte v), .write 0x0021 (.byte (v ||| 1#8 <<< irq.toNat))]
        oracle := o
        shadowM :=
          if s.params.shadowTracksSetClear then s.shadowM ||| 1#8 <<< irq.toNat else s.shadowM
        ci := s.ci + 1 }) ∧
    (8 ≤ irq.toNat → irq.toNat < 16 → ∃ (v : Byte) (o : PortOracle), v = s.answerByte 0x00A1 ∧
      exec (.picSetMask irq) s = .next { s with
        trace := s.trace ++
          [.read 0x00A1 (.byte v), .write 0x00A1 (.byte (v ||| 1#8 <<< (irq.toNat - 8)))]
        oracle := o
        shadowS :=
          if s.params.shadowTracksSetClear then s.shadowS ||| 1#8 <<< (irq.toNat - 8)
          else s.shadowS
        ci := s.ci + 1 }) ∧
    (16 ≤ irq.toNat → exec (.picSetMask irq) s = .next (s.faulted .irqRange (.picSetMask irq)))

/-- R91, R92, R97: `PIC_CLEAR_MASK`, as R96 with the bit cleared. -/
def Obligations.PicClearMaskClearsOneBit : Prop :=
  ∀ (s : State) (irq : Byte),
    (irq.toNat < 8 → ∃ (v : Byte) (o : PortOracle), v = s.answerByte 0x0021 ∧
      exec (.picClearMask irq) s = .next { s with
        trace := s.trace ++
          [.read 0x0021 (.byte v), .write 0x0021 (.byte (v &&& ~~~(1#8 <<< irq.toNat)))]
        oracle := o
        shadowM :=
          if s.params.shadowTracksSetClear then s.shadowM &&& ~~~(1#8 <<< irq.toNat)
          else s.shadowM
        ci := s.ci + 1 }) ∧
    (8 ≤ irq.toNat → irq.toNat < 16 → ∃ (v : Byte) (o : PortOracle), v = s.answerByte 0x00A1 ∧
      exec (.picClearMask irq) s = .next { s with
        trace := s.trace ++
          [.read 0x00A1 (.byte v), .write 0x00A1 (.byte (v &&& ~~~(1#8 <<< (irq.toNat - 8))))]
        oracle := o
        shadowS :=
          if s.params.shadowTracksSetClear then s.shadowS &&& ~~~(1#8 <<< (irq.toNat - 8))
          else s.shadowS
        ci := s.ci + 1 }) ∧
    (16 ≤ irq.toNat → exec (.picClearMask irq) s = .next (s.faulted .irqRange (.picClearMask irq)))

/-- R98: `PIC_SEND_EOI` writes the master alone for lines 0 to 7, the slave and then the master for
lines 8 to 15, and faults before any access from 16 on. -/
def Obligations.PicSendEoiAcknowledges : Prop :=
  ∀ (s : State) (irq : Byte),
    (irq.toNat < 8 → ∃ o : PortOracle,
      exec (.picSendEoi irq) s = .next { s with
        trace := s.trace ++ [.write 0x0020 (.byte 0x20)]
        oracle := o
        ci := s.ci + 1 }) ∧
    (8 ≤ irq.toNat → irq.toNat < 16 → ∃ o : PortOracle,
      exec (.picSendEoi irq) s = .next { s with
        trace := s.trace ++ [.write 0x00A0 (.byte 0x20), .write 0x0020 (.byte 0x20)]
        oracle := o
        ci := s.ci + 1 }) ∧
    (16 ≤ irq.toNat → exec (.picSendEoi irq) s = .next (s.faulted .irqRange (.picSendEoi irq)))

/-- R99, R100: `PIC_GET_IRR` and `PIC_GET_ISR` select the register on both controllers, read one byte
from each, and put the slave's in the high byte of `RES`. -/
def Obligations.PicStatusReads : Prop :=
  ∀ s : State,
    (∃ (m sl : Byte) (r : Word16) (o : PortOracle),
      m = ((s.portWriteByte 0x0020 0x0A).portWriteByte 0x00A0 0x0A).answerByte 0x0020 ∧
      sl = (((s.portWriteByte 0x0020 0x0A).portWriteByte 0x00A0 0x0A).portReadByte
        0x0020).2.answerByte 0x00A0 ∧
      r.extractLsb' 0 8 = m ∧ r.extractLsb' 8 8 = sl ∧
      exec .picGetIrr s = .next { s with
        trace := s.trace ++
          [.write 0x0020 (.byte 0x0A), .write 0x00A0 (.byte 0x0A),
           .read 0x0020 (.byte m), .read 0x00A0 (.byte sl)]
        oracle := o
        res := some r
        ci := s.ci + 1 }) ∧
    (∃ (m sl : Byte) (r : Word16) (o : PortOracle),
      m = ((s.portWriteByte 0x0020 0x0B).portWriteByte 0x00A0 0x0B).answerByte 0x0020 ∧
      sl = (((s.portWriteByte 0x0020 0x0B).portWriteByte 0x00A0 0x0B).portReadByte
        0x0020).2.answerByte 0x00A0 ∧
      r.extractLsb' 0 8 = m ∧ r.extractLsb' 8 8 = sl ∧
      exec .picGetIsr s = .next { s with
        trace := s.trace ++
          [.write 0x0020 (.byte 0x0B), .write 0x00A0 (.byte 0x0B),
           .read 0x0020 (.byte m), .read 0x00A0 (.byte sl)]
        oracle := o
        res := some r
        ci := s.ci + 1 })

/-- R94, R95, R101: `PIC_DISABLE` and then `PIC_ENABLE` writes exactly the two bytes that
`PIC_DISABLE` read, whatever the devices answer. -/
def Obligations.DisableThenEnableRestores : Prop :=
  ∀ s : State, ∃ (m sl : Byte) (t : State),
    performAll [.picDisable, .picEnable] s = some t ∧
    t.trace = s.trace ++
      [.read 0x0021 (.byte m), .read 0x00A1 (.byte sl),
       .write 0x0021 (.byte 0xFF), .write 0x00A1 (.byte 0xFF),
       .write 0x0021 (.byte m), .write 0x00A1 (.byte sl)]

/-- R93, R128: with the reference controllers behind the ports, in any state of theirs, `PIC_INIT`
leaves both initialised, with the masks they had and the offsets given (the field that holds an offset
is the model's, log 12). -/
def Obligations.ReferencePicInitKeepsMasks : Prop :=
  ∀ (s : State) (d : RefDevices) (offset1 offset2 : Byte), s.oracle = .reference d →
    ∃ (t : State) (d' : RefDevices), exec (.picInit offset1 offset2) s = .next t ∧
      t.oracle = .reference d' ∧
      d'.master.imr = d.master.imr ∧ d'.slave.imr = d.slave.imr ∧
      d'.master.st = .ready ∧ d'.slave.st = .ready ∧
      d'.master.vecOffset = offset1 ∧ d'.slave.vecOffset = offset2

/-- R97, R128, C6: with initialised reference controllers, `PIC_SET_MASK` and then `PIC_CLEAR_MASK` of a
line leaves its bit clear and every other bit of both mask registers as it was. -/
def Obligations.ReferenceSetThenClear : Prop :=
  ∀ (s : State) (d : RefDevices) (irq : Byte), s.oracle = .reference d → irq.toNat < 16 →
    d.master.st = .ready → d.slave.st = .ready →
    ∃ (t : State) (d' : RefDevices),
      performAll [.picSetMask irq, .picClearMask irq] s = some t ∧ t.oracle = .reference d' ∧
      ∀ b : Nat, b < 8 →
        d'.master.imr.getLsbD b = (d.master.imr.getLsbD b && !decide (irq.toNat = b)) ∧
        d'.slave.imr.getLsbD b = (d.slave.imr.getLsbD b && !decide (irq.toNat = b + 8))

/-! ### VGA unit -/

/-- R107: `TERM_INIT` puts the cursor at (0, 0) with attribute 0x07, makes every cell 0x0720, and leaves
every byte outside the grid and every other register alone. -/
def Obligations.TermInitClearsTheGrid : Prop :=
  ∀ s : State, s.mem.wf = true → ∃ m : Memory,
    exec .termInit s = .next { s with
      term := some { row := 0, col := 0, attr := 0x07 }
      mem := m
      ci := s.ci + 1 } ∧
    (∀ k : Nat, k < 2000 → m.read (cellAddrOf k) 2 = 0x0720#16) ∧
    ∀ a, ¬ inGrid a → m.byte a = s.mem.byte a

/-- R108: `TERM_SET_FG` replaces bits 3:0 of the attribute and keeps bits 7:4; a colour from 16 on
faults, and so does a terminal that is not initialised. -/
def Obligations.TermSetFgWritesTheLowNibble : Prop :=
  ∀ (s : State) (color : Byte),
    (∀ t : Terminal, s.term = some t → color.toNat < 16 → ∃ attr : Byte,
      exec (.termSetFg color) s = .next { s with
        term := some { t with attr := attr }
        ci := s.ci + 1 } ∧
      attr.extractLsb' 0 4 = color.extractLsb' 0 4 ∧
      attr.extractLsb' 4 4 = t.attr.extractLsb' 4 4) ∧
    (16 ≤ color.toNat → exec (.termSetFg color) s = .next (s.faulted .colorRange (.termSetFg color))) ∧
    (s.term = none → color.toNat < 16 →
      exec (.termSetFg color) s = .next (s.faulted .termUninit (.termSetFg color)))

/-- R109: `TERM_SET_BG` replaces bits 7:4 of the attribute (bit 7 is the blink flag) and keeps bits
3:0; it faults as R108 does. -/
def Obligations.TermSetBgWritesTheHighNibble : Prop :=
  ∀ (s : State) (color : Byte),
    (∀ t : Terminal, s.term = some t → color.toNat < 16 → ∃ attr : Byte,
      exec (.termSetBg color) s = .next { s with
        term := some { t with attr := attr }
        ci := s.ci + 1 } ∧
      attr.extractLsb' 4 4 = color.extractLsb' 0 4 ∧
      attr.extractLsb' 0 4 = t.attr.extractLsb' 0 4 ∧
      attrBlink attr = decide (8 ≤ color.toNat)) ∧
    (16 ≤ color.toNat → exec (.termSetBg color) s = .next (s.faulted .colorRange (.termSetBg color))) ∧
    (s.term = none → color.toNat < 16 →
      exec (.termSetBg color) s = .next (s.faulted .termUninit (.termSetBg color)))

/-- R105, R110: a character that is not a newline, written before the last column or in the last column
of a row above the last: its cell is written, the cursor goes one right or to the start of the next
row, and every byte outside the cell is unchanged. On a terminal that is not initialised any character
faults. -/
def Obligations.PutcharWritesItsCell : Prop :=
  (∀ (s : State) (t : Terminal) (c : Byte), s.mem.wf = true → s.term = some t → t.row < 25 →
    t.col < 80 → c ≠ 0x0A → (t.col < 79 ∨ t.row < 24) → ∃ m : Memory,
    exec (.termPutchar c) s = .next { s with
      term := some
        (if t.col < 79 then { t with col := t.col + 1 } else { t with row := t.row + 1, col := 0 })
      mem := m
      ci := s.ci + 1 } ∧
    m.read (cellAddr t.row t.col) 2 = (t.attr ++ c : BitVec 16) ∧
    ∀ a, ¬ inRange (cellAddr t.row t.col) 2 a → m.byte a = s.mem.byte a) ∧
  ∀ (s : State) (c : Byte), s.term = none →
    exec (.termPutchar c) s = .next (s.faulted .termUninit (.termPutchar c))

/-- R103 to R105, R110: a character that is not a newline, written at (24, 79): its cell is written and
one scroll runs, so row `r` holds what row `r + 1` held with that cell written, row 24 keeps its cells
with that one written, and the cursor ends at (24, 0). -/
def Obligations.PutcharAtTheLastCellScrolls : Prop :=
  ∀ (s : State) (t : Terminal) (c : Byte), s.mem.wf = true → s.term = some t → t.row = 24 →
    t.col = 79 → c ≠ 0x0A → ∃ m : Memory,
    exec (.termPutchar c) s = .next { s with
      term := some { t with row := 24, col := 0 }
      mem := m
      ci := s.ci + 1 } ∧
    (∀ row col : Nat, row < 25 → col < 80 → m.read (cellAddr row col) 2 =
      if col = 79 ∧ 23 ≤ row then (t.attr ++ c : BitVec 16)
      else s.mem.read (cellAddr (if row < 24 then row + 1 else row) col) 2) ∧
    ∀ a, ¬ inGrid a → m.byte a = s.mem.byte a

/-- R103 to R105, R110: a newline goes to the start of the next row and writes no byte; on row 24 it
scrolls once and the cursor ends at (24, 0). -/
def Obligations.NewlineAdvancesTheRow : Prop :=
  ∀ (s : State) (t : Terminal), s.mem.wf = true → s.term = some t →
    (t.row < 24 → exec (.termPutchar 0x0A) s = .next { s with
      term := some { t with row := t.row + 1, col := 0 }
      ci := s.ci + 1 }) ∧
    (t.row = 24 → ∃ m : Memory, exec (.termPutchar 0x0A) s = .next { s with
      term := some { t with row := 24, col := 0 }
      mem := m
      ci := s.ci + 1 } ∧
      (∀ row col : Nat, row < 25 → col < 80 → m.read (cellAddr row col) 2 =
        s.mem.read (cellAddr (if row < 24 then row + 1 else row) col) 2) ∧
      ∀ a, ¬ inGrid a → m.byte a = s.mem.byte a)

/-- R103, R113: `TERM_SCROLL` from a row above 0 moves rows 1 to 24 up by one, keeps row 24 and the
column, and takes one from the row; at row 0 it faults, and so does a terminal that is not
initialised. -/
def Obligations.TermScrollMovesRowsUp : Prop :=
  ∀ s : State,
    (∀ t : Terminal, s.mem.wf = true → s.term = some t → 0 < t.row → ∃ m : Memory,
      exec .termScroll s = .next { s with
        term := some { t with row := t.row - 1 }
        mem := m
        ci := s.ci + 1 } ∧
      (∀ row col : Nat, row < 25 → col < 80 → m.read (cellAddr row col) 2 =
        s.mem.read (cellAddr (if row < 24 then row + 1 else row) col) 2) ∧
      ∀ a, ¬ inGrid a → m.byte a = s.mem.byte a) ∧
    (∀ t : Terminal, s.term = some t → t.row = 0 →
      exec .termScroll s = .next (s.faulted .scrollUnderflow .termScroll)) ∧
    (s.term = none → exec .termScroll s = .next (s.faulted .termUninit .termScroll))

/-- R111: `TERM_WRITE` of a legal buffer ends in the state of putting its bytes, as they were at the
start, one `TERM_PUTCHAR` after another, and then setting the hardware cursor to the terminal's
position once; only `ci` counts one command. -/
def Obligations.TermWriteIsPutcharsThenSetpos : Prop :=
  ∀ (s : State) (t : Terminal) (address : Addr) (length : BitVec 32),
    s.mem.wf = true → s.term = some t → t.inBounds →
    (length = 0 ∨ (address.toNat + length.toNat ≤ 2 ^ 32 ∧
      (address.toNat + length.toNat ≤ 0xB8000 ∨ 0xB8FA0 ≤ address.toNat))) →
    ∃ (u v : State) (t' : Terminal),
      performAll ((List.range length.toNat).map
        (fun i => Instr.termPutchar (s.mem.byte (address + BitVec.ofNat 32 i)))) s = some u ∧
      u.term = some t' ∧
      exec (.curSetpos (BitVec.ofNat 16 t'.col) (BitVec.ofNat 16 t'.row)) { u with ci := s.ci } =
        .next v ∧
      exec (.termWrite address length) s = .next v

/-- R111: a non-empty buffer that wraps past 2^32 or meets the grid faults, whether or not the terminal
is initialised; a legal one faults when it is not. -/
def Obligations.TermWriteFaults : Prop :=
  ∀ (s : State) (address : Addr) (length : BitVec 32),
    (0 < length.toNat →
      (2 ^ 32 < address.toNat + length.toNat ∨
        (address.toNat < 0xB8FA0 ∧ 0xB8000 < address.toNat + length.toNat)) →
      exec (.termWrite address length) s =
        .next (s.faulted .bufferRange (.termWrite address length))) ∧
    (s.term = none →
      (length = 0 ∨ (address.toNat + length.toNat ≤ 2 ^ 32 ∧
        (address.toNat + length.toNat ≤ 0xB8000 ∨ 0xB8FA0 ≤ address.toNat))) →
      exec (.termWrite address length) s =
        .next (s.faulted .termUninit (.termWrite address length)))

/-- R112: a string whose `n` bytes and terminator lie below 2^32 and outside the grid is written as
`TERM_WRITE` writes its `n` bytes. -/
def Obligations.TermWritestringIsTermWrite : Prop :=
  ∀ (s : State) (t : Terminal) (address : Addr) (n : Nat), s.term = some t →
    address.toNat + n < 2 ^ 32 →
    (address.toNat + n < 0xB8000 ∨ 0xB8FA0 ≤ address.toNat) →
    s.mem.byte (address + BitVec.ofNat 32 n) = 0x00 →
    (∀ i : Nat, i < n → s.mem.byte (address + BitVec.ofNat 32 i) ≠ 0x00) →
    ∃ v : State, exec (.termWritestring address) s = .next v ∧
      exec (.termWrite address (BitVec.ofNat 32 n)) s = .next v

/-- R112: no terminator before the top of memory, or a string that with its terminator meets the grid,
faults; otherwise a terminal that is not initialised does. -/
def Obligations.TermWritestringFaults : Prop :=
  ∀ (s : State) (address : Addr),
    ((∀ i : Nat, address.toNat + i < 2 ^ 32 → s.mem.byte (address + BitVec.ofNat 32 i) ≠ 0x00) →
      exec (.termWritestring address) s =
        .next (s.faulted .bufferRange (.termWritestring address))) ∧
    ∀ n : Nat, address.toNat + n < 2 ^ 32 →
      s.mem.byte (address + BitVec.ofNat 32 n) = 0x00 →
      (∀ i : Nat, i < n → s.mem.byte (address + BitVec.ofNat 32 i) ≠ 0x00) →
      (address.toNat < 0xB8FA0 ∧ 0xB8000 ≤ address.toNat + n →
        exec (.termWritestring address) s =
          .next (s.faulted .bufferRange (.termWritestring address))) ∧
      (¬ (address.toNat < 0xB8FA0 ∧ 0xB8000 ≤ address.toNat + n) → s.term = none →
        exec (.termWritestring address) s =
          .next (s.faulted .termUninit (.termWritestring address)))

/-- R114: `CUR_ENABLE` makes no access when `max <= min`; otherwise it writes the start scanline as
given and the end scanline clamped to 15. -/
def Obligations.CurEnableClampsOrRejects : Prop :=
  ∀ (s : State) (min max : Byte),
    (max.toNat ≤ min.toNat →
      exec (.curEnable min max) s = .next { s with ci := s.ci + 1 }) ∧
    (min.toNat < max.toNat → ∃ (last : Byte) (o : PortOracle),
      last.toNat = Nat.min max.toNat 15 ∧
      exec (.curEnable min max) s = .next { s with
        trace := s.trace ++
          [.write 0x03D4 (.byte 0x0A), .write 0x03D5 (.byte min),
           .write 0x03D4 (.byte 0x0B), .write 0x03D5 (.byte last)]
        oracle := o
        ci := s.ci + 1 })

/-- R115: `CUR_DISABLE` writes the disable sentinel to the cursor start register. -/
def Obligations.CurDisableWritesTheSentinel : Prop :=
  ∀ s : State, ∃ o : PortOracle,
    exec .curDisable s = .next { s with
      trace := s.trace ++ [.write 0x03D4 (.byte 0x0A), .write 0x03D5 (.byte 0x20)]
      oracle := o
      ci := s.ci + 1 }

/-- R106, R116: `CUR_SETPOS` writes the two bytes of `(y * 80 + x) mod 2^16`, the low byte's pair first,
and keeps the logical cursor. -/
def Obligations.CurSetposWritesThePosition : Prop :=
  ∀ (s : State) (x y : Word16), ∃ (low high : Byte) (o : PortOracle),
    low.toNat + 256 * high.toNat = (y.toNat * 80 + x.toNat) % 2 ^ 16 ∧
    exec (.curSetpos x y) s = .next { s with
      trace := s.trace ++
        [.write 0x03D4 (.byte 0x0F), .write 0x03D5 (.byte low),
         .write 0x03D4 (.byte 0x0E), .write 0x03D5 (.byte high)]
      oracle := o
      ci := s.ci + 1 }

/-! ### Faults, interrupts, reset -/

/-- R28, R117: a faulted block performs no further command and no environment step; its state is
unchanged (that it steps to itself is the model's form of that, log 7). -/
def Obligations.FaultIsSticky : Prop :=
  ∀ (s : State) (f : FaultRecord), s.fault = some f → step s = .next s

/-- R18, R117, R118: every command either completes, counting one and keeping `FAULT`, or sets `FAULT`
to `(code, ci, W)` with one of codes 3 to 8 and changes nothing else. -/
def Obligations.CommandsCompleteOrFaultPrecisely : Prop :=
  ∀ (i : Instr) (s : State), ∃ t : State, exec i s = .next t ∧
    ((t.ci = s.ci + 1 ∧ t.fault = s.fault) ∨
      ∃ code : FaultCode, 3 ≤ code.number ∧ code.number ≤ 8 ∧ t = s.faulted code i)

/-- R123: when the environment delivers an interrupt between commands and `IF` = 1, the step sets
`FAULT` with no word; while `IF` = 0 that choice is the same as none, and no step at all ends in that
fault (the environment's choices stand in a field of the model, log 9). -/
def Obligations.InterruptStepNeedsIf : Prop :=
  ∀ s : State, s.fault = none → s.params.wf = true →
    (∀ rest : List EnvAction, s.envActions = .interrupt :: rest →
      (s.ifFlag = true → step s = .next { s with
        envActions := rest
        fault := some { code := .intrUnhandled, ci := s.ci, word := none } }) ∧
      (s.ifFlag = false → step s = step { s with envActions := .quiet :: rest })) ∧
    (s.ifFlag = false → ∀ (t : State) (f : FaultRecord), step s = .next t → t.fault = some f →
      f.code ≠ .intrUnhandled)

/-- R9: a launch whose regions overlap or wrap past 2^32 has no meaning: its first step is refused. -/
def Obligations.BadLaunchIsRefused : Prop :=
  ∀ (l : Launch),
    (2 ^ 32 < l.params.gdtTableAddr.toNat + 48 ∨ 2 ^ 32 < l.params.gdtPtrAddr.toNat + 6 ∨
      (l.params.gdtTableAddr.toNat < l.params.gdtPtrAddr.toNat + 6 ∧
        l.params.gdtPtrAddr.toNat < l.params.gdtTableAddr.toNat + 48) ∨
      (l.params.gdtTableAddr.toNat < 0xB8FA0 ∧ 0xB8000 < l.params.gdtTableAddr.toNat + 48) ∨
      (l.params.gdtPtrAddr.toNat < 0xB8FA0 ∧ 0xB8000 < l.params.gdtPtrAddr.toNat + 6)) →
    step (State.launch l) = .refused .launchParameters

/-- R39, R134: what reset leaves, for every value of the launch inputs; `State.reset` is one launch. -/
def Obligations.ResetLeavesTheStatedValues : Prop :=
  (∃ l : Launch, State.reset = State.launch l) ∧ ∀ l : Launch,
    (State.launch l).ci = 0 ∧ (State.launch l).fault = none ∧ (State.launch l).res = none ∧
    (State.launch l).gdtCount = 0 ∧
    (State.launch l).shadowM = l.shadowM ∧ (State.launch l).shadowS = l.shadowS ∧
    (State.launch l).snapM = none ∧ (State.launch l).snapS = none ∧
    (State.launch l).termValid = false ∧ (State.launch l).trace = [] ∧
    (State.launch l).ifFlag = l.ifFlag ∧ (State.launch l).gdtr = l.gdtr ∧
    (State.launch l).segs = l.segs ∧ (State.launch l).mem = l.mem

/-! ### The whole machine -/

/-- R24, R27: the invariant (canonical memory, no snapshot between commands, the cursor in bounds, `ci`
within the stream) is kept by every step; the canonical form is the model's, log 1. -/
def Obligations.StepKeepsTheInvariant : Prop :=
  ∀ s t : State, s.Inv → step s = .next t → t.Inv

/-- R39: reset meets the invariant, for every launch with canonical memory. -/
def Obligations.ResetMeetsTheInvariant : Prop :=
  (∀ l : Launch, l.mem.wf = true → (State.launch l).Inv) ∧ State.reset.Inv

/-- R34: no step writes a byte outside the table, pointer and grid regions. -/
def Obligations.OnlyTheThreeRegionsAreWritten : Prop :=
  ∀ s t : State, s.Inv → step s = .next t → ∀ a : Addr,
    ¬ inTable s.params a → ¬ inPointer s.params a → ¬ inGrid a → t.mem.byte a = s.mem.byte a

/-- R31, R34, R143: each region is written by its own commands alone, and slot 5 only by a `GDT_ADD`
naming it. -/
def Obligations.RegionsHaveTheirOwnWriters : Prop :=
  ∀ (i : Instr) (s t : State), s.Inv → s.params.wf = true → exec i s = .next t →
    (writesTable i = false → ∀ a, inTable s.params a → t.mem.byte a = s.mem.byte a) ∧
    (i ≠ .gdtInit → ∀ a, inPointer s.params a → t.mem.byte a = s.mem.byte a) ∧
    (writesGrid i = false → ∀ a, inGrid a → t.mem.byte a = s.mem.byte a) ∧
    ((∀ base limit access flags, i ≠ .gdtAdd 5 base limit access flags) →
      ∀ a, inRange (slotAddr s.params.gdtTableAddr 5) 8 a → t.mem.byte a = s.mem.byte a)

/-- R20, R29: only `GDT_INIT` writes `IF` and `GDTR`. -/
def Obligations.OnlyGdtInitWritesIfAndGdtr : Prop :=
  ∀ (i : Instr) (s t : State), i ≠ .gdtInit → exec i s = .next t →
    t.ifFlag = s.ifFlag ∧ t.gdtr = s.gdtr

/-- R17: only `INB`, `INW`, `PIC_GET_IRR` and `PIC_GET_ISR` write `RES`, and a host read of `RES` while
it holds no value is the host's error (the fault's name is the model's, log 15). -/
def Obligations.OnlyReadersWriteRes : Prop :=
  (∀ (i : Instr) (s t : State), exec i s = .next t →
    t.res = s.res ∨ (∃ port, i = .inb port) ∨ (∃ port, i = .inw port) ∨
      i = .picGetIrr ∨ i = .picGetIsr) ∧
  ∀ s : State, (s.res = none → s.readRes = .error .resNoValue) ∧
    ∀ v, s.res = some v → s.readRes = .ok v

/-- R23: the shadows are written by `PIC_DISABLE`, and by `PIC_SET_MASK` and `PIC_CLEAR_MASK` when the
switch is on, and by nothing else. -/
def Obligations.ShadowWriters : Prop :=
  ∀ (i : Instr) (s t : State), exec i s = .next t →
    (t.shadowM = s.shadowM ∧ t.shadowS = s.shadowS) ∨ i = .picDisable ∨
      (s.params.shadowTracksSetClear = true ∧
        ∃ irq, i = .picSetMask irq ∨ i = .picClearMask irq)

/-- R25, R26: only `TERM_INIT`, `TERM_SET_FG` and `TERM_SET_BG` write the attribute; `TERM_INIT` makes
the terminal valid, and no other command changes whether it is. -/
def Obligations.AttributeWriters : Prop :=
  ∀ (i : Instr) (s t : State), exec i s = .next t →
    (i = .termInit ∨ (∃ color, i = .termSetFg color ∨ i = .termSetBg color) ∨
      t.term.map Terminal.attr = s.term.map Terminal.attr) ∧
    (i = .termInit → t.termValid = true) ∧ (i ≠ .termInit → t.termValid = s.termValid)

/-- R30, R36, R137: no step changes the processor's segment registers, the launch parameters or the
host's command stream, and none removes or reorders an event of the trace. That the stream is a fixed
list in the state is the model's choice (log 6), so its clause rests on no rule. -/
def Obligations.StepKeepsWhatTheBlockDoesNotOwn : Prop :=
  ∀ s t : State, step s = .next t →
    t.segs = s.segs ∧ t.params = s.params ∧ t.stream = s.stream ∧
      ∃ events, t.trace = s.trace ++ events

/-- R35, R101: the events a command appends are at the ports and of the widths its unit may use. -/
def Obligations.EachUnitUsesItsOwnPorts : Prop :=
  ∀ (i : Instr) (s t : State), exec i s = .next t →
    ∃ events, t.trace = s.trace ++ events ∧ ∀ e ∈ events, portAllowed e i

/-- R101, R148: a completed command makes exactly the port accesses of R148's table. -/
def Obligations.PortAccessCounts : Prop :=
  ∀ (i : Instr) (s t : State), exec i s = .next t → t.ci = s.ci + 1 →
    t.trace.length = s.trace.length + portAccessCount i

/-- R136: `TERM_INIT` and `GDT_INIT` give the same state in either order, and so do `GDT_INIT` and
`PIC_INIT`, and `TERM_INIT` and `PIC_INIT`. The oracle answers both orders alike (log 8). -/
def Obligations.InitialisationOrderDoesNotMatter : Prop :=
  ∀ (s : State) (offset1 offset2 : Byte), s.params.wf = true → s.mem.wf = true →
    (∃ t, performAll [.termInit, .gdtInit] s = some t ∧
      performAll [.gdtInit, .termInit] s = some t) ∧
    (∃ t, performAll [.gdtInit, .picInit offset1 offset2] s = some t ∧
      performAll [.picInit offset1 offset2, .gdtInit] s = some t) ∧
    (∃ t, performAll [.termInit, .picInit offset1 offset2] s = some t ∧
      performAll [.picInit offset1 offset2, .termInit] s = some t)
end

