-- ==== Sys2Proof/Laws/Bits.lean ====
section
/-! SUPPORT. Bit vectors as numbers: the value of an append, of a command word's fields and of a packed
descriptor. -/

namespace Sys2Proof

theorem toNat_append_mul {n m : Nat} (x : BitVec n) (y : BitVec m) :
    (x ++ y).toNat = x.toNat * 2 ^ m + y.toNat := by
  rw [BitVec.toNat_append, ← Nat.shiftLeft_add_eq_or_of_lt y.isLt, Nat.shiftLeft_eq]

theorem Fields.toWord_toNat (x : Fields) : x.toWord.toNat =
    x.op.toNat + 2 ^ 8 * x.a.toNat + 2 ^ 16 * x.b.toNat + 2 ^ 24 * x.f.toNat + 2 ^ 28 * x.z.toNat +
      2 ^ 32 * x.p.toNat + 2 ^ 48 * x.h.toNat + 2 ^ 64 * x.d.toNat + 2 ^ 96 * x.e.toNat := by
  have h : x.toWord.toNat =
    (x.e ++ x.d ++ x.h ++ x.p ++ x.z ++ x.f ++ x.b ++ x.a ++ x.op).toNat := rfl
  rw [h]
  simp only [toNat_append_mul]
  omega

/-- The fields of a word made of given fields are those fields (R56). -/
theorem Fields.ofWord_toWord (x : Fields) : Fields.ofWord x.toWord = x := by
  have h := Fields.toWord_toNat x
  cases x with
  | mk op a b f z p hh d e =>
    simp only at h
    have := op.isLt
    have := a.isLt
    have := b.isLt
    have := f.isLt
    have := z.isLt
    have := p.isLt
    have := hh.isLt
    have := d.isLt
    have := e.isLt
    simp only [Fields.ofWord, Fields.mk.injEq]
    refine ⟨?_, ?_, ?_, ?_, ?_, ?_, ?_, ?_, ?_⟩ <;>
      (apply BitVec.eq_of_toNat_eq
       rw [BitVec.extractLsb'_toNat, h, Nat.shiftRight_eq_div_pow]
       omega)

/-- A word is made of its fields (R56). -/
theorem Fields.toWord_ofWord (w : CommandWord) : (Fields.ofWord w).toWord = w := by
  apply BitVec.eq_of_toNat_eq
  rw [Fields.toWord_toNat]
  have := w.isLt
  simp only [Fields.ofWord, BitVec.extractLsb'_toNat, Nat.shiftRight_eq_div_pow]
  omega

namespace Machine

theorem Descriptor.pack_toNat (d : Descriptor) : d.pack.toNat =
    d.limit.toNat % 2 ^ 16 + 2 ^ 16 * (d.base.toNat % 2 ^ 16) +
      2 ^ 32 * (d.base.toNat / 2 ^ 16 % 2 ^ 8) + 2 ^ 40 * d.access.toNat +
      2 ^ 48 * (d.limit.toNat / 2 ^ 16) + 2 ^ 52 * d.flags.toNat +
      2 ^ 56 * (d.base.toNat / 2 ^ 24) := by
  have h : d.pack.toNat =
    (d.base.extractLsb' 24 8 ++ d.flags ++ d.limit.extractLsb' 16 4 ++ d.access ++
      d.base.extractLsb' 16 8 ++ d.base.extractLsb' 0 16 ++ d.limit.extractLsb' 0 16).toNat := rfl
  rw [h]
  simp only [toNat_append_mul, BitVec.extractLsb'_toNat, Nat.shiftRight_eq_div_pow]
  have := d.base.isLt
  have := d.limit.isLt
  omega

end Machine

end Sys2Proof
end

