-- ==== Sys2Proof/Laws/State.lean ====
section
/-! SUPPORT. One lemma per field per update of the state, so that no proof unfolds a record update. -/

namespace Sys2Proof.Machine

@[simp] theorem State.portWriteByte_eq (s : State) (p : Port) (v : Byte) :
    s.portWriteByte p v = s.portWrite p (.byte v) := rfl
@[simp] theorem State.portWriteWord_eq (s : State) (p : Port) (v : Word16) :
    s.portWriteWord p v = s.portWrite p (.word v) := rfl
@[simp] theorem State.portReadByte_fst (s : State) (p : Port) :
    (s.portReadByte p).1 = s.answerByte p := rfl
@[simp] theorem State.portReadByte_snd (s : State) (p : Port) :
    (s.portReadByte p).2 = s.portReadEvent p (.byte (s.answerByte p)) := rfl
@[simp] theorem State.portReadWord_fst (s : State) (p : Port) :
    (s.portReadWord p).1 = s.answerWord p := rfl
@[simp] theorem State.portReadWord_snd (s : State) (p : Port) :
    (s.portReadWord p).2 = s.portReadEvent p (.word (s.answerWord p)) := rfl

/-! ### memWrite -/

@[simp] theorem State.memWrite_params (s : State) (a : Addr) (n : Nat) (v : BitVec (8 * n)) :
    (s.memWrite a n v).params = s.params := rfl
@[simp] theorem State.memWrite_stream (s : State) (a : Addr) (n : Nat) (v : BitVec (8 * n)) :
    (s.memWrite a n v).stream = s.stream := rfl
@[simp] theorem State.memWrite_ci (s : State) (a : Addr) (n : Nat) (v : BitVec (8 * n)) :
    (s.memWrite a n v).ci = s.ci := rfl
@[simp] theorem State.memWrite_fault (s : State) (a : Addr) (n : Nat) (v : BitVec (8 * n)) :
    (s.memWrite a n v).fault = s.fault := rfl
@[simp] theorem State.memWrite_res (s : State) (a : Addr) (n : Nat) (v : BitVec (8 * n)) :
    (s.memWrite a n v).res = s.res := rfl
@[simp] theorem State.memWrite_gdtCount (s : State) (a : Addr) (n : Nat) (v : BitVec (8 * n)) :
    (s.memWrite a n v).gdtCount = s.gdtCount := rfl
@[simp] theorem State.memWrite_shadowM (s : State) (a : Addr) (n : Nat) (v : BitVec (8 * n)) :
    (s.memWrite a n v).shadowM = s.shadowM := rfl
@[simp] theorem State.memWrite_shadowS (s : State) (a : Addr) (n : Nat) (v : BitVec (8 * n)) :
    (s.memWrite a n v).shadowS = s.shadowS := rfl
@[simp] theorem State.memWrite_snapM (s : State) (a : Addr) (n : Nat) (v : BitVec (8 * n)) :
    (s.memWrite a n v).snapM = s.snapM := rfl
@[simp] theorem State.memWrite_snapS (s : State) (a : Addr) (n : Nat) (v : BitVec (8 * n)) :
    (s.memWrite a n v).snapS = s.snapS := rfl
@[simp] theorem State.memWrite_term (s : State) (a : Addr) (n : Nat) (v : BitVec (8 * n)) :
    (s.memWrite a n v).term = s.term := rfl
@[simp] theorem State.memWrite_ifFlag (s : State) (a : Addr) (n : Nat) (v : BitVec (8 * n)) :
    (s.memWrite a n v).ifFlag = s.ifFlag := rfl
@[simp] theorem State.memWrite_gdtr (s : State) (a : Addr) (n : Nat) (v : BitVec (8 * n)) :
    (s.memWrite a n v).gdtr = s.gdtr := rfl
@[simp] theorem State.memWrite_segs (s : State) (a : Addr) (n : Nat) (v : BitVec (8 * n)) :
    (s.memWrite a n v).segs = s.segs := rfl
@[simp] theorem State.memWrite_mem (s : State) (a : Addr) (n : Nat) (v : BitVec (8 * n)) :
    (s.memWrite a n v).mem = s.mem.write a n v := rfl
@[simp] theorem State.memWrite_trace (s : State) (a : Addr) (n : Nat) (v : BitVec (8 * n)) :
    (s.memWrite a n v).trace = s.trace := rfl
@[simp] theorem State.memWrite_oracle (s : State) (a : Addr) (n : Nat) (v : BitVec (8 * n)) :
    (s.memWrite a n v).oracle = s.oracle := rfl
@[simp] theorem State.memWrite_envActions (s : State) (a : Addr) (n : Nat) (v : BitVec (8 * n)) :
    (s.memWrite a n v).envActions = s.envActions := rfl

/-! ### portWrite -/

@[simp] theorem State.portWrite_params (s : State) (p : Port) (v : PortData) :
    (s.portWrite p v).params = s.params := rfl
@[simp] theorem State.portWrite_stream (s : State) (p : Port) (v : PortData) :
    (s.portWrite p v).stream = s.stream := rfl
@[simp] theorem State.portWrite_ci (s : State) (p : Port) (v : PortData) :
    (s.portWrite p v).ci = s.ci := rfl
@[simp] theorem State.portWrite_fault (s : State) (p : Port) (v : PortData) :
    (s.portWrite p v).fault = s.fault := rfl
@[simp] theorem State.portWrite_res (s : State) (p : Port) (v : PortData) :
    (s.portWrite p v).res = s.res := rfl
@[simp] theorem State.portWrite_gdtCount (s : State) (p : Port) (v : PortData) :
    (s.portWrite p v).gdtCount = s.gdtCount := rfl
@[simp] theorem State.portWrite_shadowM (s : State) (p : Port) (v : PortData) :
    (s.portWrite p v).shadowM = s.shadowM := rfl
@[simp] theorem State.portWrite_shadowS (s : State) (p : Port) (v : PortData) :
    (s.portWrite p v).shadowS = s.shadowS := rfl
@[simp] theorem State.portWrite_snapM (s : State) (p : Port) (v : PortData) :
    (s.portWrite p v).snapM = s.snapM := rfl
@[simp] theorem State.portWrite_snapS (s : State) (p : Port) (v : PortData) :
    (s.portWrite p v).snapS = s.snapS := rfl
@[simp] theorem State.portWrite_term (s : State) (p : Port) (v : PortData) :
    (s.portWrite p v).term = s.term := rfl
@[simp] theorem State.portWrite_ifFlag (s : State) (p : Port) (v : PortData) :
    (s.portWrite p v).ifFlag = s.ifFlag := rfl
@[simp] theorem State.portWrite_gdtr (s : State) (p : Port) (v : PortData) :
    (s.portWrite p v).gdtr = s.gdtr := rfl
@[simp] theorem State.portWrite_segs (s : State) (p : Port) (v : PortData) :
    (s.portWrite p v).segs = s.segs := rfl
@[simp] theorem State.portWrite_mem (s : State) (p : Port) (v : PortData) :
    (s.portWrite p v).mem = s.mem := rfl
@[simp] theorem State.portWrite_trace (s : State) (p : Port) (v : PortData) :
    (s.portWrite p v).trace = s.trace ++ [.write p v] := rfl
@[simp] theorem State.portWrite_oracle (s : State) (p : Port) (v : PortData) :
    (s.portWrite p v).oracle = s.oracle.afterWrite p v := rfl
@[simp] theorem State.portWrite_envActions (s : State) (p : Port) (v : PortData) :
    (s.portWrite p v).envActions = s.envActions := rfl

/-! ### portReadEvent -/

@[simp] theorem State.portReadEvent_params (s : State) (p : Port) (v : PortData) :
    (s.portReadEvent p v).params = s.params := rfl
@[simp] theorem State.portReadEvent_stream (s : State) (p : Port) (v : PortData) :
    (s.portReadEvent p v).stream = s.stream := rfl
@[simp] theorem State.portReadEvent_ci (s : State) (p : Port) (v : PortData) :
    (s.portReadEvent p v).ci = s.ci := rfl
@[simp] theorem State.portReadEvent_fault (s : State) (p : Port) (v : PortData) :
    (s.portReadEvent p v).fault = s.fault := rfl
@[simp] theorem State.portReadEvent_res (s : State) (p : Port) (v : PortData) :
    (s.portReadEvent p v).res = s.res := rfl
@[simp] theorem State.portReadEvent_gdtCount (s : State) (p : Port) (v : PortData) :
    (s.portReadEvent p v).gdtCount = s.gdtCount := rfl
@[simp] theorem State.portReadEvent_shadowM (s : State) (p : Port) (v : PortData) :
    (s.portReadEvent p v).shadowM = s.shadowM := rfl
@[simp] theorem State.portReadEvent_shadowS (s : State) (p : Port) (v : PortData) :
    (s.portReadEvent p v).shadowS = s.shadowS := rfl
@[simp] theorem State.portReadEvent_snapM (s : State) (p : Port) (v : PortData) :
    (s.portReadEvent p v).snapM = s.snapM := rfl
@[simp] theorem State.portReadEvent_snapS (s : State) (p : Port) (v : PortData) :
    (s.portReadEvent p v).snapS = s.snapS := rfl
@[simp] theorem State.portReadEvent_term (s : State) (p : Port) (v : PortData) :
    (s.portReadEvent p v).term = s.term := rfl
@[simp] theorem State.portReadEvent_ifFlag (s : State) (p : Port) (v : PortData) :
    (s.portReadEvent p v).ifFlag = s.ifFlag := rfl
@[simp] theorem State.portReadEvent_gdtr (s : State) (p : Port) (v : PortData) :
    (s.portReadEvent p v).gdtr = s.gdtr := rfl
@[simp] theorem State.portReadEvent_segs (s : State) (p : Port) (v : PortData) :
    (s.portReadEvent p v).segs = s.segs := rfl
@[simp] theorem State.portReadEvent_mem (s : State) (p : Port) (v : PortData) :
    (s.portReadEvent p v).mem = s.mem := rfl
@[simp] theorem State.portReadEvent_trace (s : State) (p : Port) (v : PortData) :
    (s.portReadEvent p v).trace = s.trace ++ [.read p v] := rfl
@[simp] theorem State.portReadEvent_oracle (s : State) (p : Port) (v : PortData) :
    (s.portReadEvent p v).oracle = s.oracle.afterRead := rfl
@[simp] theorem State.portReadEvent_envActions (s : State) (p : Port) (v : PortData) :
    (s.portReadEvent p v).envActions = s.envActions := rfl

/-! ### setRes -/

@[simp] theorem State.setRes_params (s : State) (v : Word16) :
    (s.setRes v).params = s.params := rfl
@[simp] theorem State.setRes_stream (s : State) (v : Word16) :
    (s.setRes v).stream = s.stream := rfl
@[simp] theorem State.setRes_ci (s : State) (v : Word16) :
    (s.setRes v).ci = s.ci := rfl
@[simp] theorem State.setRes_fault (s : State) (v : Word16) :
    (s.setRes v).fault = s.fault := rfl
@[simp] theorem State.setRes_res (s : State) (v : Word16) :
    (s.setRes v).res = some v := rfl
@[simp] theorem State.setRes_gdtCount (s : State) (v : Word16) :
    (s.setRes v).gdtCount = s.gdtCount := rfl
@[simp] theorem State.setRes_shadowM (s : State) (v : Word16) :
    (s.setRes v).shadowM = s.shadowM := rfl
@[simp] theorem State.setRes_shadowS (s : State) (v : Word16) :
    (s.setRes v).shadowS = s.shadowS := rfl
@[simp] theorem State.setRes_snapM (s : State) (v : Word16) :
    (s.setRes v).snapM = s.snapM := rfl
@[simp] theorem State.setRes_snapS (s : State) (v : Word16) :
    (s.setRes v).snapS = s.snapS := rfl
@[simp] theorem State.setRes_term (s : State) (v : Word16) :
    (s.setRes v).term = s.term := rfl
@[simp] theorem State.setRes_ifFlag (s : State) (v : Word16) :
    (s.setRes v).ifFlag = s.ifFlag := rfl
@[simp] theorem State.setRes_gdtr (s : State) (v : Word16) :
    (s.setRes v).gdtr = s.gdtr := rfl
@[simp] theorem State.setRes_segs (s : State) (v : Word16) :
    (s.setRes v).segs = s.segs := rfl
@[simp] theorem State.setRes_mem (s : State) (v : Word16) :
    (s.setRes v).mem = s.mem := rfl
@[simp] theorem State.setRes_trace (s : State) (v : Word16) :
    (s.setRes v).trace = s.trace := rfl
@[simp] theorem State.setRes_oracle (s : State) (v : Word16) :
    (s.setRes v).oracle = s.oracle := rfl
@[simp] theorem State.setRes_envActions (s : State) (v : Word16) :
    (s.setRes v).envActions = s.envActions := rfl

/-! ### setShadowM -/

@[simp] theorem State.setShadowM_params (s : State) (v : Byte) :
    (s.setShadowM v).params = s.params := rfl
@[simp] theorem State.setShadowM_stream (s : State) (v : Byte) :
    (s.setShadowM v).stream = s.stream := rfl
@[simp] theorem State.setShadowM_ci (s : State) (v : Byte) :
    (s.setShadowM v).ci = s.ci := rfl
@[simp] theorem State.setShadowM_fault (s : State) (v : Byte) :
    (s.setShadowM v).fault = s.fault := rfl
@[simp] theorem State.setShadowM_res (s : State) (v : Byte) :
    (s.setShadowM v).res = s.res := rfl
@[simp] theorem State.setShadowM_gdtCount (s : State) (v : Byte) :
    (s.setShadowM v).gdtCount = s.gdtCount := rfl
@[simp] theorem State.setShadowM_shadowM (s : State) (v : Byte) :
    (s.setShadowM v).shadowM = v := rfl
@[simp] theorem State.setShadowM_shadowS (s : State) (v : Byte) :
    (s.setShadowM v).shadowS = s.shadowS := rfl
@[simp] theorem State.setShadowM_snapM (s : State) (v : Byte) :
    (s.setShadowM v).snapM = s.snapM := rfl
@[simp] theorem State.setShadowM_snapS (s : State) (v : Byte) :
    (s.setShadowM v).snapS = s.snapS := rfl
@[simp] theorem State.setShadowM_term (s : State) (v : Byte) :
    (s.setShadowM v).term = s.term := rfl
@[simp] theorem State.setShadowM_ifFlag (s : State) (v : Byte) :
    (s.setShadowM v).ifFlag = s.ifFlag := rfl
@[simp] theorem State.setShadowM_gdtr (s : State) (v : Byte) :
    (s.setShadowM v).gdtr = s.gdtr := rfl
@[simp] theorem State.setShadowM_segs (s : State) (v : Byte) :
    (s.setShadowM v).segs = s.segs := rfl
@[simp] theorem State.setShadowM_mem (s : State) (v : Byte) :
    (s.setShadowM v).mem = s.mem := rfl
@[simp] theorem State.setShadowM_trace (s : State) (v : Byte) :
    (s.setShadowM v).trace = s.trace := rfl
@[simp] theorem State.setShadowM_oracle (s : State) (v : Byte) :
    (s.setShadowM v).oracle = s.oracle := rfl
@[simp] theorem State.setShadowM_envActions (s : State) (v : Byte) :
    (s.setShadowM v).envActions = s.envActions := rfl

/-! ### setShadowS -/

@[simp] theorem State.setShadowS_params (s : State) (v : Byte) :
    (s.setShadowS v).params = s.params := rfl
@[simp] theorem State.setShadowS_stream (s : State) (v : Byte) :
    (s.setShadowS v).stream = s.stream := rfl
@[simp] theorem State.setShadowS_ci (s : State) (v : Byte) :
    (s.setShadowS v).ci = s.ci := rfl
@[simp] theorem State.setShadowS_fault (s : State) (v : Byte) :
    (s.setShadowS v).fault = s.fault := rfl
@[simp] theorem State.setShadowS_res (s : State) (v : Byte) :
    (s.setShadowS v).res = s.res := rfl
@[simp] theorem State.setShadowS_gdtCount (s : State) (v : Byte) :
    (s.setShadowS v).gdtCount = s.gdtCount := rfl
@[simp] theorem State.setShadowS_shadowM (s : State) (v : Byte) :
    (s.setShadowS v).shadowM = s.shadowM := rfl
@[simp] theorem State.setShadowS_shadowS (s : State) (v : Byte) :
    (s.setShadowS v).shadowS = v := rfl
@[simp] theorem State.setShadowS_snapM (s : State) (v : Byte) :
    (s.setShadowS v).snapM = s.snapM := rfl
@[simp] theorem State.setShadowS_snapS (s : State) (v : Byte) :
    (s.setShadowS v).snapS = s.snapS := rfl
@[simp] theorem State.setShadowS_term (s : State) (v : Byte) :
    (s.setShadowS v).term = s.term := rfl
@[simp] theorem State.setShadowS_ifFlag (s : State) (v : Byte) :
    (s.setShadowS v).ifFlag = s.ifFlag := rfl
@[simp] theorem State.setShadowS_gdtr (s : State) (v : Byte) :
    (s.setShadowS v).gdtr = s.gdtr := rfl
@[simp] theorem State.setShadowS_segs (s : State) (v : Byte) :
    (s.setShadowS v).segs = s.segs := rfl
@[simp] theorem State.setShadowS_mem (s : State) (v : Byte) :
    (s.setShadowS v).mem = s.mem := rfl
@[simp] theorem State.setShadowS_trace (s : State) (v : Byte) :
    (s.setShadowS v).trace = s.trace := rfl
@[simp] theorem State.setShadowS_oracle (s : State) (v : Byte) :
    (s.setShadowS v).oracle = s.oracle := rfl
@[simp] theorem State.setShadowS_envActions (s : State) (v : Byte) :
    (s.setShadowS v).envActions = s.envActions := rfl

/-! ### setSnap -/

@[simp] theorem State.setSnap_params (s : State) (x y : Option Byte) :
    (s.setSnap x y).params = s.params := rfl
@[simp] theorem State.setSnap_stream (s : State) (x y : Option Byte) :
    (s.setSnap x y).stream = s.stream := rfl
@[simp] theorem State.setSnap_ci (s : State) (x y : Option Byte) :
    (s.setSnap x y).ci = s.ci := rfl
@[simp] theorem State.setSnap_fault (s : State) (x y : Option Byte) :
    (s.setSnap x y).fault = s.fault := rfl
@[simp] theorem State.setSnap_res (s : State) (x y : Option Byte) :
    (s.setSnap x y).res = s.res := rfl
@[simp] theorem State.setSnap_gdtCount (s : State) (x y : Option Byte) :
    (s.setSnap x y).gdtCount = s.gdtCount := rfl
@[simp] theorem State.setSnap_shadowM (s : State) (x y : Option Byte) :
    (s.setSnap x y).shadowM = s.shadowM := rfl
@[simp] theorem State.setSnap_shadowS (s : State) (x y : Option Byte) :
    (s.setSnap x y).shadowS = s.shadowS := rfl
@[simp] theorem State.setSnap_snapM (s : State) (x y : Option Byte) :
    (s.setSnap x y).snapM = x := rfl
@[simp] theorem State.setSnap_snapS (s : State) (x y : Option Byte) :
    (s.setSnap x y).snapS = y := rfl
@[simp] theorem State.setSnap_term (s : State) (x y : Option Byte) :
    (s.setSnap x y).term = s.term := rfl
@[simp] theorem State.setSnap_ifFlag (s : State) (x y : Option Byte) :
    (s.setSnap x y).ifFlag = s.ifFlag := rfl
@[simp] theorem State.setSnap_gdtr (s : State) (x y : Option Byte) :
    (s.setSnap x y).gdtr = s.gdtr := rfl
@[simp] theorem State.setSnap_segs (s : State) (x y : Option Byte) :
    (s.setSnap x y).segs = s.segs := rfl
@[simp] theorem State.setSnap_mem (s : State) (x y : Option Byte) :
    (s.setSnap x y).mem = s.mem := rfl
@[simp] theorem State.setSnap_trace (s : State) (x y : Option Byte) :
    (s.setSnap x y).trace = s.trace := rfl
@[simp] theorem State.setSnap_oracle (s : State) (x y : Option Byte) :
    (s.setSnap x y).oracle = s.oracle := rfl
@[simp] theorem State.setSnap_envActions (s : State) (x y : Option Byte) :
    (s.setSnap x y).envActions = s.envActions := rfl

/-! ### setScreen -/

@[simp] theorem State.setScreen_params (s : State) (t : Terminal) (m : Memory) :
    (s.setScreen t m).params = s.params := rfl
@[simp] theorem State.setScreen_stream (s : State) (t : Terminal) (m : Memory) :
    (s.setScreen t m).stream = s.stream := rfl
@[simp] theorem State.setScreen_ci (s : State) (t : Terminal) (m : Memory) :
    (s.setScreen t m).ci = s.ci := rfl
@[simp] theorem State.setScreen_fault (s : State) (t : Terminal) (m : Memory) :
    (s.setScreen t m).fault = s.fault := rfl
@[simp] theorem State.setScreen_res (s : State) (t : Terminal) (m : Memory) :
    (s.setScreen t m).res = s.res := rfl
@[simp] theorem State.setScreen_gdtCount (s : State) (t : Terminal) (m : Memory) :
    (s.setScreen t m).gdtCount = s.gdtCount := rfl
@[simp] theorem State.setScreen_shadowM (s : State) (t : Terminal) (m : Memory) :
    (s.setScreen t m).shadowM = s.shadowM := rfl
@[simp] theorem State.setScreen_shadowS (s : State) (t : Terminal) (m : Memory) :
    (s.setScreen t m).shadowS = s.shadowS := rfl
@[simp] theorem State.setScreen_snapM (s : State) (t : Terminal) (m : Memory) :
    (s.setScreen t m).snapM = s.snapM := rfl
@[simp] theorem State.setScreen_snapS (s : State) (t : Terminal) (m : Memory) :
    (s.setScreen t m).snapS = s.snapS := rfl
@[simp] theorem State.setScreen_term (s : State) (t : Terminal) (m : Memory) :
    (s.setScreen t m).term = some t := rfl
@[simp] theorem State.setScreen_ifFlag (s : State) (t : Terminal) (m : Memory) :
    (s.setScreen t m).ifFlag = s.ifFlag := rfl
@[simp] theorem State.setScreen_gdtr (s : State) (t : Terminal) (m : Memory) :
    (s.setScreen t m).gdtr = s.gdtr := rfl
@[simp] theorem State.setScreen_segs (s : State) (t : Terminal) (m : Memory) :
    (s.setScreen t m).segs = s.segs := rfl
@[simp] theorem State.setScreen_mem (s : State) (t : Terminal) (m : Memory) :
    (s.setScreen t m).mem = m := rfl
@[simp] theorem State.setScreen_trace (s : State) (t : Terminal) (m : Memory) :
    (s.setScreen t m).trace = s.trace := rfl
@[simp] theorem State.setScreen_oracle (s : State) (t : Terminal) (m : Memory) :
    (s.setScreen t m).oracle = s.oracle := rfl
@[simp] theorem State.setScreen_envActions (s : State) (t : Terminal) (m : Memory) :
    (s.setScreen t m).envActions = s.envActions := rfl

/-! ### advance -/

@[simp] theorem State.advance_params (s : State) :
    (s.advance).params = s.params := rfl
@[simp] theorem State.advance_stream (s : State) :
    (s.advance).stream = s.stream := rfl
@[simp] theorem State.advance_ci (s : State) :
    (s.advance).ci = s.ci + 1 := rfl
@[simp] theorem State.advance_fault (s : State) :
    (s.advance).fault = s.fault := rfl
@[simp] theorem State.advance_res (s : State) :
    (s.advance).res = s.res := rfl
@[simp] theorem State.advance_gdtCount (s : State) :
    (s.advance).gdtCount = s.gdtCount := rfl
@[simp] theorem State.advance_shadowM (s : State) :
    (s.advance).shadowM = s.shadowM := rfl
@[simp] theorem State.advance_shadowS (s : State) :
    (s.advance).shadowS = s.shadowS := rfl
@[simp] theorem State.advance_snapM (s : State) :
    (s.advance).snapM = s.snapM := rfl
@[simp] theorem State.advance_snapS (s : State) :
    (s.advance).snapS = s.snapS := rfl
@[simp] theorem State.advance_term (s : State) :
    (s.advance).term = s.term := rfl
@[simp] theorem State.advance_ifFlag (s : State) :
    (s.advance).ifFlag = s.ifFlag := rfl
@[simp] theorem State.advance_gdtr (s : State) :
    (s.advance).gdtr = s.gdtr := rfl
@[simp] theorem State.advance_segs (s : State) :
    (s.advance).segs = s.segs := rfl
@[simp] theorem State.advance_mem (s : State) :
    (s.advance).mem = s.mem := rfl
@[simp] theorem State.advance_trace (s : State) :
    (s.advance).trace = s.trace := rfl
@[simp] theorem State.advance_oracle (s : State) :
    (s.advance).oracle = s.oracle := rfl
@[simp] theorem State.advance_envActions (s : State) :
    (s.advance).envActions = s.envActions := rfl

/-! ### raise -/

@[simp] theorem State.raise_params (s : State) (c : FaultCode) (w : Option CommandWord) :
    (s.raise c w).params = s.params := rfl
@[simp] theorem State.raise_stream (s : State) (c : FaultCode) (w : Option CommandWord) :
    (s.raise c w).stream = s.stream := rfl
@[simp] theorem State.raise_ci (s : State) (c : FaultCode) (w : Option CommandWord) :
    (s.raise c w).ci = s.ci := rfl
@[simp] theorem State.raise_fault (s : State) (c : FaultCode) (w : Option CommandWord) :
    (s.raise c w).fault = some ⟨c, s.ci, w⟩ := rfl
@[simp] theorem State.raise_res (s : State) (c : FaultCode) (w : Option CommandWord) :
    (s.raise c w).res = s.res := rfl
@[simp] theorem State.raise_gdtCount (s : State) (c : FaultCode) (w : Option CommandWord) :
    (s.raise c w).gdtCount = s.gdtCount := rfl
@[simp] theorem State.raise_shadowM (s : State) (c : FaultCode) (w : Option CommandWord) :
    (s.raise c w).shadowM = s.shadowM := rfl
@[simp] theorem State.raise_shadowS (s : State) (c : FaultCode) (w : Option CommandWord) :
    (s.raise c w).shadowS = s.shadowS := rfl
@[simp] theorem State.raise_snapM (s : State) (c : FaultCode) (w : Option CommandWord) :
    (s.raise c w).snapM = s.snapM := rfl
@[simp] theorem State.raise_snapS (s : State) (c : FaultCode) (w : Option CommandWord) :
    (s.raise c w).snapS = s.snapS := rfl
@[simp] theorem State.raise_term (s : State) (c : FaultCode) (w : Option CommandWord) :
    (s.raise c w).term = s.term := rfl
@[simp] theorem State.raise_ifFlag (s : State) (c : FaultCode) (w : Option CommandWord) :
    (s.raise c w).ifFlag = s.ifFlag := rfl
@[simp] theorem State.raise_gdtr (s : State) (c : FaultCode) (w : Option CommandWord) :
    (s.raise c w).gdtr = s.gdtr := rfl
@[simp] theorem State.raise_segs (s : State) (c : FaultCode) (w : Option CommandWord) :
    (s.raise c w).segs = s.segs := rfl
@[simp] theorem State.raise_mem (s : State) (c : FaultCode) (w : Option CommandWord) :
    (s.raise c w).mem = s.mem := rfl
@[simp] theorem State.raise_trace (s : State) (c : FaultCode) (w : Option CommandWord) :
    (s.raise c w).trace = s.trace := rfl
@[simp] theorem State.raise_oracle (s : State) (c : FaultCode) (w : Option CommandWord) :
    (s.raise c w).oracle = s.oracle := rfl
@[simp] theorem State.raise_envActions (s : State) (c : FaultCode) (w : Option CommandWord) :
    (s.raise c w).envActions = s.envActions := rfl

/-! ### setIF -/

@[simp] theorem State.setIF_params (s : State) (b : Bool) :
    (s.setIF b).params = s.params := rfl
@[simp] theorem State.setIF_stream (s : State) (b : Bool) :
    (s.setIF b).stream = s.stream := rfl
@[simp] theorem State.setIF_ci (s : State) (b : Bool) :
    (s.setIF b).ci = s.ci := rfl
@[simp] theorem State.setIF_fault (s : State) (b : Bool) :
    (s.setIF b).fault = s.fault := rfl
@[simp] theorem State.setIF_res (s : State) (b : Bool) :
    (s.setIF b).res = s.res := rfl
@[simp] theorem State.setIF_gdtCount (s : State) (b : Bool) :
    (s.setIF b).gdtCount = s.gdtCount := rfl
@[simp] theorem State.setIF_shadowM (s : State) (b : Bool) :
    (s.setIF b).shadowM = s.shadowM := rfl
@[simp] theorem State.setIF_shadowS (s : State) (b : Bool) :
    (s.setIF b).shadowS = s.shadowS := rfl
@[simp] theorem State.setIF_snapM (s : State) (b : Bool) :
    (s.setIF b).snapM = s.snapM := rfl
@[simp] theorem State.setIF_snapS (s : State) (b : Bool) :
    (s.setIF b).snapS = s.snapS := rfl
@[simp] theorem State.setIF_term (s : State) (b : Bool) :
    (s.setIF b).term = s.term := rfl
@[simp] theorem State.setIF_ifFlag (s : State) (b : Bool) :
    (s.setIF b).ifFlag = b := rfl
@[simp] theorem State.setIF_gdtr (s : State) (b : Bool) :
    (s.setIF b).gdtr = s.gdtr := rfl
@[simp] theorem State.setIF_segs (s : State) (b : Bool) :
    (s.setIF b).segs = s.segs := rfl
@[simp] theorem State.setIF_mem (s : State) (b : Bool) :
    (s.setIF b).mem = s.mem := rfl
@[simp] theorem State.setIF_trace (s : State) (b : Bool) :
    (s.setIF b).trace = s.trace := rfl
@[simp] theorem State.setIF_oracle (s : State) (b : Bool) :
    (s.setIF b).oracle = s.oracle := rfl
@[simp] theorem State.setIF_envActions (s : State) (b : Bool) :
    (s.setIF b).envActions = s.envActions := rfl

/-! ### loadGdt -/

@[simp] theorem State.loadGdt_params (s : State) (a : Addr) :
    (s.loadGdt a).params = s.params := rfl
@[simp] theorem State.loadGdt_stream (s : State) (a : Addr) :
    (s.loadGdt a).stream = s.stream := rfl
@[simp] theorem State.loadGdt_ci (s : State) (a : Addr) :
    (s.loadGdt a).ci = s.ci := rfl
@[simp] theorem State.loadGdt_fault (s : State) (a : Addr) :
    (s.loadGdt a).fault = s.fault := rfl
@[simp] theorem State.loadGdt_res (s : State) (a : Addr) :
    (s.loadGdt a).res = s.res := rfl
@[simp] theorem State.loadGdt_gdtCount (s : State) (a : Addr) :
    (s.loadGdt a).gdtCount = s.gdtCount := rfl
@[simp] theorem State.loadGdt_shadowM (s : State) (a : Addr) :
    (s.loadGdt a).shadowM = s.shadowM := rfl
@[simp] theorem State.loadGdt_shadowS (s : State) (a : Addr) :
    (s.loadGdt a).shadowS = s.shadowS := rfl
@[simp] theorem State.loadGdt_snapM (s : State) (a : Addr) :
    (s.loadGdt a).snapM = s.snapM := rfl
@[simp] theorem State.loadGdt_snapS (s : State) (a : Addr) :
    (s.loadGdt a).snapS = s.snapS := rfl
@[simp] theorem State.loadGdt_term (s : State) (a : Addr) :
    (s.loadGdt a).term = s.term := rfl
@[simp] theorem State.loadGdt_ifFlag (s : State) (a : Addr) :
    (s.loadGdt a).ifFlag = s.ifFlag := rfl
@[simp] theorem State.loadGdt_gdtr (s : State) (a : Addr) :
    (s.loadGdt a).gdtr = ⟨s.mem.read (a + 2) 4, s.mem.read a 2⟩ := rfl
@[simp] theorem State.loadGdt_segs (s : State) (a : Addr) :
    (s.loadGdt a).segs = s.segs := rfl
@[simp] theorem State.loadGdt_mem (s : State) (a : Addr) :
    (s.loadGdt a).mem = s.mem := rfl
@[simp] theorem State.loadGdt_trace (s : State) (a : Addr) :
    (s.loadGdt a).trace = s.trace := rfl
@[simp] theorem State.loadGdt_oracle (s : State) (a : Addr) :
    (s.loadGdt a).oracle = s.oracle := rfl
@[simp] theorem State.loadGdt_envActions (s : State) (a : Addr) :
    (s.loadGdt a).envActions = s.envActions := rfl

end Sys2Proof.Machine
end

