-- ==== Sys2Proof/Laws/Port.lean ====
section
/-! SUPPORT. What the port sequences several commands share do: the events they append, the registers
they write, and that they change nothing else but the oracle. -/

namespace Sys2Proof.Machine

/-- A byte write: one event (R36). -/
theorem portWriteByte_record (s : State) (port : Port) (v : Byte) :
    s.portWriteByte port v = { s with
      trace := s.trace ++ [.write port (.byte v)]
      oracle := s.oracle.afterWrite port (.byte v) } := rfl

/-- A byte read: one event that carries the answer (R36, R37). -/
theorem portReadByte_record (s : State) (port : Port) :
    s.portReadByte port = (s.answerByte port, { s with
      trace := s.trace ++ [.read port (.byte (s.answerByte port))]
      oracle := s.oracle.afterRead }) := rfl

/-- An answer depends on the oracle and the trace alone (R37). -/
theorem answerByte_congr {s t : State} (ho : s.oracle = t.oracle) (ht : s.trace = t.trace)
    (port : Port) : s.answerByte port = t.answerByte port := by
  unfold State.answerByte
  rw [ho, ht]

/-- The four writes of the hardware cursor's position (R106). -/
theorem setposBody_record (x y : Word16) (s : State) : ∃ o : PortOracle,
    setposBody x y s = { s with
      trace := s.trace ++
        [.write 0x03D4 (.byte 0x0F),
         .write 0x03D5 (.byte ((y * 80#16 + x).extractLsb' 0 8)),
         .write 0x03D4 (.byte 0x0E),
         .write 0x03D5 (.byte ((y * 80#16 + x).extractLsb' 8 8))]
      oracle := o } := by
  refine ⟨(setposBody x y s).oracle, ?_⟩
  simp only [setposBody, portWriteByte_record, List.append_assoc, List.cons_append, List.nil_append]
  rfl

/-- The position of R106 is the linear offset modulo 2^16. -/
theorem position_toNat (x y : Word16) :
    (y * 80#16 + x).toNat = (y.toNat * 80 + x.toNat) % 2 ^ 16 := by
  simp only [BitVec.toNat_add, BitVec.toNat_mul, BitVec.toNat_ofNat]
  omega

/-- The eight initialisation writes of R93. -/
theorem picInitWords_record (offset1 offset2 : Byte) (s : State) : ∃ o : PortOracle,
    picInitWords offset1 offset2 s = { s with
      trace := s.trace ++
        [.write 0x0020 (.byte 0x11), .write 0x00A0 (.byte 0x11),
         .write 0x0021 (.byte offset1), .write 0x00A1 (.byte offset2),
         .write 0x0021 (.byte 0x04), .write 0x00A1 (.byte 0x02),
         .write 0x0021 (.byte 0x01), .write 0x00A1 (.byte 0x01)]
      oracle := o } := by
  refine ⟨(picInitWords offset1 offset2 s).oracle, ?_⟩
  simp only [picInitWords, portWriteByte_record, List.append_assoc, List.cons_append,
    List.nil_append]
  rfl

/-- The read-modify-write of R96 and R97 without the shadows: a read of the line's mask register and a
write of the changed value; only the shadows may differ beyond that. -/
theorem modifyMask_record (irq : Byte) (change : Byte → Byte) (s : State) :
    ∃ (m sl : Byte) (o : PortOracle), modifyMask irq change s = { s with
      trace := s.trace ++
        [.read (irqPort irq) (.byte (s.answerByte (irqPort irq))),
         .write (irqPort irq) (.byte (change (s.answerByte (irqPort irq))))]
      oracle := o
      shadowM := m
      shadowS := sl } := by
  refine ⟨(modifyMask irq change s).shadowM, (modifyMask irq change s).shadowS,
    (modifyMask irq change s).oracle, ?_⟩
  unfold modifyMask trackShadow
  simp only [portReadByte_record, portWriteByte_record, List.append_assoc, List.cons_append,
    List.nil_append]
  cases s.params.shadowTracksSetClear <;> cases onMaster irq <;> rfl

/-- A line's data port is one of the two mask ports (R91). -/
theorem irqPort_cases (irq : Byte) :
    (irq.toNat < 8 ∧ irqPort irq = 0x0021) ∨ (8 ≤ irq.toNat ∧ irqPort irq = 0x00A1) := by
  unfold irqPort onMaster
  rcases Nat.lt_or_ge irq.toNat 8 with h | h
  · exact .inl ⟨h, by rw [if_pos (decide_eq_true h)]; rfl⟩
  · exact .inr ⟨h, by rw [if_neg (by simpa using h)]; rfl⟩

/-- The four accesses of R99 and R100. -/
theorem readStatus_record (select : Byte) (s : State) : ∃ (m sl : Byte) (o : PortOracle),
    readStatus select s = { s with
      trace := s.trace ++
        [.write 0x0020 (.byte select), .write 0x00A0 (.byte select),
         .read 0x0020 (.byte m), .read 0x00A0 (.byte sl)]
      oracle := o
      res := some (sl ++ m) } := by
  refine ⟨(((s.portWriteByte 0x0020 select).portWriteByte 0x00A0 select).portReadByte 0x0020).1,
    ((((s.portWriteByte 0x0020 select).portWriteByte 0x00A0 select).portReadByte
      0x0020).2.portReadByte 0x00A0).1, (readStatus select s).oracle, ?_⟩
  simp only [readStatus, portReadByte_record, portWriteByte_record, List.append_assoc,
    List.cons_append, List.nil_append]
  rfl

/-- The loop and the cursor writes of R111 and R112. -/
theorem writeBody_record (address : Addr) (n : Nat) (t : Terminal) (s : State) :
    ∃ (x y : Word16) (o : PortOracle), writeBody address n t s = { s with
      term := some (writeLoop n address t s.mem).1
      mem := (writeLoop n address t s.mem).2
      trace := s.trace ++
        [.write 0x03D4 (.byte 0x0F),
         .write 0x03D5 (.byte ((y * 80#16 + x).extractLsb' 0 8)),
         .write 0x03D4 (.byte 0x0E),
         .write 0x03D5 (.byte ((y * 80#16 + x).extractLsb' 8 8))]
      oracle := o } := by
  obtain ⟨o, h⟩ := setposBody_record
    (BitVec.ofNat 16 (writeLoop n address t s.mem).1.col)
    (BitVec.ofNat 16 (writeLoop n address t s.mem).1.row)
    (s.setScreen (writeLoop n address t s.mem).1 (writeLoop n address t s.mem).2)
  exact ⟨_, _, o, h⟩

end Sys2Proof.Machine
end

