-- ==== Sys2Proof/Laws/Devices.lean ====
section
/-! SUPPORT. What the reference CRT controller holds after its accesses (R129), and where the hardware
cursor stands after the writes of R106 and R115 reach it. -/

namespace Sys2Proof.Machine

/-! ### One access -/

@[simp] theorem RefCrtc.writeIndex_index (x : RefCrtc) (v : Byte) : (x.writeIndex v).index = v := rfl
@[simp] theorem RefCrtc.writeIndex_reg (x : RefCrtc) (v i : Byte) :
    (x.writeIndex v).reg i = x.reg i := rfl
@[simp] theorem RefCrtc.writeData_index (x : RefCrtc) (v : Byte) :
    (x.writeData v).index = x.index := rfl

/-- `CR[CI] <- v` changes the selected register alone. -/
@[simp] theorem RefCrtc.writeData_reg (x : RefCrtc) (v i : Byte) :
    (x.writeData v).reg i = if x.index = i then v else x.reg i := by
  simp only [RefCrtc.reg, RefCrtc.writeData, Vector.getElem_set, BitVec.toNat_inj]

/-- A read of the data port returns the value last written there. -/
theorem RefCrtc.readData_writeData (x : RefCrtc) (v : Byte) : (x.writeData v).readData = v := by
  rw [RefCrtc.readData, RefCrtc.writeData_reg, RefCrtc.writeData_index, if_pos rfl]

/-- The cursor shown, from the four registers it depends on. -/
theorem RefCrtc.cursor_eq_none (x : RefCrtc) : x.cursor = none ↔ x.cursorHidden = true := by
  unfold RefCrtc.cursor
  split <;> simp [*]

/-! ### The port pair -/

@[simp] theorem RefDevices.write_crtcIndex (d : RefDevices) (v : Byte) :
    d.write 0x03D4 (.byte v) = { d with crtc := d.crtc.writeIndex v } := rfl
@[simp] theorem RefDevices.write_crtcData (d : RefDevices) (v : Byte) :
    d.write 0x03D5 (.byte v) = { d with crtc := d.crtc.writeData v } := rfl

/-- A register number and then its value on the port pair: that register gets the value, every other
keeps its own (R73, R129). -/
theorem writePair_reg (x : RefCrtc) (n v i : Byte) :
    ((x.writeIndex n).writeData v).reg i = if n = i then v else x.reg i := by
  rw [RefCrtc.writeData_reg, RefCrtc.writeIndex_index, RefCrtc.writeIndex_reg]

/-! ### The cursor after a command's writes -/

/-- After the writes of R106 the cursor's cell is the linear offset they encode, and every register
but the two of the location keeps its value. -/
theorem setposBody_reference (x y : Word16) (s : State) (d : RefDevices)
    (h : s.oracle = .reference d) :
    ∃ c : RefCrtc, (setposBody x y s).oracle = .reference { d with crtc := c } ∧
      c.cursorOffset = y * 80#16 + x ∧
      ∀ i : Byte, i ≠ 0x0E → i ≠ 0x0F → c.reg i = d.crtc.reg i := by
  refine ⟨(((d.crtc.writeIndex 0x0F).writeData ((y * 80#16 + x).extractLsb' 0 8)).writeIndex
    0x0E).writeData ((y * 80#16 + x).extractLsb' 8 8), ?_, ?_, ?_⟩
  · simp only [setposBody, portWriteByte_record, h]
    rfl
  · have hv : ∀ v : Word16, v.extractLsb' 8 8 ++ v.extractLsb' 0 8 = v := by
      intro v
      apply BitVec.eq_of_toNat_eq
      rw [toNat_append_mul]
      simp only [BitVec.extractLsb'_toNat, Nat.shiftRight_eq_div_pow]
      have := v.isLt
      omega
    simp only [RefCrtc.cursorOffset, Config.crLocationHigh, Config.crLocationLow, writePair_reg]
    exact hv _
  · intro i hi hj
    rw [writePair_reg, if_neg (Ne.symm hi), writePair_reg, if_neg (Ne.symm hj)]

/-- The sentinel of R115 hides the cursor. -/
theorem sentinel_hides (x : RefCrtc) :
    ((x.writeIndex Config.crCursorStart).writeData Config.cursorDisable).cursor = none := by
  rw [RefCrtc.cursor_eq_none, RefCrtc.cursorHidden, writePair_reg, if_pos rfl]
  decide

end Sys2Proof.Machine
end

