-- ==== Sys2Proof/Laws/Memory.lean ====
section
/-! SUPPORT. The laws of memory: a read after a write, what a write leaves alone, that every operation
keeps the canonical form, and that equal contents are equal data (R34, R40, R51). -/

namespace Sys2Proof.Machine

/-! ### Cells -/

theorem Memory.lookup_below (m : Memory) :
    ∀ {lo k : Nat}, Memory.wfFrom lo m = true → k < lo → m.lookup k = Memory.unlisted := by
  induction m with
  | nil => intro lo k _ _; rfl
  | cons c m ih =>
    obtain ⟨a, b⟩ := c
    intro lo k h hk
    simp only [Memory.wfFrom, Bool.and_eq_true, decide_eq_true_eq] at h
    have hne : a ≠ k := by omega
    simp only [Memory.lookup, if_neg hne]
    exact ih h.2 (by omega)

theorem Memory.wfFrom_mono (m : Memory) {lo lo' : Nat} (h : Memory.wfFrom lo m = true)
    (hle : lo' ≤ lo) : Memory.wfFrom lo' m = true := by
  cases m with
  | nil => rfl
  | cons c m =>
    obtain ⟨a, b⟩ := c
    simp only [Memory.wfFrom, Bool.and_eq_true, decide_eq_true_eq] at h ⊢
    exact ⟨⟨⟨by omega, h.1.1.2⟩, h.1.2⟩, h.2⟩

theorem Memory.wfFrom_consCell {lo k : Nat} {v : Byte} {m : Memory} (hk : lo ≤ k)
    (hs : k < Memory.size) (h : Memory.wfFrom (k + 1) m = true) :
    Memory.wfFrom lo (Memory.consCell k v m) = true := by
  unfold Memory.consCell
  split
  · exact Memory.wfFrom_mono m h (by omega)
  · rename_i hv
    simp [Memory.wfFrom, hk, hs, hv, h]

theorem Memory.wfFrom_update (m : Memory) (k : Nat) (v : Byte) (hs : k < Memory.size) :
    ∀ {lo : Nat}, lo ≤ k → Memory.wfFrom lo m = true → Memory.wfFrom lo (m.update k v) = true := by
  induction m with
  | nil => intro lo hk h; exact Memory.wfFrom_consCell hk hs rfl
  | cons c m ih =>
    obtain ⟨a, b⟩ := c
    intro lo hk h
    have h' := h
    simp only [Memory.wfFrom, Bool.and_eq_true, decide_eq_true_eq] at h'
    unfold Memory.update
    split
    · exact Memory.wfFrom_consCell hk hs (by
        simp only [Memory.wfFrom, Bool.and_eq_true, decide_eq_true_eq]
        exact ⟨⟨⟨by omega, h'.1.1.2⟩, h'.1.2⟩, h'.2⟩)
    · split
      · rename_i _ hka
        subst hka
        exact Memory.wfFrom_consCell hk hs h'.2
      · simp only [Memory.wfFrom, Bool.and_eq_true, decide_eq_true_eq]
        exact ⟨⟨⟨h'.1.1.1, h'.1.1.2⟩, h'.1.2⟩, ih (by omega) h'.2⟩

theorem Memory.lookup_consCell_ne {k k' : Nat} {v : Byte} {m : Memory} (h : k ≠ k') :
    (Memory.consCell k v m).lookup k' = m.lookup k' := by
  unfold Memory.consCell
  split
  · rfl
  · simp [Memory.lookup, h]

theorem Memory.lookup_consCell_same {k : Nat} {v : Byte} {m : Memory}
    (h : m.lookup k = Memory.unlisted) : (Memory.consCell k v m).lookup k = v := by
  unfold Memory.consCell
  split
  · rename_i hv; rw [h, hv]
  · simp [Memory.lookup]

/-- A write of one cell leaves every other cell alone, whatever the memory. -/
theorem Memory.lookup_update_ne (m : Memory) {k k' : Nat} (v : Byte) (h : k ≠ k') :
    (m.update k v).lookup k' = m.lookup k' := by
  induction m with
  | nil => exact Memory.lookup_consCell_ne h
  | cons c m ih =>
    obtain ⟨a, b⟩ := c
    unfold Memory.update
    split
    · exact Memory.lookup_consCell_ne h
    · split
      · rename_i _ hka
        subst hka
        rw [Memory.lookup_consCell_ne h]
        simp [Memory.lookup, h]
      · simp only [Memory.lookup, ih]

/-- A cell written reads as the value written, in canonical memory. -/
theorem Memory.lookup_update_same (m : Memory) (k : Nat) (v : Byte) :
    ∀ {lo : Nat}, Memory.wfFrom lo m = true → (m.update k v).lookup k = v := by
  induction m with
  | nil => intro lo _; exact Memory.lookup_consCell_same rfl
  | cons c m ih =>
    obtain ⟨a, b⟩ := c
    intro lo h
    have h' := h
    simp only [Memory.wfFrom, Bool.and_eq_true, decide_eq_true_eq] at h'
    unfold Memory.update
    split
    · refine Memory.lookup_consCell_same (Memory.lookup_below _ (lo := a) ?_ (by assumption))
      simp only [Memory.wfFrom, Bool.and_eq_true, decide_eq_true_eq]
      exact ⟨⟨⟨by omega, h'.1.1.2⟩, h'.1.2⟩, h'.2⟩
    · split
      · rename_i _ hka
        subst hka
        exact Memory.lookup_consCell_same (Memory.lookup_below _ h'.2 (by omega))
      · have hne : a ≠ k := by omega
        simp only [Memory.lookup, if_neg hne]
        exact ih h'.2

theorem Memory.lookup_of_size_le (m : Memory) {k : Nat} (hk : Memory.size ≤ k) :
    ∀ {lo : Nat}, Memory.wfFrom lo m = true → m.lookup k = Memory.unlisted := by
  induction m with
  | nil => intro lo _; rfl
  | cons c m ih =>
    obtain ⟨a, b⟩ := c
    intro lo h
    simp only [Memory.wfFrom, Bool.and_eq_true, decide_eq_true_eq] at h
    have hne : a ≠ k := by omega
    simp only [Memory.lookup, if_neg hne]
    exact ih h.2

/-- Two canonical memories with the same contents are the same data. -/
theorem Memory.eq_of_lookup (m m' : Memory) :
    ∀ {lo : Nat}, Memory.wfFrom lo m = true → Memory.wfFrom lo m' = true →
      (∀ k, m.lookup k = m'.lookup k) → m = m' := by
  induction m generalizing m' with
  | nil =>
    intro lo _ h' he
    cases m' with
    | nil => rfl
    | cons c m' =>
      obtain ⟨a, b⟩ := c
      simp only [Memory.wfFrom, Bool.and_eq_true, decide_eq_true_eq] at h'
      have := he a
      simp only [Memory.lookup, if_true] at this
      exact absurd this.symm h'.1.2
  | cons c m ih =>
    obtain ⟨a, b⟩ := c
    intro lo h h' he
    have hm := h
    simp only [Memory.wfFrom, Bool.and_eq_true, decide_eq_true_eq] at h
    cases m' with
    | nil =>
      have := he a
      simp only [Memory.lookup, if_true] at this
      exact absurd this h.1.2
    | cons c' m' =>
      obtain ⟨a', b'⟩ := c'
      have hm' := h'
      simp only [Memory.wfFrom, Bool.and_eq_true, decide_eq_true_eq] at h'
      have hab : a = a' := by
        rcases Nat.lt_trichotomy a a' with hlt | heq | hgt
        · have h1 := he a
          simp only [Memory.lookup, if_true, if_neg (show a' ≠ a by omega)] at h1
          rw [Memory.lookup_below m' h'.2 (by omega)] at h1
          exact absurd h1 h.1.2
        · exact heq
        · have h1 := he a'
          simp only [Memory.lookup, if_true, if_neg (show a ≠ a' by omega)] at h1
          rw [Memory.lookup_below m h.2 (by omega)] at h1
          exact absurd h1.symm h'.1.2
      subst hab
      have hb : b = b' := by simpa [Memory.lookup] using he a
      subst hb
      have : m = m' := ih m' h.2 h'.2 (fun k => by
        by_cases hk : a = k
        · subst hk
          rw [Memory.lookup_below m h.2 (by omega), Memory.lookup_below m' h'.2 (by omega)]
        · simpa [Memory.lookup, hk] using he k)
      rw [this]

/-! ### Bytes -/

theorem Memory.byte_setByte_ne (m : Memory) {a x : Addr} (v : Byte) (h : x ≠ a) :
    (m.setByte a v).byte x = m.byte x :=
  Memory.lookup_update_ne m v (fun h' => h (BitVec.eq_of_toNat_eq h'.symm))

theorem Memory.byte_setByte_same (m : Memory) (a : Addr) (v : Byte) (h : m.wf = true) :
    (m.setByte a v).byte a = v :=
  Memory.lookup_update_same m _ v h

theorem Memory.wf_setByte (m : Memory) (a : Addr) (v : Byte) (h : m.wf = true) :
    (m.setByte a v).wf = true :=
  Memory.wfFrom_update m _ v a.isLt (Nat.zero_le _) h

/-- Equal bytes at every address make equal canonical memories. -/
theorem Memory.ext_byte (m m' : Memory) (h : m.wf = true) (h' : m'.wf = true)
    (he : ∀ a : Addr, m.byte a = m'.byte a) : m = m' := by
  refine Memory.eq_of_lookup m m' h h' (fun k => ?_)
  by_cases hk : k < Memory.size
  · have := he (BitVec.ofNat 32 k)
    have hk' : k % 2 ^ 32 = k := Nat.mod_eq_of_lt hk
    simp only [Memory.byte, BitVec.toNat_ofNat, hk'] at this
    exact this
  · rw [Memory.lookup_of_size_le m (by omega) h, Memory.lookup_of_size_le m' (by omega) h']

/-! ### Wide accesses -/

theorem Memory.wf_write (n : Nat) :
    ∀ (m : Memory) (a : Addr) (v : BitVec (8 * n)), m.wf = true → (m.write a n v).wf = true := by
  induction n with
  | zero => intro m a v h; exact h
  | succ n ih => intro m a v h; exact ih _ _ _ (Memory.wf_setByte m a _ h)

/-- The address just past `i` further addresses. -/
theorem addr_succ_add (a : Addr) (i : Nat) :
    a + 1 + BitVec.ofNat 32 i = a + BitVec.ofNat 32 (i + 1) := by
  apply BitVec.eq_of_toNat_eq
  simp [BitVec.toNat_add, BitVec.toNat_ofNat]
  omega

/-- A write leaves every byte outside its `n` addresses alone, whatever the memory. -/
theorem Memory.byte_write_ne (n : Nat) :
    ∀ (m : Memory) (a : Addr) (v : BitVec (8 * n)) (x : Addr),
      (∀ i, i < n → x ≠ a + BitVec.ofNat 32 i) → (m.write a n v).byte x = m.byte x := by
  induction n with
  | zero => intro m a v x _; rfl
  | succ n ih =>
    intro m a v x h
    have h0 : x ≠ a := by simpa using h 0 (Nat.succ_pos n)
    rw [Memory.write, ih _ _ _ x (fun i hi => by rw [addr_succ_add]; exact h (i + 1) (by omega))]
    exact Memory.byte_setByte_ne m _ h0

/-- A write leaves every byte outside its range alone, whatever the memory. -/
theorem Memory.byte_write_outside (m : Memory) (a : Addr) (n : Nat) (v : BitVec (8 * n)) (x : Addr)
    (h : ¬ inRange a n x) : (m.write a n v).byte x = m.byte x := by
  refine Memory.byte_write_ne n m a v x (fun i hi hx => h ?_)
  subst hx
  unfold inRange
  have : (a + BitVec.ofNat 32 i - a).toNat ≤ i := by
    rw [BitVec.add_comm, BitVec.add_sub_cancel, BitVec.toNat_ofNat]
    exact Nat.mod_le _ _
  omega

theorem Memory.byte_write_two (m : Memory) (a : Addr) (v : BitVec 16) (x : Addr)
    (h : m.wf = true) :
    (m.write a 2 v).byte x =
      if x = a + 1 then v.extractLsb' 8 8 else if x = a then v.extractLsb' 0 8 else m.byte x := by
  have h1 : a + 1 ≠ a := by
    intro h'
    have := congrArg BitVec.toNat h'
    simp [BitVec.toNat_add] at this
    omega
  have e8 : ((v >>> 8).setWidth 8 : BitVec 8) = v.extractLsb' 8 8 := rfl
  have e0 : (v.setWidth 8 : BitVec 8) = v.extractLsb' 0 8 := by
    apply BitVec.eq_of_toNat_eq; simp
  show ((m.setByte a (v.setWidth 8)).setByte (a + 1) (((v >>> 8).setWidth 8).setWidth 8)).byte x = _
  have e8' : (((v >>> 8).setWidth 8 : BitVec 8).setWidth 8) = v.extractLsb' 8 8 := by
    rw [BitVec.setWidth_eq]; exact e8
  rw [e8', e0]
  by_cases hx : x = a + 1
  · subst hx
    rw [if_pos rfl]
    exact Memory.byte_setByte_same _ _ _ (Memory.wf_setByte m _ _ h)
  · rw [if_neg hx, Memory.byte_setByte_ne _ _ hx]
    by_cases hx' : x = a
    · subst hx'
      rw [if_pos rfl]
      exact Memory.byte_setByte_same _ _ _ h
    · rw [if_neg hx', Memory.byte_setByte_ne _ _ hx']

theorem Memory.read_two (m : Memory) (a : Addr) : m.read a 2 = m.byte (a + 1) ++ m.byte a := by
  show ((0#0 : BitVec 0) ++ m.byte (a + 1)) ++ m.byte a = _
  rw [BitVec.zero_width_append]
  rfl

/-- A read depends on its bytes alone. -/
theorem Memory.read_congr (n : Nat) :
    ∀ (m m' : Memory) (a : Addr),
      (∀ i, i < n → m.byte (a + BitVec.ofNat 32 i) = m'.byte (a + BitVec.ofNat 32 i)) →
      m.read a n = m'.read a n := by
  induction n with
  | zero => intro m m' a _; rfl
  | succ n ih =>
    intro m m' a h
    have h0 : m.byte a = m'.byte a := by simpa using h 0 (Nat.succ_pos n)
    rw [Memory.read, Memory.read, h0,
      ih m m' (a + 1) (fun i hi => by rw [addr_succ_add]; exact h (i + 1) (by omega))]

/-- A read of what was just written gives the value written, in canonical memory. -/
theorem Memory.read_write_same (n : Nat) :
    ∀ (m : Memory) (a : Addr) (v : BitVec (8 * n)), n ≤ Memory.size → m.wf = true →
      (m.write a n v).read a n = v := by
  induction n with
  | zero => intro m a v _ _; exact (BitVec.eq_nil v).symm ▸ rfl
  | succ n ih =>
    intro m a v hn h
    have hb : (m.write a (n + 1) v).byte a = v.setWidth 8 := by
      rw [Memory.write, Memory.byte_write_ne n]
      · exact Memory.byte_setByte_same m a _ h
      · intro i hi hx
        rw [addr_succ_add] at hx
        have := congrArg BitVec.toNat hx
        simp only [BitVec.toNat_add, BitVec.toNat_ofNat] at this
        have ha := a.isLt
        unfold Memory.size at hn
        omega
    have hr := ih (m.setByte a (v.setWidth 8)) (a + 1) ((v >>> 8).setWidth (8 * n)) (by omega)
      (Memory.wf_setByte m a _ h)
    rw [Memory.read, hb]
    rw [show m.write a (n + 1) v
      = (m.setByte a (v.setWidth 8)).write (a + 1) n ((v >>> 8).setWidth (8 * n)) from rfl, hr]
    apply BitVec.eq_of_getLsbD_eq
    intro i hi
    rw [BitVec.getLsbD_append]
    by_cases h8 : i < 8
    · simp [h8]
    · have h8' : i - 8 < 8 * n := by omega
      simp only [h8, if_false, BitVec.getLsbD_setWidth,
        BitVec.getLsbD_ushiftRight, h8', decide_true, Bool.true_and]
      congr 1
      omega

/-- A read apart from a write is unaffected by it. -/
theorem Memory.read_write_apart (m : Memory) (a : Addr) (n : Nat) (v : BitVec (8 * n)) (b : Addr)
    (k : Nat) (h : ∀ i, i < k → ¬ inRange a n (b + BitVec.ofNat 32 i)) :
    (m.write a n v).read b k = m.read b k :=
  Memory.read_congr k _ _ b (fun i hi => Memory.byte_write_outside m a n v _ (h i hi))

end Sys2Proof.Machine
end

