-- ==== Sys2Proof/Laws/Gdt.lean ====
section
/-! SUPPORT. What the GDT unit's bodies do: the six stores are one 8-byte store of the packed
descriptor, slots do not overlap, and the bodies touch memory, the counter and nothing else. -/

namespace Sys2Proof.Machine

/-- Dropping the low byte moves every byte down by one. -/
theorem extractLsb'_ushiftRight_eight {w n : Nat} (v : BitVec w) (k : Nat) (h : k + 8 ≤ n) :
    ((v >>> 8).setWidth n).extractLsb' k 8 = v.extractLsb' (8 + k) 8 := by
  apply BitVec.eq_of_getLsbD_eq
  intro i hi
  have hk : k + i < n := by omega
  simp [hi, hk, Nat.add_assoc]

theorem setWidth_eight {w : Nat} (v : BitVec w) : v.setWidth 8 = v.extractLsb' 0 8 := by
  apply BitVec.eq_of_toNat_eq
  simp

/-- An 8-byte write is eight byte writes, byte `i` of the value to address `a + i` (R40). -/
theorem Memory.write_eight (m : Memory) (a : Addr) (v : BitVec 64) :
    m.write a 8 v =
      (((((((m.setByte a (v.extractLsb' 0 8)).setByte (a + 1) (v.extractLsb' 8 8)).setByte (a + 2)
        (v.extractLsb' 16 8)).setByte (a + 3) (v.extractLsb' 24 8)).setByte (a + 4)
        (v.extractLsb' 32 8)).setByte (a + 5) (v.extractLsb' 40 8)).setByte (a + 6)
        (v.extractLsb' 48 8)).setByte (a + 7) (v.extractLsb' 56 8) := by
  have addr : ∀ i j : Nat, a + BitVec.ofNat 32 i + BitVec.ofNat 32 j = a + BitVec.ofNat 32 (i + j) := by
    intro i j
    apply BitVec.eq_of_toNat_eq
    simp [BitVec.toNat_add, BitVec.toNat_ofNat]
    omega
  have e1 : a + 1 + 1 = a + 2 := addr 1 1
  have e3 : a + 2 + 1 = a + 3 := addr 2 1
  have e4 : a + 3 + 1 = a + 4 := addr 3 1
  have e5 : a + 4 + 1 = a + 5 := addr 4 1
  have e6 : a + 5 + 1 = a + 6 := addr 5 1
  have e7 : a + 6 + 1 = a + 7 := addr 6 1
  simp only [Memory.write, e1, e3, e4, e5, e6, e7, setWidth_eight]
  repeat rw [extractLsb'_ushiftRight_eight _ _ (by omega)]

/-- A byte of a number given by the sizes of its digits. -/
theorem packed_byte {v l0 b0 b1 acc l1 fl b2 : Nat}
    (hv : v = l0 + 2 ^ 16 * b0 + 2 ^ 32 * b1 + 2 ^ 40 * acc + 2 ^ 48 * l1 + 2 ^ 52 * fl + 2 ^ 56 * b2)
    (h0 : l0 < 2 ^ 16) (h1 : b0 < 2 ^ 16) (h2 : b1 < 2 ^ 8) (h3 : acc < 2 ^ 8) (h4 : l1 < 2 ^ 4)
    (h5 : fl < 2 ^ 4) (h6 : b2 < 2 ^ 8) :
    v % 2 ^ 8 = l0 % 2 ^ 8 ∧ v / 2 ^ 8 % 2 ^ 8 = l0 / 2 ^ 8 ∧ v / 2 ^ 16 % 2 ^ 8 = b0 % 2 ^ 8 ∧
      v / 2 ^ 24 % 2 ^ 8 = b0 / 2 ^ 8 ∧ v / 2 ^ 32 % 2 ^ 8 = b1 ∧ v / 2 ^ 40 % 2 ^ 8 = acc ∧
      v / 2 ^ 48 % 2 ^ 8 = l1 + 2 ^ 4 * fl ∧ v / 2 ^ 56 % 2 ^ 8 = b2 := by
  subst hv
  refine ⟨?_, ?_, ?_, ?_, ?_, ?_, ?_, ?_⟩ <;> omega

/-- `pack` byte by byte (R68). -/
theorem Descriptor.pack_bytes (d : Descriptor) :
    d.pack.extractLsb' 0 8 = d.limit.extractLsb' 0 8 ∧
      d.pack.extractLsb' 8 8 = d.limit.extractLsb' 8 8 ∧
      d.pack.extractLsb' 16 8 = d.base.extractLsb' 0 8 ∧
      d.pack.extractLsb' 24 8 = d.base.extractLsb' 8 8 ∧
      d.pack.extractLsb' 32 8 = d.base.extractLsb' 16 8 ∧ d.pack.extractLsb' 40 8 = d.access ∧
      d.pack.extractLsb' 48 8 = d.flags ++ d.limit.extractLsb' 16 4 ∧
      d.pack.extractLsb' 56 8 = d.base.extractLsb' 24 8 := by
  have hb := d.base.isLt
  have hl := d.limit.isLt
  have key := packed_byte d.pack_toNat (Nat.mod_lt _ (by omega)) (Nat.mod_lt _ (by omega))
    (Nat.mod_lt _ (by omega)) d.access.isLt (by omega) d.flags.isLt (by omega)
  have hp0 : d.pack.toNat / 2 ^ 0 = d.pack.toNat := by simp
  refine ⟨?_, ?_, ?_, ?_, ?_, ?_, ?_, ?_⟩ <;> apply BitVec.eq_of_toNat_eq
  on_goal 7 => rw [toNat_append_mul]
  all_goals simp only [BitVec.extractLsb'_toNat, Nat.shiftRight_eq_div_pow, hp0, key]
  all_goals omega

/-- The six field stores of R45 leave memory as one 8-byte store of `pack` (R68, R84). -/
theorem storeDescriptor_eq_write (m : Memory) (a : Addr) (d : Descriptor) :
    storeDescriptor m a d = m.write a 8 d.pack := by
  have e3 : a + 2 + 1 = a + 3 := by
    apply BitVec.eq_of_toNat_eq
    simp [BitVec.toNat_add]
  obtain ⟨b0, b1, b2, b3, b4, b5, b6, b7⟩ := d.pack_bytes
  have x0 : (d.limit.extractLsb' 0 16).extractLsb' 0 8 = d.limit.extractLsb' 0 8 := by
    apply BitVec.eq_of_toNat_eq; simp
  have x1 : (d.limit.extractLsb' 0 16).extractLsb' 8 8 = d.limit.extractLsb' 8 8 := by
    apply BitVec.eq_of_getLsbD_eq; intro i hi; simp [hi]
  have x2 : (d.base.extractLsb' 0 16).extractLsb' 0 8 = d.base.extractLsb' 0 8 := by
    apply BitVec.eq_of_toNat_eq; simp
  have x3 : (d.base.extractLsb' 0 16).extractLsb' 8 8 = d.base.extractLsb' 8 8 := by
    apply BitVec.eq_of_getLsbD_eq; intro i hi; simp [hi]
  have s1 : ∀ (m : Memory) (a : Addr) (v : BitVec 8), m.write a 1 v = m.setByte a v := by
    intro m a v
    show m.setByte a (v.setWidth 8) = m.setByte a v
    rw [BitVec.setWidth_eq]
  have s2 : ∀ (m : Memory) (a : Addr) (v : BitVec 16),
      m.write a 2 v = (m.setByte a (v.extractLsb' 0 8)).setByte (a + 1) (v.extractLsb' 8 8) := by
    intro m a v
    simp only [Memory.write, setWidth_eight]
    repeat rw [extractLsb'_ushiftRight_eight _ _ (by omega)]
  simp only [storeDescriptor, Memory.write_eight, s1, s2, e3, x0, x1, x2, x3, b0, b1, b2, b3, b4, b5,
    b6, b7]

/-! ### Ranges -/

theorem inRange_add {base : Addr} {n i : Nat} (hi : i < n) (hn : n ≤ 2 ^ 32) :
    inRange base n (base + BitVec.ofNat 32 i) := by
  unfold inRange
  rw [BitVec.add_comm, BitVec.add_sub_cancel, BitVec.toNat_ofNat, Nat.mod_eq_of_lt (by omega)]
  exact hi

/-- The bytes of one slot lie in no other slot (R83). -/
theorem slot_bytes_apart (table : Addr) {i j : Byte} {k : Nat} (hi : i.toNat < 6) (hj : j.toNat < 6)
    (hij : i ≠ j) (hk : k < 8) :
    ¬ inRange (slotAddr table i) 8 (slotAddr table j + BitVec.ofNat 32 k) := by
  have hne : i.toNat ≠ j.toNat := fun h => hij (BitVec.eq_of_toNat_eq h)
  have ht := table.isLt
  simp only [inRange, slotAddr, Config.descSize, BitVec.toNat_sub, BitVec.toNat_add,
    BitVec.toNat_mul, BitVec.toNat_ofNat, BitVec.toNat_setWidth]
  omega

/-- The bytes of a slot lie in the table (R31, R83). -/
theorem slot_in_table (p : Config.Params) {i : Byte} {a : Addr} (hi : i.toNat < 6)
    (h : inRange (slotAddr p.gdtTableAddr i) 8 a) : inTable p a := by
  have ht := p.gdtTableAddr.isLt
  have ha := a.isLt
  simp only [inTable, inRange, slotAddr, Config.descSize, Config.gdtBytes, Config.gdtCap,
    BitVec.toNat_sub, BitVec.toNat_add, BitVec.toNat_mul, BitVec.toNat_ofNat,
    BitVec.toNat_setWidth] at h ⊢
  omega

/-- R9 as facts about the addresses. -/
theorem wf_facts {p : Config.Params} (h : p.wf = true) :
    (p.gdtTableAddr.toNat + 48 ≤ p.gdtPtrAddr.toNat ∨ p.gdtPtrAddr.toNat + 6 ≤ p.gdtTableAddr.toNat) ∧
      (p.gdtTableAddr.toNat + 48 ≤ 0xB8000 ∨ 0xB8FA0 ≤ p.gdtTableAddr.toNat) ∧
      (p.gdtPtrAddr.toNat + 6 ≤ 0xB8000 ∨ 0xB8FA0 ≤ p.gdtPtrAddr.toNat) ∧
      p.gdtTableAddr.toNat + 48 ≤ 2 ^ 32 ∧ p.gdtPtrAddr.toNat + 6 ≤ 2 ^ 32 := by
  have e1 : Config.gdtBytes = 48 := rfl
  have e2 : Config.gdtPtrBytes = 6 := rfl
  have e3 : Config.vgaBase.toNat = 0xB8000 := rfl
  have e4 : Config.vgaBytes = 4000 := rfl
  simp only [Config.Params.wf, Config.rangesDisjoint, e1, e2, e3, e4, Bool.and_eq_true,
    Bool.or_eq_true, decide_eq_true_eq] at h
  omega

/-- Under R9 the pointer region shares no byte with the table. -/
theorem pointer_apart_table {p : Config.Params} (h : p.wf = true) {a : Addr} (ha : inPointer p a) :
    ¬ inTable p a := by
  have h1 := p.gdtTableAddr.isLt
  have h2 := p.gdtPtrAddr.isLt
  have h3 := a.isLt
  have hw := wf_facts h
  simp only [inTable, inPointer, inRange, Config.gdtBytes, Config.gdtCap, Config.descSize,
    Config.gdtPtrBytes, BitVec.toNat_sub] at ha ⊢
  omega

/-! ### The bodies -/

theorem gdtAddBody_mem (slot : Byte) (d : Descriptor) (s : State) :
    (gdtAddBody slot d s).mem = s.mem.write (slotAddr s.params.gdtTableAddr slot) 8 d.pack :=
  storeDescriptor_eq_write _ _ _

/-- The table writes of `GDT_INIT_DEFAULTS`, as five 8-byte stores (R86). -/
def defaultsMem (table : Addr) (m : Memory) : Memory :=
  ((((m.write (slotAddr table 0) 8 nullDescriptor.pack).write (slotAddr table 1) 8
    kernelCode.pack).write (slotAddr table 2) 8 kernelData.pack).write (slotAddr table 3) 8
    userCode.pack).write (slotAddr table 4) 8 userData.pack

theorem gdtDefaultsBody_eq (s : State) :
    gdtDefaultsBody s =
      { s with mem := defaultsMem s.params.gdtTableAddr s.mem, gdtCount := s.gdtCount + 5 } := by
  have hc : s.gdtCount + 1 + 1 + 1 + 1 + 1 = s.gdtCount + 5 := by
    apply BitVec.eq_of_toNat_eq
    simp [BitVec.toNat_add]
  simp only [gdtDefaultsBody, gdtAddBody, storeDescriptor_eq_write, defaultsMem, hc]

theorem wf_defaultsMem (table : Addr) (m : Memory) (h : m.wf = true) :
    (defaultsMem table m).wf = true := by
  unfold defaultsMem
  exact Memory.wf_write _ _ _ _ (Memory.wf_write _ _ _ _ (Memory.wf_write _ _ _ _
    (Memory.wf_write _ _ _ _ (Memory.wf_write _ _ _ _ h))))

/-- `GDT_INIT_DEFAULTS` leaves every byte outside slots 0 to 4 alone (R86). -/
theorem defaultsMem_outside (table : Addr) (m : Memory) (a : Addr)
    (h : ∀ i : Byte, i.toNat < 5 → ¬ inRange (slotAddr table i) 8 a) :
    (defaultsMem table m).byte a = m.byte a := by
  unfold defaultsMem
  rw [Memory.byte_write_outside _ _ _ _ _ (h 4 (by decide)),
    Memory.byte_write_outside _ _ _ _ _ (h 3 (by decide)),
    Memory.byte_write_outside _ _ _ _ _ (h 2 (by decide)),
    Memory.byte_write_outside _ _ _ _ _ (h 1 (by decide)),
    Memory.byte_write_outside _ _ _ _ _ (h 0 (by decide))]

theorem read_slot_apart (table : Addr) (m : Memory) {i j : Byte} (v : BitVec 64)
    (hi : i.toNat < 6) (hj : j.toNat < 6) (hij : i ≠ j) :
    (m.write (slotAddr table i) 8 v).read (slotAddr table j) 8 = m.read (slotAddr table j) 8 :=
  Memory.read_write_apart m _ 8 v _ 8 (fun _ hk => slot_bytes_apart table hi hj hij hk)

/-- The five descriptors `GDT_INIT_DEFAULTS` leaves (R85, R86). -/
theorem defaultsMem_slots (table : Addr) (m : Memory) (h : m.wf = true) :
    (defaultsMem table m).read (slotAddr table 0) 8 = nullDescriptor.pack ∧
      (defaultsMem table m).read (slotAddr table 1) 8 = kernelCode.pack ∧
      (defaultsMem table m).read (slotAddr table 2) 8 = kernelData.pack ∧
      (defaultsMem table m).read (slotAddr table 3) 8 = userCode.pack ∧
      (defaultsMem table m).read (slotAddr table 4) 8 = userData.pack := by
  have w0 := Memory.wf_write 8 m (slotAddr table 0) nullDescriptor.pack h
  have w1 := Memory.wf_write 8 _ (slotAddr table 1) kernelCode.pack w0
  have w2 := Memory.wf_write 8 _ (slotAddr table 2) kernelData.pack w1
  have w3 := Memory.wf_write 8 _ (slotAddr table 3) userCode.pack w2
  have hs : 8 ≤ Memory.size := by decide
  unfold defaultsMem
  refine ⟨?_, ?_, ?_, ?_, ?_⟩
  · rw [read_slot_apart _ _ _ (by decide) (by decide) (by decide),
      read_slot_apart _ _ _ (by decide) (by decide) (by decide),
      read_slot_apart _ _ _ (by decide) (by decide) (by decide),
      read_slot_apart _ _ _ (by decide) (by decide) (by decide)]
    exact Memory.read_write_same 8 _ _ _ hs h
  · rw [read_slot_apart _ _ _ (by decide) (by decide) (by decide),
      read_slot_apart _ _ _ (by decide) (by decide) (by decide),
      read_slot_apart _ _ _ (by decide) (by decide) (by decide)]
    exact Memory.read_write_same 8 _ _ _ hs w0
  · rw [read_slot_apart _ _ _ (by decide) (by decide) (by decide),
      read_slot_apart _ _ _ (by decide) (by decide) (by decide)]
    exact Memory.read_write_same 8 _ _ _ hs w1
  · rw [read_slot_apart _ _ _ (by decide) (by decide) (by decide)]
    exact Memory.read_write_same 8 _ _ _ hs w2
  · exact Memory.read_write_same 8 _ _ _ hs w3

/-- Two reads apart in memory after the pointer is stored (R70, R88). -/
theorem storePointer_reads (s : State) (h : s.mem.wf = true) :
    (storePointer s).mem.read s.params.gdtPtrAddr 2 = Config.gdtLimitValue ∧
      (storePointer s).mem.read (s.params.gdtPtrAddr + 2) 4 = s.params.gdtTableAddr := by
  have hs2 : 2 ≤ Memory.size := by decide
  have hs4 : 4 ≤ Memory.size := by decide
  have w := Memory.wf_write 2 s.mem s.params.gdtPtrAddr Config.gdtLimitValue h
  constructor
  · show ((s.mem.write s.params.gdtPtrAddr 2 Config.gdtLimitValue).write
      (s.params.gdtPtrAddr + 2) 4 s.params.gdtTableAddr).read s.params.gdtPtrAddr 2 = _
    rw [Memory.read_write_apart]
    · exact Memory.read_write_same 2 _ _ _ hs2 h
    · intro i hi
      have hp := s.params.gdtPtrAddr.isLt
      have two : (2 : Addr).toNat = 2 := rfl
      simp only [inRange, BitVec.toNat_sub, BitVec.toNat_add, BitVec.toNat_ofNat, two]
      omega
  · exact Memory.read_write_same 4 _ _ _ hs4 w

/-- The pointer stores leave every byte outside the pointer region alone (R32, R88). -/
theorem storePointer_outside (s : State) (a : Addr) (h : ¬ inPointer s.params a) :
    (storePointer s).mem.byte a = s.mem.byte a := by
  have hp := s.params.gdtPtrAddr.isLt
  have ha := a.isLt
  simp only [inPointer, inRange, Config.gdtPtrBytes, BitVec.toNat_sub] at h
  show ((s.mem.write s.params.gdtPtrAddr 2 Config.gdtLimitValue).write
    (s.params.gdtPtrAddr + 2) 4 s.params.gdtTableAddr).byte a = _
  rw [Memory.byte_write_outside, Memory.byte_write_outside]
  · simp only [inRange, BitVec.toNat_sub]
    omega
  · have two : (2 : Addr).toNat = 2 := rfl
    simp only [inRange, BitVec.toNat_sub, BitVec.toNat_add, two]
    omega

theorem wf_storePointer (s : State) (h : s.mem.wf = true) : (storePointer s).mem.wf = true :=
  Memory.wf_write 4 _ _ _ (Memory.wf_write 2 _ _ _ h)

/-- `storePointer` changes memory alone. -/
theorem storePointer_eq (s : State) : storePointer s = { s with mem := (storePointer s).mem } := rfl

/-- Defaults written after the pointer leave it as stored, under R9. -/
theorem defaultsMem_pointer (p : Config.Params) (h : p.wf = true) (m : Memory) (b : Addr) (k : Nat)
    (hb : ∀ i, i < k → inPointer p (b + BitVec.ofNat 32 i)) :
    (defaultsMem p.gdtTableAddr m).read b k = m.read b k := by
  refine Memory.read_congr k _ _ b (fun i hi => defaultsMem_outside _ _ _ (fun j hj hr => ?_))
  exact pointer_apart_table h (hb i hi) (slot_in_table p (by omega) hr)

end Sys2Proof.Machine
end

