-- ==== Sys2Proof/Laws/PerInstr.lean ====
section
/-! SUPPORT. What holds of every command as syntax, one lemma per constructor. The family `TableRow`: a
command's word lies in its own row of spec/opcode_table.json (word and mask give the row's match), its
opcode leads to a row of its format, and its operands fit their fields. -/

namespace Sys2Proof.Laws

theorem ofWord_injective {w w' : CommandWord} (h : Fields.ofWord w = Fields.ofWord w') : w = w' := by
  rw [← Fields.toWord_ofWord w, h, Fields.toWord_ofWord]

theorem ofWord_and (w w' : CommandWord) :
    Fields.ofWord (w &&& w') =
      { op := (Fields.ofWord w).op &&& (Fields.ofWord w').op
        a := (Fields.ofWord w).a &&& (Fields.ofWord w').a
        b := (Fields.ofWord w).b &&& (Fields.ofWord w').b
        f := (Fields.ofWord w).f &&& (Fields.ofWord w').f
        z := (Fields.ofWord w).z &&& (Fields.ofWord w').z
        p := (Fields.ofWord w).p &&& (Fields.ofWord w').p
        h := (Fields.ofWord w).h &&& (Fields.ofWord w').h
        d := (Fields.ofWord w).d &&& (Fields.ofWord w').d
        e := (Fields.ofWord w).e &&& (Fields.ofWord w').e } := by
  simp only [Fields.ofWord, BitVec.extractLsb'_and]

/-- The word's reserved bits and opcode are the row's match. -/
def TableRow.Statement (i : Instr) : Prop :=
  encode i &&& i.format.mask = i.opcode.setWidth 128 ∧
    (findRow i.opcode).map OpRow.format = some i.format ∧ i.WellFormed = true

/-- The word and mask of a command give the match, if they do field by field. -/
theorem masked_word (i : Instr)
    (h : i.fields.a &&& (Fields.ofWord i.format.mask).a = 0 ∧
      i.fields.b &&& (Fields.ofWord i.format.mask).b = 0 ∧
      i.fields.f &&& (Fields.ofWord i.format.mask).f = 0 ∧
      i.fields.z &&& (Fields.ofWord i.format.mask).z = 0 ∧
      i.fields.p &&& (Fields.ofWord i.format.mask).p = 0 ∧
      i.fields.h &&& (Fields.ofWord i.format.mask).h = 0 ∧
      i.fields.d &&& (Fields.ofWord i.format.mask).d = 0 ∧
      i.fields.e &&& (Fields.ofWord i.format.mask).e = 0 ∧
      (Fields.ofWord i.format.mask).op = 0xFF) :
    encode i &&& i.format.mask = i.opcode.setWidth 128 := by
  have hm : Fields.ofWord (i.opcode.setWidth 128) = ⟨i.opcode, 0, 0, 0, 0, 0, 0, 0, 0⟩ := by
    have := i.opcode.isLt
    simp only [Fields.ofWord, Fields.mk.injEq]
    refine ⟨?_, ?_, ?_, ?_, ?_, ?_, ?_, ?_, ?_⟩ <;>
      (apply BitVec.eq_of_toNat_eq
       simp only [BitVec.extractLsb'_toNat, BitVec.toNat_setWidth, Nat.shiftRight_eq_div_pow,
         BitVec.ofNat_eq_ofNat, BitVec.toNat_ofNat, Nat.zero_mod]
       omega)
  apply ofWord_injective
  rw [ofWord_and, encode, Fields.ofWord_toWord, hm]
  obtain ⟨ha, hb, hf, hz, hp, hh, hd, he, ho⟩ := h
  rw [ha, hb, hf, hz, hp, hh, hd, he, ho]
  have : i.fields.op &&& 0xFF = i.opcode := BitVec.and_allOnes
  rw [this]

theorem fits_cons {w : Nat} (v : BitVec w) {ws vs : List Nat} (h : operandsFit ws vs = true) :
    operandsFit (w :: ws) (v.toNat :: vs) = true := by
  rw [operandsFit, h, Bool.and_true]
  exact decide_eq_true v.isLt

theorem TableRow.outb (port : Port) (value : Byte) :
    TableRow.Statement (.outb port value) := by
  refine ⟨masked_word (.outb port value) ?_, rfl, fits_cons port (fits_cons value rfl)⟩
  simp only [Instr.fields, Instr.format, Format.mask, Fields.ofWord]
  refine ⟨?_, ?_, ?_, ?_, ?_, ?_, ?_, ?_, ?_⟩ <;> simp

theorem TableRow.outw (port : Port) (value : Word16) :
    TableRow.Statement (.outw port value) := by
  refine ⟨masked_word (.outw port value) ?_, rfl, fits_cons port (fits_cons value rfl)⟩
  simp only [Instr.fields, Instr.format, Format.mask, Fields.ofWord]
  refine ⟨?_, ?_, ?_, ?_, ?_, ?_, ?_, ?_, ?_⟩ <;> simp

theorem TableRow.inb (port : Port) :
    TableRow.Statement (.inb port) := by
  refine ⟨masked_word (.inb port) ?_, rfl, fits_cons port rfl⟩
  simp only [Instr.fields, Instr.format, Format.mask, Fields.ofWord]
  refine ⟨?_, ?_, ?_, ?_, ?_, ?_, ?_, ?_, ?_⟩ <;> simp

theorem TableRow.inw (port : Port) :
    TableRow.Statement (.inw port) := by
  refine ⟨masked_word (.inw port) ?_, rfl, fits_cons port rfl⟩
  simp only [Instr.fields, Instr.format, Format.mask, Fields.ofWord]
  refine ⟨?_, ?_, ?_, ?_, ?_, ?_, ?_, ?_, ?_⟩ <;> simp

theorem TableRow.gdtAdd (slot : Byte) (base : Addr) (limit : BitVec 20) (access : Byte)
    (flags : BitVec 4) : TableRow.Statement (.gdtAdd slot base limit access flags) := by
  refine ⟨masked_word (.gdtAdd slot base limit access flags) ?_, rfl,
    fits_cons slot (fits_cons base (fits_cons limit (fits_cons access (fits_cons flags rfl))))⟩
  have h : limit.setWidth 32 &&& 0xFFF00000#32 = 0#32 := by
    apply BitVec.eq_of_getLsbD_eq
    intro i hi
    rw [BitVec.getLsbD_and, BitVec.getLsbD_setWidth, BitVec.getLsbD_zero]
    rcases Nat.lt_or_ge i 20 with h20 | h20
    · have : (0xFFF00000#32).getLsbD i = false := by
        interval_cases i <;> rfl
      rw [this, Bool.and_false]
    · rw [BitVec.getLsbD_of_ge limit i h20, Bool.and_false, Bool.false_and]
  simp only [Instr.fields, Instr.format, Format.mask, Fields.ofWord]
  refine ⟨?_, ?_, ?_, ?_, ?_, ?_, ?_, ?_, ?_⟩ <;> first | (simp; done) | exact h

theorem TableRow.gdtInitDefaults :
    TableRow.Statement .gdtInitDefaults := by
  exact ⟨by decide, rfl, rfl⟩

theorem TableRow.gdtInit :
    TableRow.Statement .gdtInit := by
  exact ⟨by decide, rfl, rfl⟩

theorem TableRow.picInit (offset1 : Byte) (offset2 : Byte) :
    TableRow.Statement (.picInit offset1 offset2) := by
  refine ⟨masked_word (.picInit offset1 offset2) ?_, rfl, fits_cons offset1 (fits_cons offset2 rfl)⟩
  simp only [Instr.fields, Instr.format, Format.mask, Fields.ofWord]
  refine ⟨?_, ?_, ?_, ?_, ?_, ?_, ?_, ?_, ?_⟩ <;> simp

theorem TableRow.picDisable :
    TableRow.Statement .picDisable := by
  exact ⟨by decide, rfl, rfl⟩

theorem TableRow.picEnable :
    TableRow.Statement .picEnable := by
  exact ⟨by decide, rfl, rfl⟩

theorem TableRow.picSetMask (irq : Byte) :
    TableRow.Statement (.picSetMask irq) := by
  refine ⟨masked_word (.picSetMask irq) ?_, rfl, fits_cons irq rfl⟩
  simp only [Instr.fields, Instr.format, Format.mask, Fields.ofWord]
  refine ⟨?_, ?_, ?_, ?_, ?_, ?_, ?_, ?_, ?_⟩ <;> simp

theorem TableRow.picClearMask (irq : Byte) :
    TableRow.Statement (.picClearMask irq) := by
  refine ⟨masked_word (.picClearMask irq) ?_, rfl, fits_cons irq rfl⟩
  simp only [Instr.fields, Instr.format, Format.mask, Fields.ofWord]
  refine ⟨?_, ?_, ?_, ?_, ?_, ?_, ?_, ?_, ?_⟩ <;> simp

theorem TableRow.picSendEoi (irq : Byte) :
    TableRow.Statement (.picSendEoi irq) := by
  refine ⟨masked_word (.picSendEoi irq) ?_, rfl, fits_cons irq rfl⟩
  simp only [Instr.fields, Instr.format, Format.mask, Fields.ofWord]
  refine ⟨?_, ?_, ?_, ?_, ?_, ?_, ?_, ?_, ?_⟩ <;> simp

theorem TableRow.picGetIrr :
    TableRow.Statement .picGetIrr := by
  exact ⟨by decide, rfl, rfl⟩

theorem TableRow.picGetIsr :
    TableRow.Statement .picGetIsr := by
  exact ⟨by decide, rfl, rfl⟩

theorem TableRow.termInit :
    TableRow.Statement .termInit := by
  exact ⟨by decide, rfl, rfl⟩

theorem TableRow.termSetFg (color : Byte) :
    TableRow.Statement (.termSetFg color) := by
  refine ⟨masked_word (.termSetFg color) ?_, rfl, fits_cons color rfl⟩
  simp only [Instr.fields, Instr.format, Format.mask, Fields.ofWord]
  refine ⟨?_, ?_, ?_, ?_, ?_, ?_, ?_, ?_, ?_⟩ <;> simp

theorem TableRow.termSetBg (color : Byte) :
    TableRow.Statement (.termSetBg color) := by
  refine ⟨masked_word (.termSetBg color) ?_, rfl, fits_cons color rfl⟩
  simp only [Instr.fields, Instr.format, Format.mask, Fields.ofWord]
  refine ⟨?_, ?_, ?_, ?_, ?_, ?_, ?_, ?_, ?_⟩ <;> simp

theorem TableRow.termPutchar (c : Byte) :
    TableRow.Statement (.termPutchar c) := by
  refine ⟨masked_word (.termPutchar c) ?_, rfl, fits_cons c rfl⟩
  simp only [Instr.fields, Instr.format, Format.mask, Fields.ofWord]
  refine ⟨?_, ?_, ?_, ?_, ?_, ?_, ?_, ?_, ?_⟩ <;> simp

theorem TableRow.termWrite (address : Addr) (length : BitVec 32) :
    TableRow.Statement (.termWrite address length) := by
  refine ⟨masked_word (.termWrite address length) ?_, rfl, fits_cons address (fits_cons length rfl)⟩
  simp only [Instr.fields, Instr.format, Format.mask, Fields.ofWord]
  refine ⟨?_, ?_, ?_, ?_, ?_, ?_, ?_, ?_, ?_⟩ <;> simp

theorem TableRow.termWritestring (address : Addr) :
    TableRow.Statement (.termWritestring address) := by
  refine ⟨masked_word (.termWritestring address) ?_, rfl, fits_cons address rfl⟩
  simp only [Instr.fields, Instr.format, Format.mask, Fields.ofWord]
  refine ⟨?_, ?_, ?_, ?_, ?_, ?_, ?_, ?_, ?_⟩ <;> simp

theorem TableRow.termScroll :
    TableRow.Statement .termScroll := by
  exact ⟨by decide, rfl, rfl⟩

theorem TableRow.curEnable (min : Byte) (max : Byte) :
    TableRow.Statement (.curEnable min max) := by
  refine ⟨masked_word (.curEnable min max) ?_, rfl, fits_cons min (fits_cons max rfl)⟩
  simp only [Instr.fields, Instr.format, Format.mask, Fields.ofWord]
  refine ⟨?_, ?_, ?_, ?_, ?_, ?_, ?_, ?_, ?_⟩ <;> simp

theorem TableRow.curDisable :
    TableRow.Statement .curDisable := by
  exact ⟨by decide, rfl, rfl⟩

theorem TableRow.curSetpos (x : Word16) (y : Word16) :
    TableRow.Statement (.curSetpos x y) := by
  refine ⟨masked_word (.curSetpos x y) ?_, rfl, fits_cons x (fits_cons y rfl)⟩
  simp only [Instr.fields, Instr.format, Format.mask, Fields.ofWord]
  refine ⟨?_, ?_, ?_, ?_, ?_, ?_, ?_, ?_, ?_⟩ <;> simp

end Sys2Proof.Laws
end

