-- ==== Sys2Proof/Laws/Step.lean ====
section
/-! SUPPORT. What one step can do, said once: the cases of `step`, of the environment's opportunity and
of fetching the host's command; what completing and failing leave; the port oracle's laws; the memory
of reset. -/

namespace Sys2Proof.Machine

/-! ### Completing and failing -/

theorem complete_eq (s : State) : complete s = .next { s with ci := s.ci + 1 } := rfl

theorem fail_eq (code : FaultCode) (i : Instr) (s : State) :
    fail code i s = .next (s.faulted code i) := rfl

theorem raise_eq (s : State) (code : FaultCode) (w : Option CommandWord) :
    s.raise code w = { s with fault := some { code := code, ci := s.ci, word := w } } := rfl

/-! ### The environment's opportunity -/

/-- When the environment takes no step of its own, only its oldest choice is spent. -/
theorem environment_idle {s s' : State} (h : s.environment = .idle s') :
    s' = { s with envActions := s.envActions.tail } := by
  obtain ⟨params, stream, ci, fault, res, gdtCount, shadowM, shadowS, snapM, snapS, term, ifFlag,
    gdtr, segs, mem, trace, oracle, acts⟩ := s
  cases acts with
  | nil => simp only [State.environment, EnvOutcome.idle.injEq] at h; exact h.symm
  | cons a rest =>
    cases a with
    | quiet => simp only [State.environment, EnvOutcome.idle.injEq] at h; exact h.symm
    | interrupt =>
      simp only [State.environment] at h
      split at h
      · simp at h
      · simp only [EnvOutcome.idle.injEq] at h; exact h.symm
    | raiseLine line => simp [State.environment] at h

/-- When the environment takes a step, it delivers an interrupt while `IF` = 1, or raises a line of the
devices; neither touches anything but `FAULT`, the oracle and the choices. -/
theorem environment_acted {s s' : State} (h : s.environment = .acted s') :
    (s.ifFlag = true ∧ s' = { s with
      envActions := s.envActions.tail
      fault := some { code := .intrUnhandled, ci := s.ci, word := none } }) ∨
    ∃ o, s' = { s with envActions := s.envActions.tail, oracle := o } := by
  obtain ⟨params, stream, ci, fault, res, gdtCount, shadowM, shadowS, snapM, snapS, term, ifFlag,
    gdtr, segs, mem, trace, oracle, acts⟩ := s
  cases acts with
  | nil => simp [State.environment] at h
  | cons a rest =>
    cases a with
    | quiet => simp [State.environment] at h
    | interrupt =>
      simp only [State.environment] at h
      split at h
      · simp only [EnvOutcome.acted.injEq] at h
        exact .inl ⟨by assumption, h.symm⟩
      · simp at h
    | raiseLine line =>
      simp only [State.environment, EnvOutcome.acted.injEq] at h
      subst h
      cases oracle with
      | free => exact .inr ⟨.free, rfl⟩
      | scripted answers => exact .inr ⟨.scripted answers, rfl⟩
      | reference d => exact .inr ⟨_, rfl⟩

/-! ### Fetching -/

theorem fetch_command {s : State} {i : Instr} :
    s.fetch = .command i ↔ ∃ w, s.stream[s.ci]? = some w ∧ decode w = .ok i := by
  unfold State.fetch
  cases s.stream[s.ci]? with
  | none => simp
  | some w => cases h : decode w <;> simp [h]

theorem fetch_reject {s : State} {code : FaultCode} {w : CommandWord} :
    s.fetch = .reject code w ↔
      s.stream[s.ci]? = some w ∧ ∃ r, decode w = .error r ∧ rejectCode r = code := by
  unfold State.fetch
  cases s.stream[s.ci]? with
  | none => simp
  | some v =>
    simp only [Option.some.injEq]
    cases h : decode v with
    | error r =>
      simp only [Fetched.reject.injEq]
      constructor
      · rintro ⟨rfl, rfl⟩; exact ⟨rfl, r, h, rfl⟩
      · rintro ⟨rfl, r', hr, rfl⟩
        rw [h] at hr
        simp only [Except.error.injEq] at hr
        exact ⟨congrArg rejectCode hr, rfl⟩
    | ok i =>
      simp only [reduceCtorEq, false_iff, not_and, not_exists]
      rintro rfl r hr
      rw [h] at hr
      simp at hr

theorem fetch_wait {s : State} : s.fetch = .wait ↔ s.stream.length ≤ s.ci := by
  unfold State.fetch
  cases h : s.stream[s.ci]? with
  | none => simpa using h
  | some w =>
    have : ¬ s.stream.length ≤ s.ci := fun hle => by
      rw [List.getElem?_eq_none hle] at h
      simp at h
    cases hd : decode w <;> simp [this, hd]

/-! ### The step -/

/-- Everything a step that answers a next state can do. -/
theorem step_cases {s t : State} (h : step s = .next t) :
    (s.fault.isSome = true ∧ t = s) ∨
    (s.fault = none ∧ s.params.wf = true ∧
      (s.environment = .acted t ∨
        ∃ s', s.environment = .idle s' ∧
          ((s'.fetch = .wait ∧ t = s') ∨
            (∃ code w, s'.fetch = .reject code w ∧ t = s'.raise code (some w)) ∨
            ∃ i, s'.fetch = .command i ∧ exec i s' = .next t))) := by
  unfold step at h
  split at h
  · rename_i hf
    simp only [Host.Outcome.next.injEq] at h
    exact .inl ⟨hf, h.symm⟩
  · rename_i hf
    have hf : s.fault = none := by simpa using hf
    split at h
    · rename_i hwf
      refine .inr ⟨hf, hwf, ?_⟩
      split at h
      · rename_i s' he
        simp only [Host.Outcome.next.injEq] at h
        exact .inl (h ▸ he)
      · rename_i s' he
        refine .inr ⟨s', he, ?_⟩
        split at h
        · rename_i hw
          simp only [Host.Outcome.next.injEq] at h
          exact .inl ⟨hw, h.symm⟩
        · rename_i code w hw
          simp only [Host.Outcome.next.injEq] at h
          exact .inr (.inl ⟨code, w, hw, h.symm⟩)
        · rename_i i hw
          exact .inr (.inr ⟨i, hw, h⟩)
    · simp at h

/-- A step that runs: no fault stands, the launch is legal, the environment is idle. -/
theorem step_idle {s s' : State} (hf : s.fault = none) (hwf : s.params.wf = true)
    (he : s.environment = .idle s') :
    step s = match s'.fetch with
      | .wait => .next s'
      | .reject code w => .next (s'.raise code (some w))
      | .command i => exec i s' := by
  unfold step
  rewrite [if_neg (by rw [hf]; exact Bool.false_ne_true), if_pos hwf, he]
  rfl

/-! ### The port oracle -/

theorem afterWrite_free (port : Port) (v : PortData) :
    PortOracle.free.afterWrite port v = .free := rfl

theorem afterWrite_scripted (answers : List Word16) (port : Port) (v : PortData) :
    (PortOracle.scripted answers).afterWrite port v = .scripted answers := rfl

theorem afterRead_scripted (v : Word16) (answers : List Word16) :
    (PortOracle.scripted (v :: answers)).afterRead = .scripted answers := rfl

theorem answer_scripted (v : Word16) (answers : List Word16) (trace : List PortEvent) (port : Port)
    (n : PortWidth) : (PortOracle.scripted (v :: answers)).answer trace port n = v := rfl

/-! ### Reset -/

theorem reset_memory_wf : State.reset.mem.wf = true := rfl

theorem reset_params_wf : State.reset.params.wf = true := by decide

end Sys2Proof.Machine
end

