-- ==== Sys2Proof/Laws/Vga.lean ====
section
/-! SUPPORT. What the VGA unit's bodies do to the grid, byte by byte: the clear, the scroll, a
character, a whole buffer, and the length scan of a string. `off x` is the distance of an address from
`VGA_BASE`: the grid is `off x < 4000`, cell `k` the two bytes at `2k` and `2k + 1`. -/

namespace Sys2Proof.Machine

/-- The distance of an address from `VGA_BASE`, modulo 2^32. -/
def off (x : Addr) : Nat := (x - Config.vgaBase).toNat

theorem inGrid_iff (x : Addr) : inGrid x ↔ off x < 4000 := Iff.rfl

theorem off_eq (x : Addr) : off x = (2 ^ 32 - 0xB8000 + x.toNat) % 2 ^ 32 := by
  unfold off
  rw [BitVec.toNat_sub]
  rfl

theorem cellAddr_eq (row col : Nat) : cellAddr row col = cellAddrOf (row * 80 + col) := rfl

theorem eq_cellAddrOf_iff (x : Addr) {k : Nat} (hk : k < 2000) : x = cellAddrOf k ↔ off x = 2 * k := by
  have hx := x.isLt
  have hb : Config.vgaBase.toNat = 0xB8000 := rfl
  have ha : (cellAddrOf k).toNat = 0xB8000 + 2 * k := by
    simp only [cellAddrOf, BitVec.toNat_add, BitVec.toNat_ofNat, hb]
    omega
  rw [off_eq]
  constructor
  · intro h
    rw [h, ha]
    omega
  · intro h
    apply BitVec.eq_of_toNat_eq
    rw [ha]
    omega

theorem eq_cellAddrOf_succ_iff (x : Addr) {k : Nat} (hk : k < 2000) :
    x = cellAddrOf k + 1 ↔ off x = 2 * k + 1 := by
  have hx := x.isLt
  have hb : Config.vgaBase.toNat = 0xB8000 := rfl
  have h1 : (1 : Addr).toNat = 1 := rfl
  have ha : (cellAddrOf k + 1).toNat = 0xB8000 + 2 * k + 1 := by
    simp only [cellAddrOf, BitVec.toNat_add, BitVec.toNat_ofNat, hb, h1]
    omega
  rw [off_eq]
  constructor
  · intro h
    rw [h, ha]
    omega
  · intro h
    apply BitVec.eq_of_toNat_eq
    rw [ha]
    omega

theorem off_add {x : Addr} {d : Nat} (h : off x + d < 2 ^ 32) :
    off (x + BitVec.ofNat 32 d) = off x + d := by
  have hx := x.isLt
  rw [off_eq] at h ⊢
  rw [off_eq, BitVec.toNat_add, BitVec.toNat_ofNat]
  omega

/-- A cell written (R74): glyph at the even byte, attribute at the odd one. -/
theorem byte_write_cell (m : Memory) {k : Nat} (hk : k < 2000) (v : Word16) (x : Addr)
    (h : m.wf = true) :
    (m.write (cellAddrOf k) 2 v).byte x =
      if off x = 2 * k + 1 then v.extractLsb' 8 8
      else if off x = 2 * k then v.extractLsb' 0 8 else m.byte x := by
  rw [Memory.byte_write_two m _ v x h]
  simp only [eq_cellAddrOf_iff x hk, eq_cellAddrOf_succ_iff x hk]

theorem read_cell (m : Memory) (k : Nat) :
    m.read (cellAddrOf k) 2 = m.byte (cellAddrOf k + 1) ++ m.byte (cellAddrOf k) :=
  Memory.read_two m _

theorem high_append (x y : Byte) : (x ++ y : Word16).extractLsb' 8 8 = x := by
  have h : (x ++ y : Word16).toNat = x.toNat * 2 ^ 8 + y.toNat := toNat_append_mul x y
  have hx := x.isLt
  have hy := y.isLt
  apply BitVec.eq_of_toNat_eq
  rw [BitVec.extractLsb'_toNat, h, Nat.shiftRight_eq_div_pow]
  omega

theorem low_append (x y : Byte) : (x ++ y : Word16).extractLsb' 0 8 = y := by
  have h : (x ++ y : Word16).toNat = x.toNat * 2 ^ 8 + y.toNat := toNat_append_mul x y
  have hx := x.isLt
  have hy := y.isLt
  apply BitVec.eq_of_toNat_eq
  rw [BitVec.extractLsb'_toNat, h, Nat.shiftRight_eq_div_pow]
  omega

/-! ### Clearing -/

theorem clear_prefix (n : Nat) (hn : n ≤ 2000) (m : Memory) (h : m.wf = true) :
    ((List.range n).foldl (fun m k => m.write (cellAddrOf k) 2 blankCell) m).wf = true ∧
      ∀ x, ((List.range n).foldl (fun m k => m.write (cellAddrOf k) 2 blankCell) m).byte x =
        if off x < 2 * n then (if off x % 2 = 1 then Config.defaultAttr else Config.blankGlyph)
        else m.byte x := by
  induction n with
  | zero => exact ⟨h, fun x => by simp⟩
  | succ n ih =>
    obtain ⟨w, hb⟩ := ih (by omega)
    rw [List.range_succ, List.foldl_append]
    simp only [List.foldl_cons, List.foldl_nil]
    refine ⟨Memory.wf_write _ _ _ _ w, fun x => ?_⟩
    rw [byte_write_cell _ (by omega) _ _ w, hb]
    have e1 : blankCell.extractLsb' 8 8 = Config.defaultAttr := rfl
    have e2 : blankCell.extractLsb' 0 8 = Config.blankGlyph := rfl
    rw [e1, e2]
    split_ifs <;> first | rfl | omega

/-- After `TERM_INIT`'s clear every cell is blank and nothing else changed (R107). -/
theorem clearCells_spec (m : Memory) (h : m.wf = true) :
    (clearCells m).wf = true ∧
      ∀ x, (clearCells m).byte x =
        if off x < 4000 then (if off x % 2 = 1 then Config.defaultAttr else Config.blankGlyph)
        else m.byte x :=
  clear_prefix 2000 (Nat.le_refl _) m h

/-! ### Scrolling -/

theorem scrollRow_prefix (r n : Nat) (hr : r < 24) (hn : n ≤ 80) (m : Memory) (h : m.wf = true) :
    ((List.range n).foldl
        (fun m col => m.write (cellAddr r col) 2 (m.read (cellAddr (r + 1) col) 2)) m).wf = true ∧
      ∀ x, ((List.range n).foldl
        (fun m col => m.write (cellAddr r col) 2 (m.read (cellAddr (r + 1) col) 2)) m).byte x =
        if 160 * r ≤ off x ∧ off x < 160 * r + 2 * n then m.byte (x + BitVec.ofNat 32 160)
        else m.byte x := by
  induction n with
  | zero => exact ⟨h, fun x => by rw [if_neg (by omega)]; rfl⟩
  | succ n ih =>
    obtain ⟨w, hb⟩ := ih (by omega)
    rw [List.range_succ, List.foldl_append]
    simp only [List.foldl_cons, List.foldl_nil]
    refine ⟨Memory.wf_write _ _ _ _ w, fun x => ?_⟩
    generalize (List.range n).foldl
      (fun m col => m.write (cellAddr r col) 2 (m.read (cellAddr (r + 1) col) 2)) m = m' at w hb
    rw [cellAddr_eq, cellAddr_eq, byte_write_cell _ (by omega) _ _ w, read_cell, high_append,
      low_append, hb, hb, hb]
    have hk : (r + 1) * 80 + n < 2000 := by omega
    have o0 := (eq_cellAddrOf_iff (cellAddrOf ((r + 1) * 80 + n)) hk).1 rfl
    have o1 := (eq_cellAddrOf_succ_iff (cellAddrOf ((r + 1) * 80 + n) + 1) hk).1 rfl
    rw [o0, o1]
    have move1 : off x = 2 * (r * 80 + n) + 1 →
        cellAddrOf ((r + 1) * 80 + n) + 1 = x + BitVec.ofNat 32 160 := by
      intro hx
      refine ((eq_cellAddrOf_succ_iff _ hk).2 ?_).symm
      rw [off_add (by omega)]
      omega
    have move0 : off x = 2 * (r * 80 + n) →
        cellAddrOf ((r + 1) * 80 + n) = x + BitVec.ofNat 32 160 := by
      intro hx
      refine ((eq_cellAddrOf_iff _ hk).2 ?_).symm
      rw [off_add (by omega)]
      omega
    by_cases h1 : off x = 2 * (r * 80 + n) + 1
    · rw [if_pos h1, if_neg (by omega), if_pos (by omega), move1 h1]
    · rw [if_neg h1]
      by_cases h0 : off x = 2 * (r * 80 + n)
      · rw [if_pos h0, if_neg (by omega), if_pos (by omega), move0 h0]
      · rw [if_neg h0]
        by_cases h2 : 160 * r ≤ off x ∧ off x < 160 * r + 2 * n
        · rw [if_pos h2, if_pos (by omega)]
        · rw [if_neg h2, if_neg (by omega)]

theorem scroll_prefix (n : Nat) (hn : n ≤ 24) (m : Memory) (h : m.wf = true) :
    ((List.range n).foldl (fun m r => scrollRow r m) m).wf = true ∧
      ∀ x, ((List.range n).foldl (fun m r => scrollRow r m) m).byte x =
        if off x < 160 * n then m.byte (x + BitVec.ofNat 32 160) else m.byte x := by
  induction n with
  | zero => exact ⟨h, fun x => by simp⟩
  | succ n ih =>
    obtain ⟨w, hb⟩ := ih (by omega)
    rw [List.range_succ, List.foldl_append]
    simp only [List.foldl_cons, List.foldl_nil]
    obtain ⟨w', hb'⟩ := scrollRow_prefix n 80 (by omega) (Nat.le_refl _) _ w
    refine ⟨w', fun x => (hb' x).trans ?_⟩
    rw [hb, hb]
    by_cases h1 : 160 * n ≤ off x ∧ off x < 160 * n + 160
    · have ho : off (x + BitVec.ofNat 32 160) = off x + 160 := off_add (by omega)
      rw [if_pos (by omega), if_neg (by omega), if_pos (by omega)]
    · rw [if_neg (by omega)]
      by_cases h2 : off x < 160 * n
      · rw [if_pos h2, if_pos (by omega)]
      · rw [if_neg h2, if_neg (by omega)]

/-- The scroll moves every row up by one and leaves row 24 and everything outside alone (R103). -/
theorem scrollCells_spec (m : Memory) (h : m.wf = true) :
    (scrollCells m).wf = true ∧
      ∀ x, (scrollCells m).byte x =
        if off x < 3840 then m.byte (x + BitVec.ofNat 32 160) else m.byte x :=
  scroll_prefix 24 (Nat.le_refl _) m h

/-- The scroll, cell by cell (R103). -/
theorem scrollCells_cell (m : Memory) (h : m.wf = true) {row col : Nat} (hr : row < 25)
    (hc : col < 80) :
    (scrollCells m).read (cellAddr row col) 2 =
      if row < 24 then m.read (cellAddr (row + 1) col) 2 else m.read (cellAddr row col) 2 := by
  obtain ⟨_, hb⟩ := scrollCells_spec m h
  have hk : row * 80 + col < 2000 := by omega
  have o0 := (eq_cellAddrOf_iff (cellAddrOf (row * 80 + col)) hk).1 rfl
  have o1 := (eq_cellAddrOf_succ_iff (cellAddrOf (row * 80 + col) + 1) hk).1 rfl
  simp only [cellAddr_eq, read_cell, hb, o0, o1]
  by_cases h24 : row < 24
  · rw [if_pos (by omega), if_pos (by omega), if_pos h24]
    have hk' : (row + 1) * 80 + col < 2000 := by omega
    rw [(eq_cellAddrOf_succ_iff _ hk').2 (show off (cellAddrOf (row * 80 + col) + 1
        + BitVec.ofNat 32 160) = _ by rw [off_add (by omega)]; omega),
      (eq_cellAddrOf_iff _ hk').2 (show off (cellAddrOf (row * 80 + col)
        + BitVec.ofNat 32 160) = _ by rw [off_add (by omega)]; omega)]
  · rw [if_neg (by omega), if_neg (by omega), if_neg h24]

/-! ### Characters -/

/-- A row advance keeps the cursor in bounds, the attribute, canonical memory and every byte outside
the grid (R104). -/
theorem advanceRow_spec (t : Terminal) (m : Memory) (h : m.wf = true) (hr : t.row < 25)
    (hc : t.col < 80) :
    (advanceRow t m).1.inBounds ∧ (advanceRow t m).1.attr = t.attr ∧
      (advanceRow t m).2.wf = true ∧
      ∀ x, ¬ inGrid x → (advanceRow t m).2.byte x = m.byte x := by
  obtain ⟨w, hb⟩ := scrollCells_spec m h
  unfold advanceRow
  split
  · rename_i he
    simp only [scrollBody]
    refine ⟨⟨?_, hc⟩, trivial, w, fun x hx => ?_⟩
    · show t.row + 1 - 1 < 25
      omega
    · rw [inGrid_iff] at hx
      rw [hb, if_neg (by omega)]
  · rename_i he
    refine ⟨⟨?_, hc⟩, rfl, h, fun x _ => rfl⟩
    have : ¬ t.row + 1 = 25 := he
    show t.row + 1 < 25
    omega

/-- One character keeps the cursor in bounds, the attribute, canonical memory and every byte outside
the grid (R105, R27). -/
theorem putcharBody_spec (c : Byte) (t : Terminal) (m : Memory) (h : m.wf = true)
    (ht : t.inBounds) :
    (putcharBody c t m).1.inBounds ∧ (putcharBody c t m).1.attr = t.attr ∧
      (putcharBody c t m).2.wf = true ∧
      ∀ x, ¬ inGrid x → (putcharBody c t m).2.byte x = m.byte x := by
  obtain ⟨hr, hc⟩ := ht
  have hr : t.row < 25 := hr
  have hc : t.col < 80 := hc
  unfold putcharBody
  split
  · exact advanceRow_spec { t with col := 0 } m h hr (by show 0 < 80; omega)
  · have hk : t.row * 80 + t.col < 2000 := by omega
    have w := Memory.wf_write 2 m (cellAddr t.row t.col) (makeCell c t.attr) h
    have hout : ∀ x, ¬ inGrid x →
        (m.write (cellAddr t.row t.col) 2 (makeCell c t.attr)).byte x = m.byte x := by
      intro x hx
      rw [inGrid_iff] at hx
      rw [cellAddr_eq, byte_write_cell m hk _ _ h, if_neg (by omega), if_neg (by omega)]
    dsimp only
    split
    · obtain ⟨h1, h2, h3, h4⟩ := advanceRow_spec { t with col := 0 } _ w hr (by show 0 < 80; omega)
      exact ⟨h1, h2, h3, fun x hx => (h4 x hx).trans (hout x hx)⟩
    · rename_i he
      have he : ¬ t.col + 1 = 80 := he
      refine ⟨⟨hr, ?_⟩, rfl, w, hout⟩
      show t.col + 1 < 80
      omega

/-- The bytes of a buffer, in order. -/
def bufferBytes (m : Memory) (a : Addr) (n : Nat) : List Byte :=
  (List.range n).map (fun i => m.byte (a + BitVec.ofNat 32 i))

theorem bufferBytes_succ (m : Memory) (a : Addr) (n : Nat) :
    bufferBytes m a (n + 1) = m.byte a :: bufferBytes m (a + 1) n := by
  unfold bufferBytes
  rw [List.range_succ_eq_map, List.map_cons, List.map_map]
  simp only [Function.comp_def, addr_succ_add, Nat.succ_eq_add_one]
  simp

/-- The characters of a buffer put one after another. -/
def putAll : List Byte → Terminal → Memory → Terminal × Memory
  | [], t, m => (t, m)
  | c :: cs, t, m => putAll cs (putcharBody c t m).1 (putcharBody c t m).2

theorem putAll_spec (cs : List Byte) :
    ∀ (t : Terminal) (m : Memory), m.wf = true → t.inBounds →
      (putAll cs t m).1.inBounds ∧ (putAll cs t m).1.attr = t.attr ∧ (putAll cs t m).2.wf = true ∧
        ∀ x, ¬ inGrid x → (putAll cs t m).2.byte x = m.byte x := by
  induction cs with
  | nil => intro t m h ht; exact ⟨ht, rfl, h, fun _ _ => rfl⟩
  | cons c cs ih =>
    intro t m h ht
    obtain ⟨a1, a2, a3, a4⟩ := putcharBody_spec c t m h ht
    obtain ⟨b1, b2, b3, b4⟩ := ih _ _ a3 a1
    exact ⟨b1, b2.trans a2, b3, fun x hx => (b4 x hx).trans (a4 x hx)⟩

/-- The loop of `TERM_WRITE` puts the buffer's bytes as they were at its start, when the buffer does
not meet the grid (R111). -/
theorem writeLoop_eq_putAll (n : Nat) :
    ∀ (a : Addr) (t : Terminal) (m : Memory), m.wf = true → t.inBounds →
      (∀ i, i < n → ¬ inGrid (a + BitVec.ofNat 32 i)) →
      writeLoop n a t m = putAll (bufferBytes m a n) t m := by
  induction n with
  | zero => intro a t m _ _ _; rfl
  | succ n ih =>
    intro a t m h ht hg
    obtain ⟨a1, a2, a3, a4⟩ := putcharBody_spec (m.byte a) t m h ht
    have hg' : ∀ i, i < n → ¬ inGrid (a + 1 + BitVec.ofNat 32 i) := by
      intro i hi
      rw [addr_succ_add]
      exact hg (i + 1) (by omega)
    rw [writeLoop, bufferBytes_succ, putAll]
    rw [ih _ _ _ a3 a1 hg']
    have : bufferBytes (putcharBody (m.byte a) t m).2 (a + 1) n = bufferBytes m (a + 1) n :=
      List.map_congr_left (fun i hi => a4 _ (hg' i (List.mem_range.1 hi)))
    rw [this]

/-- The loop keeps the cursor in bounds, the attribute, canonical memory and every byte outside the
grid, wherever the buffer lies. -/
theorem writeLoop_spec (n : Nat) :
    ∀ (a : Addr) (t : Terminal) (m : Memory), m.wf = true → t.inBounds →
      (writeLoop n a t m).1.inBounds ∧ (writeLoop n a t m).1.attr = t.attr ∧
        (writeLoop n a t m).2.wf = true ∧
        ∀ x, ¬ inGrid x → (writeLoop n a t m).2.byte x = m.byte x := by
  induction n with
  | zero => intro a t m h ht; exact ⟨ht, rfl, h, fun _ _ => rfl⟩
  | succ n ih =>
    intro a t m h ht
    obtain ⟨a1, a2, a3, a4⟩ := putcharBody_spec (m.byte a) t m h ht
    obtain ⟨b1, b2, b3, b4⟩ := ih (a + 1) _ _ a3 a1
    exact ⟨b1, b2.trans a2, b3, fun x hx => (b4 x hx).trans (a4 x hx)⟩

/-! ### Buffers and strings -/

/-- A buffer that passes R111's check has no byte in the grid. -/
theorem buffer_outside_grid {a : Addr} {n : Nat} (h : bufferOutOfRange a.toNat n = false) :
    ∀ i, i < n → ¬ inGrid (a + BitVec.ofNat 32 i) := by
  intro i hi
  have ha := a.isLt
  have e1 : Config.vgaBase.toNat = 0xB8000 := rfl
  have e2 : Config.vgaBytes = 4000 := rfl
  have e3 : Memory.size = 2 ^ 32 := rfl
  simp only [bufferOutOfRange, meetsGrid, e1, e2, e3, Bool.and_eq_false_iff, Bool.or_eq_false_iff,
    decide_eq_false_iff_not] at h
  rw [inGrid_iff, off_eq, BitVec.toNat_add, BitVec.toNat_ofNat]
  omega

/-- The length scan finds the first 0x00 (R112). -/
theorem stringLength_some (m : Memory) (fuel : Nat) :
    ∀ (a : Addr) (n : Nat), stringLength m fuel a = some n ↔
      n < fuel ∧ m.byte (a + BitVec.ofNat 32 n) = 0 ∧
        ∀ i, i < n → m.byte (a + BitVec.ofNat 32 i) ≠ 0 := by
  induction fuel with
  | zero => intro a n; simp [stringLength]
  | succ fuel ih =>
    intro a n
    have z : a + BitVec.ofNat 32 0 = a := by simp
    unfold stringLength
    by_cases h : m.byte a = 0
    · rw [if_pos h]
      constructor
      · intro he
        obtain rfl : 0 = n := Option.some.inj he
        refine ⟨Nat.succ_pos _, by rw [z]; exact h, fun i hi => absurd hi (Nat.not_lt_zero _)⟩
      · rintro ⟨_, _, h3⟩
        cases n with
        | zero => rfl
        | succ n => exact absurd (by rw [z]; exact h) (h3 0 (Nat.succ_pos _))
    · rw [if_neg h]
      cases n with
      | zero =>
        constructor
        · intro he
          split at he <;> simp at he
        · rintro ⟨_, h2, _⟩
          rw [z] at h2
          exact absurd h2 h
      | succ n =>
        have key : stringLength m (fuel + 1) a = some (n + 1) ↔
            stringLength m fuel (a + 1) = some n := by
          rw [stringLength, if_neg h]
          cases stringLength m fuel (a + 1) <;> simp
        rw [stringLength, if_neg h] at key
        rw [key, ih, addr_succ_add]
        constructor
        · rintro ⟨h1, h2, h3⟩
          refine ⟨by omega, h2, fun i hi => ?_⟩
          cases i with
          | zero => rw [z]; exact h
          | succ i =>
            rw [← addr_succ_add]
            exact h3 i (by omega)
        · rintro ⟨h1, h2, h3⟩
          refine ⟨by omega, h2, fun i hi => ?_⟩
          rw [addr_succ_add]
          exact h3 (i + 1) (by omega)

/-- The scan fails exactly when there is no 0x00 before the top of memory (R112). -/
theorem stringLength_none (m : Memory) (fuel : Nat) (a : Addr) :
    stringLength m fuel a = none ↔ ∀ i, i < fuel → m.byte (a + BitVec.ofNat 32 i) ≠ 0 := by
  induction fuel generalizing a with
  | zero => simp [stringLength]
  | succ fuel ih =>
    have z : a + BitVec.ofNat 32 0 = a := by simp
    rw [stringLength]
    by_cases h : m.byte a = 0
    · rw [if_pos h]
      constructor
      · intro he; cases he
      · intro he
        exact absurd (by rw [z]; exact h) (he 0 (Nat.succ_pos _))
    · rw [if_neg h]
      have key : stringLength m (fuel + 1) a = none ↔ stringLength m fuel (a + 1) = none := by
        rw [stringLength, if_neg h]
        cases stringLength m fuel (a + 1) <;> simp
      rw [stringLength, if_neg h] at key
      rw [key, ih]
      constructor
      · intro he i hi
        cases i with
        | zero => rw [z]; exact h
        | succ i =>
          rw [← addr_succ_add]
          exact he i (by omega)
      · intro he i hi
        rw [addr_succ_add]
        exact he (i + 1) (by omega)

end Sys2Proof.Machine
end

