-- ==== Sys2Proof/Tests/Slice0.lean ====
section
/-! SUPPORT. Tests on fixed values, from the vectors of 95_test_vectors.md and the examples of the
command rules, and for each statement with hypotheses a witness that meets them. -/

namespace Sys2Proof.Tests

open Sys2Proof Sys2Proof.Machine

/-! ### Helpers -/

/-- The outcome is a next state with the given property. -/
def nextIs (o : Host.Outcome State Fault Refusal) (p : State → Bool) : Bool :=
  match o with
  | .next t => p t
  | .fault _ => false
  | .refused _ => false

/-- The parameters of 95_test_vectors.md. -/
def params0 : Config.Params :=
  { gdtTableAddr := 0x00101000, gdtPtrAddr := 0x00101040, shadowTracksSetClear := true }

/-- A launch with the draws of program P3 and no free value that a test reads. -/
def launch0 : Launch where
  params := params0
  stream := []
  shadowM := 0x5A
  shadowS := 0xA5
  ifFlag := false
  gdtr := { base := 0x00009000, limit := 0x0017 }
  segs := Config.segsAtReset
  mem := []
  oracle := .scripted []
  envActions := []

/-- The reset state of that launch. -/
def start : State := State.launch launch0

/-- The start state with the environment's next answers. -/
def asked (answers : List Word16) : State := { start with oracle := .scripted answers }

/-- The start state with a valid terminal. -/
def screen (row col : Nat) (attr : Byte) : State :=
  { start with term := some { row := row, col := col, attr := attr } }

/-- One step on the word, as the host's command 0. -/
def runWord (w : CommandWord) (s : State) : Host.Outcome State Fault Refusal :=
  step { s with stream := [w] }

/-- A controller after initialisation, with a mask. -/
def pic (imr : Byte) : RefPic where
  imr := imr
  irr := 0
  isr := 0
  rs := .irr
  st := .ready
  ic4 := true
  sngl := false
  vecOffset := 0x08

/-- The reference devices with two masks. -/
def devices (m sl : Byte) : RefDevices where
  master := pic m
  slave := pic sl
  crtc := { index := 0, regs := Vector.replicate 256 0 }

/-- The start state in front of the reference devices. -/
def wired (m sl : Byte) : State := { start with oracle := .reference (devices m sl) }

/-- The state has exactly this fault. -/
def faultIs (t : State) (code : FaultCode) (ci : Nat) (w : CommandWord) : Bool :=
  decide (t.fault = some { code := code, ci := ci, word := some w })

/-- A byte write event. -/
def wb (port : Port) (v : Byte) : PortEvent := .write port (.byte v)

/-- A byte read event. -/
def rb (port : Port) (v : Byte) : PortEvent := .read port (.byte v)

/-! ### WellFormed: each check refuses an ill-formed term -/

theorem test_wf_port_too_wide : operandsFit Format.pa.widths [0x10000, 0] = false := by decide
theorem test_wf_value_too_wide : operandsFit Format.pa.widths [0x21, 0x100] = false := by decide
theorem test_wf_word_too_wide : operandsFit Format.ph.widths [0x21, 0x10000] = false := by decide
theorem test_wf_limit_too_wide :
    operandsFit Format.g.widths [1, 0, 0x100000, 0, 0] = false := by decide
theorem test_wf_flags_too_wide : operandsFit Format.g.widths [1, 0, 0, 0, 0x10] = false := by
  decide
theorem test_wf_address_too_wide : operandsFit Format.d.widths [2 ^ 32] = false := by decide
theorem test_wf_too_few : operandsFit Format.ab.widths [1] = false := by decide
theorem test_wf_too_many : operandsFit Format.n.widths [0] = false := by decide
theorem test_wf_slot_6_fits : operandsFit Format.g.widths [6, 0, 0, 0, 0] = true := by decide
theorem test_wf_params : params0.wf = true := by decide
theorem test_wf_table_meets_pointer :
    ({ params0 with gdtPtrAddr := 0x0010102F } : Config.Params).wf = false := by decide
theorem test_wf_pointer_meets_table :
    ({ params0 with gdtPtrAddr := 0x00100FFB } : Config.Params).wf = false := by decide
theorem test_wf_pointer_just_below :
    ({ params0 with gdtPtrAddr := 0x00100FFA } : Config.Params).wf = true := by decide
theorem test_wf_table_meets_grid :
    ({ params0 with gdtTableAddr := 0x000B8F9F } : Config.Params).wf = false := by decide
theorem test_wf_pointer_meets_grid :
    ({ params0 with gdtPtrAddr := 0x000B7FFB } : Config.Params).wf = false := by decide
theorem test_wf_table_wraps :
    ({ params0 with gdtTableAddr := 0xFFFFFFD1 } : Config.Params).wf = false := by decide
theorem test_wf_table_ends_at_top :
    ({ params0 with gdtTableAddr := 0xFFFFFFD0 } : Config.Params).wf = true := by decide
theorem test_wf_pointer_wraps :
    ({ params0 with gdtPtrAddr := 0xFFFFFFFB } : Config.Params).wf = false := by decide

/-! ### Decoding: a word of each constructor, written out from R56 to R58 -/

theorem test_decode_port :
    decode 0x0000000000000000000000210000FB01 = .ok (.outb 0x0021 0xFB) ∧
    decode 0x0000000000000000200A03D400000002 = .ok (.outw 0x03D4 0x200A) ∧
    decode 0x00000000000000000000002100000003 = .ok (.inb 0x0021) ∧
    decode 0x00000000000000000000006000000004 = .ok (.inw 0x0060) := by decide

theorem test_decode_gdt :
    decode 0x000ABCDE123456780000000005890110 = .ok (.gdtAdd 1 0x12345678 0xABCDE 0x89 0x5) ∧
    decode 0x000FFFFFFFFFFFFF000000000FFF0210 =
      .ok (.gdtAdd 2 0xFFFFFFFF 0xFFFFF 0xFF 0xF) ∧
    decode 0x00000000000000000000000000000011 = .ok .gdtInitDefaults ∧
    decode 0x00000000000000000000000000000012 = .ok .gdtInit := by decide

theorem test_decode_pic :
    decode 0x00000000000000000000000000282020 = .ok (.picInit 0x20 0x28) ∧
    decode 0x00000000000000000000000000000021 = .ok .picDisable ∧
    decode 0x00000000000000000000000000000022 = .ok .picEnable ∧
    decode 0x00000000000000000000000000001023 = .ok (.picSetMask 16) ∧
    decode 0x00000000000000000000000000000F24 = .ok (.picClearMask 15) ∧
    decode 0x00000000000000000000000000000925 = .ok (.picSendEoi 9) ∧
    decode 0x00000000000000000000000000000026 = .ok .picGetIrr ∧
    decode 0x00000000000000000000000000000027 = .ok .picGetIsr := by decide

theorem test_decode_vga :
    decode 0x00000000000000000000000000000030 = .ok .termInit ∧
    decode 0x00000000000000000000000000000F31 = .ok (.termSetFg 0xF) ∧
    decode 0x00000000000000000000000000000132 = .ok (.termSetBg 1) ∧
    decode 0x00000000000000000000000000004133 = .ok (.termPutchar 0x41) ∧
    decode 0x000007D0003000000000000000000034 = .ok (.termWrite 0x00300000 2000) ∧
    decode 0x00000000002000000000000000000035 = .ok (.termWritestring 0x00200000) ∧
    decode 0x00000000000000000000000000000036 = .ok .termScroll ∧
    decode 0x000000000000000000000000000F0E37 = .ok (.curEnable 14 15) ∧
    decode 0x00000000000000000000000000000038 = .ok .curDisable ∧
    decode 0x00000000000000000018004F00000039 = .ok (.curSetpos 79 24) := by decide

/-- E1 to E3, and the opcodes at the edges of the gaps of R61. -/
theorem test_decode_illegal :
    decode 0x00000000000000000000000000000000 = .error .illegalOpcode ∧
    decode 0xFFFFFFFFFFFFFFFFFFFFFFFFFFFFFFFF = .error .illegalOpcode ∧
    decode 0x0000000000000000000000000000003A = .error .illegalOpcode ∧
    [0x05, 0x0F, 0x13, 0x1F, 0x28, 0x2F].map decode =
      List.replicate 6 (.error .illegalOpcode) := by decide

/-- E4 to E7. -/
theorem test_decode_reserved :
    decode 0x00000000000000000000002110000001 = .error .reservedField ∧
    decode 0x00000000000000000000000000000130 = .error .reservedField ∧
    decode 0x00100000000000000000000000000110 = .error .reservedField ∧
    decode 0x00000000000000000000000010000610 = .error .reservedField := by decide

/-- E9. -/
theorem test_decode_address_zero :
    decode 0x00000000000000000000000000000035 = .ok (.termWritestring 0) := by decide

/-- A must-be-zero bit of each operand format but `N` and `G`. -/
theorem test_decode_reserved_formats :
    [0x00000000000000010000002100000003, 0x00000000000000000000002100010001,
     0x00000000000000000000002100000102, 0x00000000000000000000000100000323,
     0x00000000000000000000000001282020, 0x00000001000000000018004F00000039,
     0x00000001002000000000000000000035, 0x000000010020000000000000FF000034].map decode =
      List.replicate 8 (.error .reservedField) := by decide

theorem test_encode_gdt_add :
    encode (.gdtAdd 5 0x00200000 0x00067 0x89 0x0) = 0x00000067002000000000000000890510 := by
  decide

theorem test_bytes_little_endian :
    decodeBytes [0x01, 0xFB, 0, 0, 0x21, 0, 0, 0, 0, 0, 0, 0, 0, 0, 0, 0, 0xAA] =
      .ok (.outb 0x0021 0xFB, [0xAA]) := by decide

theorem test_bytes_short :
    decodeBytes [0x01, 0xFB, 0, 0, 0x21, 0, 0, 0, 0, 0, 0, 0, 0, 0, 0] = .error .shortWord := by
  decide

theorem test_table_word : decodeTableWord 128 0x38 = some .curDisable := by decide

/-! ### Assembler (R63, R64) -/

theorem test_assemble_lines :
    assembleWord "OUTB 0x21, 0xFB".toList = some 0x0000000000000000000000210000FB01 ∧
    assembleWord "GDT_ADD 1, 0x12345678, 0xABCDE, 0x89, 0x5".toList =
      some 0x000ABCDE123456780000000005890110 ∧
    assembleWord "TERM_PUTCHAR 'A'".toList = some 0x4133 ∧
    assembleWord "CUR_SETPOS 79, 24".toList = some 0x00000000000000000018004F00000039 := by
  decide

theorem test_assemble_refuses :
    assembleLine "OUTB 0x10000, 0".toList = none ∧
    assembleLine "GDT_ADD 1, 0, 0x100000, 0, 0".toList = none ∧
    assembleLine "PIC_ENABLE 1".toList = none ∧ assembleLine "HLT".toList = none := by decide

theorem test_assemble_char_edges :
    assembleLine "TERM_PUTCHAR '~'".toList = some (.termPutchar 0x7E) ∧
    assembleLine ['T', 'E', 'R', 'M', '_', 'P', 'U', 'T', 'C', 'H', 'A', 'R', ' ', '\'',
      Char.ofNat 0x100, '\''] = none := by decide

theorem test_assemble_out_of_range :
    assembleLine "PIC_SET_MASK 16".toList = some (.picSetMask 16) ∧
    assembleLine "GDT_ADD 6, 0, 0, 0, 0".toList = some (.gdtAdd 6 0 0 0 0) := by decide

theorem test_assemble_pseudo :
    assembleLine "GDT_NULL 0".toList = some (.gdtAdd 0 0 0 0 0) ∧
    assembleLine "PIC_INIT_DEFAULT".toList = some (.picInit 0x20 0x28) := by decide

/-! ### Formats of Part B -/

/-- G1, G2, G5: descriptors as 64-bit values. -/
theorem test_pack :
    ({ base := 0, limit := 0xFFFFF, access := 0x9A, flags := 0xC } : Descriptor).pack =
      0x00CF9A000000FFFF#64 ∧
    ({ base := 0x12345678, limit := 0xABCDE, access := 0x89, flags := 0x5 } : Descriptor).pack =
      0x125A89345678BCDE#64 ∧
    ({ base := 0x00200000, limit := 0x00067, access := 0x89, flags := 0 } : Descriptor).pack =
      0x0000892000000067#64 := by decide

/-- R50: the flat limit reaches the top of the 4 GiB space. -/
theorem test_flat_limit : kernelCode.byteLimit = 0xFFFFFFFF#32 := by decide

/-- S9: privilege level and executable bit of the four segments (R85, R66, R67). -/
theorem test_default_bits :
    [kernelCode, kernelData, userCode, userData].map (fun d => accessDpl d.access) =
      [0, 0, 3, 3] ∧
    [kernelCode, kernelData, userCode, userData].map (fun d => accessExecutable d.access) =
      [true, false, true, false] ∧
    [kernelCode, kernelData, userCode, userData].map (fun d => flagsGranularity d.flags) =
      [true, true, true, true] := by decide

theorem test_table_pointer : tablePointer 0x00101000 47 = 0x00101000002F#48 := by decide
theorem test_blank_cell : blankCell = 0x0720 := by decide
theorem test_cell_fields :
    cellGlyph 0xAF41 = 0x41 ∧ attrForeground (cellAttr 0xAF41) = 0xF ∧
    attrBackground (cellAttr 0xAF41) = 2 ∧ attrBlink (cellAttr 0xAF41) = true := by decide
theorem test_cell_addr : cellAddr 24 79 = 0x000B8F9E ∧ cellAddrOf 1999 = 0x000B8F9E := by decide
theorem test_colours :
    Colour.lightGrey.number = 7 ∧ Colour.darkGrey.number = 8 ∧ Colour.white.number = 15 := by
  decide

/-! ### Port I/O: IO1 to IO5 -/

theorem test_outb : nextIs (runWord 0x0000000000000000000000210000FB01 start)
    (fun t => t.trace = [wb 0x21 0xFB] ∧ t.ci = 1 ∧ t.res = none) = true := by decide
theorem test_outb_top_port : nextIs (exec (.outb 0xFFFF 0) start)
    (fun t => t.trace = [wb 0xFFFF 0]) = true := by decide
theorem test_outw : nextIs (runWord 0x0000000000000000200A03D400000002 start)
    (fun t => t.trace = [.write 0x3D4 (.word 0x200A)] ∧ t.ci = 1) = true := by decide
theorem test_inb : nextIs (exec (.inb 0x21) (asked [0xFFB8]))
    (fun t => t.trace = [rb 0x21 0xB8] ∧ t.res = some 0x00B8) = true := by decide
theorem test_inw : nextIs (exec (.inw 0x60) (asked [0x1234]))
    (fun t => t.trace = [.read 0x60 (.word 0x1234)] ∧ t.res = some 0x1234) = true := by decide
theorem test_read_res :
    start.readRes = .error .resNoValue ∧
    ({ start with res := some 0x00B8 } : State).readRes = .ok 0x00B8 := by decide

/-! ### GDT unit: G1, G2, G6 to G9 -/

theorem test_gdt_add_bytes : nextIs (exec (.gdtAdd 1 0x12345678 0xABCDE 0x89 0x5) start)
    (fun t => (List.range 8).map (fun i => t.mem.byte (0x00101008 + BitVec.ofNat 32 i)) =
      [0xDE, 0xBC, 0x78, 0x56, 0x34, 0x89, 0x5A, 0x12] ∧ t.gdtCount = 1) = true := by decide
theorem test_gdt_add_slot_6 :
    nextIs (runWord 0x00000000000000000000000000000610 start)
      (fun t => faultIs t .slotRange 0 0x610 ∧ t.ci = 0 ∧ t.gdtCount = 0 ∧ t.mem = []) = true := by
  decide
theorem test_gdt_defaults : nextIs (exec .gdtInitDefaults start)
    (fun t => t.mem.read 0x00101008 8 = 0x00CF9A000000FFFF#64 ∧ t.gdtCount = 5 ∧
      t.ifFlag = false) = true := by decide
theorem test_gdt_init : nextIs (exec .gdtInit start)
    (fun t => (List.range 6).map (fun i => t.mem.byte (0x00101040 + BitVec.ofNat 32 i)) =
      [0x2F, 0x00, 0x00, 0x10, 0x10, 0x00] ∧ t.gdtr = { base := 0x00101000, limit := 0x002F } ∧
      t.ifFlag = true ∧ t.gdtCount = 5 ∧ t.trace = []) = true := by decide
theorem test_gdt_init_slot_4 : nextIs (exec .gdtInit start)
    (fun t => t.mem.read 0x00101020 8 = 0x00CFF2000000FFFF#64) = true := by decide

/-! ### PIC unit: P-1, P-3, P-4, P-6 to P-19 -/

theorem test_pic_init : nextIs (exec (.picInit 0x20 0x28) (asked [0xB8, 0x8E]))
    (fun t => t.trace =
      [rb 0x21 0xB8, rb 0xA1 0x8E, wb 0x20 0x11, wb 0xA0 0x11, wb 0x21 0x20, wb 0xA1 0x28,
       wb 0x21 0x04, wb 0xA1 0x02, wb 0x21 0x01, wb 0xA1 0x01, wb 0x21 0xB8, wb 0xA1 0x8E] ∧
      t.shadowM = 0x5A ∧ t.shadowS = 0xA5) = true := by decide
theorem test_pic_init_reference : nextIs (exec (.picInit 0x20 0x28) (wired 0xB8 0x8E))
    (fun t => match t.oracle with
      | .reference d => d.master = { pic 0xB8 with vecOffset := 0x20 } ∧
          d.slave = { pic 0x8E with vecOffset := 0x28 }
      | .free => false
      | .scripted _ => false) = true := by decide
theorem test_pic_disable : nextIs (exec .picDisable (asked [0xB8, 0x8E]))
    (fun t => t.trace = [rb 0x21 0xB8, rb 0xA1 0x8E, wb 0x21 0xFF, wb 0xA1 0xFF] ∧
      t.shadowM = 0xB8 ∧ t.shadowS = 0x8E) = true := by decide
/-- P-19: the second disable loses the mask. -/
theorem test_pic_disable_twice : (performAll [.picDisable, .picDisable] (wired 0xB8 0)).map
    (fun t => t.shadowM) = some 0xFF := by decide
theorem test_pic_enable : nextIs (exec .picEnable start)
    (fun t => t.trace = [wb 0x21 0x5A, wb 0xA1 0xA5] ∧ t.shadowM = 0x5A) = true := by decide
theorem test_pic_set_mask_12 : nextIs (exec (.picSetMask 12) (asked [0]))
    (fun t => t.trace = [rb 0xA1 0x00, wb 0xA1 0x10] ∧ t.shadowS = 0xB5 ∧ t.shadowM = 0x5A) =
      true := by decide
/-- P-11. -/
theorem test_pic_set_mask_switch_off : nextIs (exec (.picSetMask 0)
    { asked [0] with params := { params0 with shadowTracksSetClear := false }, shadowM := 0 })
    (fun t => t.trace = [rb 0x21 0x00, wb 0x21 0x01] ∧ t.shadowM = 0x00) = true := by decide
theorem test_pic_clear_mask_15 : nextIs (exec (.picClearMask 15) (asked [0xFF]))
    (fun t => t.trace = [rb 0xA1 0xFF, wb 0xA1 0x7F] ∧ t.shadowS = 0x25) = true := by decide
theorem test_pic_clear_mask_0 : nextIs (exec (.picClearMask 0) (asked [0x01]))
    (fun t => t.trace = [rb 0x21 0x01, wb 0x21 0x00]) = true := by decide
/-- P-12. -/
theorem test_pic_set_mask_16 : nextIs (runWord 0x00000000000000000000000000001023 start)
    (fun t => faultIs t .irqRange 0 0x1023 ∧ t.trace = []) = true := by decide
theorem test_pic_send_eoi : nextIs (exec (.picSendEoi 7) start)
    (fun t => t.trace = [wb 0x20 0x20]) = true ∧
    nextIs (exec (.picSendEoi 8) start)
    (fun t => t.trace = [wb 0xA0 0x20, wb 0x20 0x20]) = true := by decide
theorem test_pic_send_eoi_16 : nextIs (exec (.picSendEoi 16) start)
    (fun t => t.fault.isSome ∧ t.trace = []) = true := by decide
theorem test_pic_get_irr : nextIs (exec .picGetIrr (asked [0x01, 0x80]))
    (fun t => t.res = some 0x8001 ∧
      t.trace = [wb 0x20 0x0A, wb 0xA0 0x0A, rb 0x20 0x01, rb 0xA0 0x80]) = true := by decide
theorem test_pic_get_isr : nextIs (exec .picGetIsr (asked [0x04, 0x01]))
    (fun t => t.res = some 0x0104 ∧
      t.trace = [wb 0x20 0x0B, wb 0xA0 0x0B, rb 0x20 0x04, rb 0xA0 0x01]) = true := by decide
/-- R128: raised lines show in IRR, an end of interrupt clears the lowest in-service bit. -/
theorem test_reference_pic :
    ((pic 0).raise 3).irr = 0x08 ∧
    ({ pic 0 with isr := 0x0C } : RefPic).writeCommand 0x20 = { pic 0 with isr := 0x08 } ∧
    ((pic 0).writeCommand 0x0B).rs = .isr := by decide
theorem test_irq_vector :
    irqVector 0x20 0x28 3 = 0x23 ∧ irqVector 0x20 0x28 12 = 0x2C ∧ irqVector 0x27 0x28 0 = 0x20 := by
  decide

/-! ### VGA terminal: V1 to V30 -/

/-- V1. -/
theorem test_putchar_uninitialised :
    nextIs (runWord 0x00000000000000000000000000004133 start)
      (fun t => faultIs t .termUninit 0 0x4133) = true := by decide
theorem test_term_init : nextIs (exec .termInit (screen 3 5 0x9E))
    (fun t => t.term = some { row := 0, col := 0, attr := 0x07 } ∧ t.trace = []) = true := by
  decide
/-- V3, V6. -/
theorem test_set_fg :
    nextIs (exec (.termSetFg 0xF) (screen 0 0 0x07))
      (fun t => t.term = some { row := 0, col := 0, attr := 0x0F }) = true ∧
    nextIs (exec (.termSetFg 0) (screen 0 0 0x87))
      (fun t => t.term = some { row := 0, col := 0, attr := 0x80 }) = true := by decide
/-- V4, V5. -/
theorem test_set_bg :
    nextIs (exec (.termSetBg 1) (screen 0 0 0x0F))
      (fun t => t.term = some { row := 0, col := 0, attr := 0x1F }) = true ∧
    nextIs (exec (.termSetBg 8) (screen 0 0 0x07))
      (fun t => t.term = some { row := 0, col := 0, attr := 0x87 }) = true := by decide
/-- V7, V8. -/
theorem test_colour_range :
    nextIs (exec (.termSetFg 16) (screen 0 0 0x07))
      (fun t => (t.fault.map FaultRecord.code) = some .colorRange) = true ∧
    nextIs (exec (.termSetBg 16) start)
      (fun t => (t.fault.map FaultRecord.code) = some .colorRange) = true := by decide
/-- V9, V15. -/
theorem test_putchar :
    nextIs (exec (.termPutchar 0x41) (screen 0 0 0x07))
      (fun t => t.mem.read 0x000B8000 2 = 0x0741#16 ∧
        t.term = some { row := 0, col := 1, attr := 0x07 }) = true ∧
    nextIs (exec (.termPutchar 0x0D) (screen 0 0 0x07))
      (fun t => t.mem.read 0x000B8000 2 = 0x070D#16) = true := by decide
/-- V10, V11. -/
theorem test_putchar_wraps :
    nextIs (exec (.termPutchar 0x5A) (screen 0 79 0x07))
      (fun t => t.mem.read (cellAddrOf 79) 2 = 0x075A#16 ∧
        t.term = some { row := 1, col := 0, attr := 0x07 }) = true ∧
    nextIs (exec (.termPutchar 0x0A) (screen 5 10 0x07))
      (fun t => t.mem = [] ∧ t.term = some { row := 6, col := 0, attr := 0x07 }) = true := by
  decide
/-- V12, V13: the cursor after the scroll. -/
theorem test_putchar_scrolls :
    nextIs (exec (.termPutchar 0x0A) (screen 24 30 0x07))
      (fun t => t.term = some { row := 24, col := 0, attr := 0x07 }) = true ∧
    nextIs (exec (.termPutchar 0x51) (screen 24 79 0x07))
      (fun t => t.term = some { row := 24, col := 0, attr := 0x07 }) = true := by decide
/-- V16. -/
theorem test_scroll : nextIs (exec .termScroll (screen 3 5 0x07))
    (fun t => t.term = some { row := 2, col := 5, attr := 0x07 } ∧ t.ci = 1) = true := by decide
/-- V16: a cell of row 1 moves to row 0, and row 24 keeps its cells. -/
theorem test_scroll_cells :
    (scrollCells [(0x000B80AE, 0x41), (0x000B80AF, 0x07)]).read (cellAddr 0 7) 2 = 0x0741#16 ∧
    (scrollCells [(0x000B8F00, 0x59), (0x000B8F01, 0x07)]).read (cellAddr 24 0) 2 = 0x0759#16 := by
  constructor
  · rw [scrollCells_cell _ (by decide) (by decide) (by decide)]
    decide
  · rw [scrollCells_cell _ (by decide) (by decide) (by decide)]
    decide
/-- V17, V18. -/
theorem test_scroll_faults :
    nextIs (exec .termScroll (screen 0 7 0x07))
      (fun t => (t.fault.map FaultRecord.code) = some .scrollUnderflow) = true ∧
    nextIs (exec .termScroll start)
      (fun t => (t.fault.map FaultRecord.code) = some .termUninit) = true := by decide

/-- "Hi" at 0x00200000. -/
def hi : Memory := [(0x00200000, 0x48), (0x00200001, 0x69)]

/-- V19. -/
theorem test_write : nextIs (exec (.termWrite 0x00200000 2) { screen 0 0 0x07 with mem := hi })
    (fun t => t.mem.read (cellAddrOf 0) 2 = 0x0748#16 ∧ t.mem.read (cellAddrOf 1) 2 = 0x0769#16 ∧
      t.term = some { row := 0, col := 2, attr := 0x07 } ∧
      t.trace = [wb 0x3D4 0x0F, wb 0x3D5 0x02, wb 0x3D4 0x0E, wb 0x3D5 0x00]) = true := by decide
/-- V20. -/
theorem test_write_empty : nextIs (exec (.termWrite 0xFFFFFFFF 0) (screen 7 3 0x07))
    (fun t => t.mem = [] ∧
      t.trace = [wb 0x3D4 0x0F, wb 0x3D5 0x33, wb 0x3D4 0x0E, wb 0x3D5 0x02]) = true := by decide
/-- V21 to V26: the edges of a legal buffer. -/
theorem test_write_edges :
    bufferOutOfRange 0xFFFFFFFF 1 = false ∧ bufferOutOfRange 0xFFFFFFFF 2 = true ∧
    bufferOutOfRange 0x000B7FFF 1 = false ∧ bufferOutOfRange 0x000B7FFF 2 = true ∧
    bufferOutOfRange 0x000B8FA0 1 = false ∧ bufferOutOfRange 0x000B8F9F 1 = true ∧
    nextIs (exec (.termWrite 0x000B8000 1) start)
      (fun t => (t.fault.map FaultRecord.code) = some .bufferRange) = true := by decide
/-- V27. -/
theorem test_writestring : nextIs (exec (.termWritestring 0x00200000)
    { screen 0 0 0x07 with mem := [(0x00200000, 0x41), (0x00200001, 0x0A)] })
    (fun t => t.mem.read (cellAddrOf 0) 2 = 0x0741#16 ∧
      t.term = some { row := 1, col := 0, attr := 0x07 } ∧
      t.trace = [wb 0x3D4 0x0F, wb 0x3D5 0x50, wb 0x3D4 0x0E, wb 0x3D5 0x00]) = true := by decide
/-- V28. -/
theorem test_writestring_empty : nextIs (exec (.termWritestring 0x00200000) (screen 2 4 0x07))
    (fun t => t.trace = [wb 0x3D4 0x0F, wb 0x3D5 0xA4, wb 0x3D4 0x0E, wb 0x3D5 0x00]) = true := by
  decide
/-- V29, V30. -/
theorem test_writestring_edges :
    nextIs (exec (.termWritestring 0x000B7FFE)
      { screen 0 0 0x07 with mem := [(0x000B7FFE, 0x41)] }) (fun t => t.fault = none) = true ∧
    nextIs (exec (.termWritestring 0x000B7FFF)
      { screen 0 0 0x07 with mem := [(0x000B7FFF, 0x41)] })
      (fun t => (t.fault.map FaultRecord.code) = some .bufferRange) = true := by decide

/-! ### Cursor controller: K-1 to K-11 -/

theorem test_cur_enable :
    nextIs (exec (.curEnable 14 15) start)
      (fun t => t.trace = [wb 0x3D4 0x0A, wb 0x3D5 0x0E, wb 0x3D4 0x0B, wb 0x3D5 0x0F]) = true ∧
    nextIs (exec (.curEnable 16 20) start)
      (fun t => t.trace = [wb 0x3D4 0x0A, wb 0x3D5 0x10, wb 0x3D4 0x0B, wb 0x3D5 0x0F]) = true := by
  decide
theorem test_cur_enable_rejected :
    nextIs (exec (.curEnable 15 15) start)
      (fun t => t.trace = [] ∧ t.fault = none ∧ t.ci = 1) = true := by decide
theorem test_cur_disable : nextIs (exec .curDisable start)
    (fun t => t.trace = [wb 0x3D4 0x0A, wb 0x3D5 0x20]) = true := by decide
theorem test_cur_setpos :
    nextIs (exec (.curSetpos 79 24) start)
      (fun t => t.trace = [wb 0x3D4 0x0F, wb 0x3D5 0xCF, wb 0x3D4 0x0E, wb 0x3D5 0x07]) = true ∧
    nextIs (exec (.curSetpos 0xFFFF 0xFFFF) start)
      (fun t => t.trace = [wb 0x3D4 0x0F, wb 0x3D5 0xAF, wb 0x3D4 0x0E, wb 0x3D5 0xFF]) = true := by
  decide
/-- A property of the reference CRT controller of a state that has one. -/
def crtcOf (t : State) (p : RefCrtc → Bool) : Bool :=
  match t.oracle with
  | .reference d => p d.crtc
  | .free => false
  | .scripted _ => false

/-- R129, S14: the position reaches registers 0x0E and 0x0F, and is the cursor's cell. -/
theorem test_reference_position : nextIs (exec (.curSetpos 79 24) (wired 0 0))
    (fun t => crtcOf t (fun c => c.reg 0x0E = 0x07 ∧ c.reg 0x0F = 0xCF ∧ c.cursorOffset = 1999 ∧
      c.index = 0x0E)) = true := by decide
/-- R129, K-1: the shape of an enabled cursor. -/
theorem test_reference_cursor : nextIs (exec (.curEnable 14 15) (wired 0 0))
    (fun t => crtcOf t (fun c => c.cursor =
      some { firstScanline := 14, lastScanline := 15, offset := 0 })) = true := by decide
/-- R129, K-7: the sentinel hides the cursor. -/
theorem test_reference_hidden : nextIs (exec .curDisable (wired 0 0))
    (fun t => crtcOf t (fun c => c.cursor = none)) = true := by decide
/-- R129: a register written with 0x00 reads back as 0x00, and the data port reads the selected one. -/
theorem test_reference_zero :
    ((((devices 0 0).crtc.writeIndex 0x0F).writeData 0x5A).writeData 0x00).readData = 0x00 ∧
    ((devices 0 0).writeByte 0x03D4 0x0F).readByte 0x03D5 = some 0x00 := by decide

/-! ### Interrupts, faults, the step: X1 to X3, E1 -/

/-- X1. -/
theorem test_interrupt : nextIs
    (step { start with ifFlag := true, ci := 1, stream := [0x12, 0x38], envActions := [.interrupt] })
    (fun t => t.fault = some { code := .intrUnhandled, ci := 1, word := none }) = true := by decide
/-- X2. -/
theorem test_no_interrupt : nextIs
    (step { start with stream := [0x38], envActions := [.interrupt] })
    (fun t => t.fault = none ∧ t.ci = 1) = true := by decide
/-- X3. -/
theorem test_fault_sticky : nextIs
    (step { start with
      stream := [0x38]
      fault := some { code := .slotRange, ci := 0, word := some 0x610 } })
    (fun t => t.ci = 0 ∧ t.trace = []) = true := by decide
/-- E1. -/
theorem test_illegal_word : nextIs (runWord 0 start)
    (fun t => faultIs t .illegalOpcode 0 0 ∧ t.ci = 0 ∧ t.trace = []) = true := by decide
theorem test_waits : nextIs (step start) (fun t => t.ci = 0 ∧ t.fault = none) = true := by decide
theorem test_bad_launch :
    (match step { start with params := { params0 with gdtPtrAddr := 0x00101000 } } with
      | .refused r => decide (r = .launchParameters)
      | .next _ => false
      | .fault _ => false) = true := by decide
theorem test_placed_word : nextIs (step (State.reset.withFetchWord 128 0x38))
    (fun t => t.trace = [wb 0x3D4 0x0A, wb 0x3D5 0x20] ∧ t.ci = 1) = true := by decide

/-! ### Memory -/

theorem test_reset_memory : State.reset.mem.wf = true := by decide
theorem test_memory_refuses :
    Memory.wf [(1, 5), (0, 5)] = false ∧ Memory.wf [(1, 5), (1, 6)] = false ∧
    Memory.wf [(1, 0)] = false ∧ Memory.wf [(2 ^ 32, 1)] = false := by decide
theorem test_write_unlisted_value : Memory.write [(7, 5)] 7 1 0#8 = [] := by decide
theorem test_write_wraps : Memory.write [] 0xFFFFFFFF 2 0x1234#16 =
    [(0, 0x12), (0xFFFFFFFF, 0x34)] := by decide

/-! ### Witnesses: the hypotheses of each statement can be met, clause by clause, at the edges -/

/-- The start state with one command in the stream. -/
def given (w : CommandWord) : State := { start with stream := [w] }

theorem start_inv : start.Inv := ⟨by decide, rfl, rfl, trivial, by decide⟩

theorem given_inv (w : CommandWord) : (given w).Inv :=
  ⟨(by decide : start.mem.wf = true), rfl, rfl, trivial, Nat.zero_le _⟩

theorem witness_StepRunsTheFetchedCommand :
    (given 0x38).fault = none ∧ (given 0x38).params.wf = true ∧
    (given 0x38).environment = .idle (given 0x38) ∧
    (given 0x38).stream[(given 0x38).ci]? = some 0x38 ∧ decode 0x38 = .ok .curDisable := by
  refine ⟨rfl, by decide, rfl, rfl, by decide⟩

theorem witness_RejectedWord :
    (given 0x10000001).fault = none ∧ (given 0x10000001).params.wf = true ∧
    (given 0x10000001).envActions = [] ∧
    (given 0x10000001).stream[(given 0x10000001).ci]? = some 0x10000001 ∧
    decode 0x10000001 = .error .reservedField ∧ (given 0).stream[(given 0).ci]? = some 0 ∧
    decode 0 = .error .illegalOpcode := by
  refine ⟨rfl, by decide, rfl, rfl, by decide, rfl, by decide⟩

theorem witness_NoWordWaits :
    start.fault = none ∧ start.params.wf = true ∧ start.envActions = [] ∧
    start.stream.length ≤ start.ci := by
  refine ⟨rfl, by decide, rfl, by decide⟩

theorem witness_EncodeOfDecode : decode 0x000000000000000000000000000F0E37 = .ok (.curEnable 14 15) := by
  decide

theorem witness_IllegalAndReserved :
    decode 0x3A = .error .illegalOpcode ∧ 0x3A ≤ (0x3A : CommandWord).toNat % 256 ∧
    decode 0x130 = .error .reservedField ∧ (findRow 0x30).isSome = true := by decide

theorem witness_AssemblerRefuses :
    operandsFit (Instr.outb 0 0).format.widths [0x10000, 0] = false ∧
    operandsFit Instr.gdtInit.format.widths [0] = false ∧
    operandsFit (Instr.picInit 0 0).format.widths [0] = false := by decide

theorem witness_PseudoInstructions : (255 : Nat) < 256 ∧ (5 : Nat) < 6 := by decide

theorem witness_AnyPortAnswer : (asked [0xFFB8, 0x0001]).oracle = .scripted (0xFFB8 :: [0x0001]) := rfl

theorem witness_GdtAdd :
    (5 : Byte).toNat < 6 ∧ start.mem.wf = true ∧ 6 ≤ (6 : Byte).toNat ∧ 6 ≤ (255 : Byte).toNat := by
  decide

theorem witness_GdtInit : start.params.wf = true ∧ start.mem.wf = true := by decide

/-- A table that ends at the top of memory, and one whose pointer follows at once. -/
theorem witness_GdtInit_edges :
    ({ params0 with gdtTableAddr := 0xFFFFFFD0 } : Config.Params).wf = true ∧
    ({ params0 with gdtPtrAddr := 0x00101030 } : Config.Params).wf = true := by decide

theorem witness_lines :
    (7 : Byte).toNat < 8 ∧ 8 ≤ (8 : Byte).toNat ∧ (8 : Byte).toNat < 16 ∧
    8 ≤ (15 : Byte).toNat ∧ (15 : Byte).toNat < 16 ∧ 16 ≤ (16 : Byte).toNat := by decide

theorem witness_Reference :
    (wired 0xB8 0x8E).oracle = .reference (devices 0xB8 0x8E) ∧
    (devices 0xB8 0x8E).master.st = .ready ∧ (devices 0xB8 0x8E).slave.st = .ready ∧
    (0 : Byte).toNat < 16 ∧ (15 : Byte).toNat < 16 :=
  ⟨rfl, rfl, rfl, by decide, by decide⟩

theorem witness_TermInit : (screen 24 79 0x1F).mem.wf = true := by decide

theorem witness_TermSetColour :
    (screen 0 0 0x07).term = some { row := 0, col := 0, attr := 0x07 } ∧ (15 : Byte).toNat < 16 ∧
    16 ≤ (16 : Byte).toNat ∧ start.term = none := by decide

/-- The last column but one of the last row, and the last column of the row above. -/
theorem witness_PutcharWritesItsCell :
    (screen 24 78 0x07).term = some { row := 24, col := 78, attr := 0x07 } ∧
    (screen 23 79 0x07).term = some { row := 23, col := 79, attr := 0x07 } ∧
    (screen 24 78 0x07).mem.wf = true ∧ (screen 23 79 0x07).mem.wf = true ∧
    (0x41 : Byte) ≠ 0x0A ∧ (24 < 25 ∧ 78 < 80 ∧ (78 < 79 ∨ 24 < 24)) ∧
    (23 < 25 ∧ 79 < 80 ∧ (79 < 79 ∨ 23 < 24)) ∧ start.term = none := by decide

theorem witness_PutcharAtTheLastCell :
    (screen 24 79 0x07).mem.wf = true ∧
    (screen 24 79 0x07).term = some { row := 24, col := 79, attr := 0x07 } ∧
    (0x51 : Byte) ≠ 0x0A := by decide

theorem witness_Newline :
    (screen 23 79 0x07).mem.wf = true ∧
    (screen 23 79 0x07).term = some { row := 23, col := 79, attr := 0x07 } ∧ 23 < 24 ∧
    (screen 24 0 0x07).mem.wf = true ∧
    (screen 24 0 0x07).term = some { row := 24, col := 0, attr := 0x07 } := by decide

theorem witness_TermScroll :
    (screen 1 79 0x07).mem.wf = true ∧
    (screen 1 79 0x07).term = some { row := 1, col := 79, attr := 0x07 } ∧ 0 < 1 ∧
    (screen 0 7 0x07).term = some { row := 0, col := 7, attr := 0x07 } ∧ start.term = none := by
  decide

theorem witness_TermWrite :
    (screen 24 79 0x07).mem.wf = true ∧
    (screen 24 79 0x07).term = some { row := 24, col := 79, attr := 0x07 } ∧
    (24 < Config.vgaH ∧ 79 < Config.vgaW) ∧
    ((0xFFFFFFFF : Addr).toNat + (1 : BitVec 32).toNat ≤ 2 ^ 32 ∧
      0xB8FA0 ≤ (0xFFFFFFFF : Addr).toNat) ∧
    (0x000B7FFF : Addr).toNat + (1 : BitVec 32).toNat ≤ 0xB8000 ∧
    0xB8FA0 ≤ (0x000B8FA0 : Addr).toNat := by decide

theorem witness_TermWrite_inBounds : ({ row := 24, col := 79, attr := 0x07 } : Terminal).inBounds :=
  ⟨by decide, by decide⟩

theorem witness_TermWriteFaults :
    2 ^ 32 < (0xFFFFFFFF : Addr).toNat + (2 : BitVec 32).toNat ∧
    ((0x000B7FFF : Addr).toNat < 0xB8FA0 ∧
      0xB8000 < (0x000B7FFF : Addr).toNat + (2 : BitVec 32).toNat) ∧
    ((0x000B8F9F : Addr).toNat < 0xB8FA0 ∧
      0xB8000 < (0x000B8F9F : Addr).toNat + (1 : BitVec 32).toNat) ∧
    start.term = none ∧ (0x000B7FFF : Addr).toNat + (1 : BitVec 32).toNat ≤ 0xB8000 := by decide

/-- A terminal and the one byte 0x41 at the given address. -/
def letter (a : Nat) : State := { screen 0 0 0x07 with mem := [(a, 0x41)] }

theorem witness_TermWritestring :
    (letter 0x000B7FFE).term = some { row := 0, col := 0, attr := 0x07 } ∧
    (0x000B7FFE : Addr).toNat + 1 < 2 ^ 32 ∧ (0x000B7FFE : Addr).toNat + 1 < 0xB8000 ∧
    (letter 0x000B7FFE).mem.byte (0x000B7FFE + BitVec.ofNat 32 1) = 0x00 ∧
    (∀ i : Nat, i < 1 → (letter 0x000B7FFE).mem.byte (0x000B7FFE + BitVec.ofNat 32 i) ≠ 0x00) ∧
    0xB8FA0 ≤ (0x000B8FA0 : Addr).toNat ∧
    (letter 0x000B7FFE).mem.byte (0x000B8FA0 + BitVec.ofNat 32 0) = 0x00 := by decide

/-- No terminator before the top of memory. -/
theorem witness_TermWritestringFaults_top (i : Nat) (h : (0xFFFFFFFF : Addr).toNat + i < 2 ^ 32) :
    (letter 0xFFFFFFFF).mem.byte (0xFFFFFFFF + BitVec.ofNat 32 i) ≠ 0x00 := by
  have h1 : (0xFFFFFFFF : Addr).toNat = 4294967295 := by decide
  obtain rfl : i = 0 := by omega
  decide

theorem witness_TermWritestringFaults :
    (0x000B7FFF : Addr).toNat + 1 < 2 ^ 32 ∧
    (letter 0x000B7FFF).mem.byte (0x000B7FFF + BitVec.ofNat 32 1) = 0x00 ∧
    (∀ i : Nat, i < 1 → (letter 0x000B7FFF).mem.byte (0x000B7FFF + BitVec.ofNat 32 i) ≠ 0x00) ∧
    ((0x000B7FFF : Addr).toNat < 0xB8FA0 ∧ 0xB8000 ≤ (0x000B7FFF : Addr).toNat + 1) ∧
    start.mem.byte (0x000B8FA0 + BitVec.ofNat 32 0) = 0x00 ∧ start.term = none ∧
    ¬ ((0x000B8FA0 : Addr).toNat < 0xB8FA0 ∧ 0xB8000 ≤ (0x000B8FA0 : Addr).toNat + 0) := by decide

theorem witness_CurEnable :
    (15 : Byte).toNat ≤ (15 : Byte).toNat ∧ (14 : Byte).toNat < (15 : Byte).toNat ∧
    (15 : Byte).toNat < (20 : Byte).toNat := by decide

theorem witness_FaultIsSticky :
    (start.faulted .slotRange .gdtInit).fault =
      some { code := .slotRange, ci := 0, word := some 0x12 } := by decide

theorem witness_InterruptStep :
    ({ start with envActions := [.interrupt], ifFlag := true } : State).envActions =
      .interrupt :: [] ∧
    ({ start with envActions := [.interrupt], ifFlag := true } : State).ifFlag = true ∧
    ({ start with envActions := [.interrupt] } : State).envActions = .interrupt :: [] ∧
    start.ifFlag = false ∧ start.fault = none ∧ start.params.wf = true := by decide

theorem witness_InterruptStep_fault : ∃ t f, (given 0).ifFlag = false ∧ step (given 0) = .next t ∧
    t.fault = some f := ⟨_, _, rfl, rfl, rfl⟩

theorem witness_BadLaunch :
    2 ^ 32 < (0xFFFFFFD1 : Addr).toNat + 48 ∧ 2 ^ 32 < (0xFFFFFFFB : Addr).toNat + 6 ∧
    ((0x00101000 : Addr).toNat < (0x0010102F : Addr).toNat + 6 ∧
      (0x0010102F : Addr).toNat < (0x00101000 : Addr).toNat + 48) ∧
    ((0x000B8F9F : Addr).toNat < 0xB8FA0 ∧ 0xB8000 < (0x000B8F9F : Addr).toNat + 48) ∧
    ((0x000B7FFB : Addr).toNat < 0xB8FA0 ∧ 0xB8000 < (0x000B7FFB : Addr).toNat + 6) := by decide

theorem witness_ResetMeetsTheInvariant : launch0.mem.wf = true := by decide

theorem witness_Step : ∃ t, (given 0x12).Inv ∧ (given 0x12).params.wf = true ∧
    step (given 0x12) = .next t := ⟨_, given_inv 0x12, by decide, rfl⟩

/-- Addresses just outside the three regions. -/
theorem witness_OutsideTheRegions :
    ¬ (0x00101030 - params0.gdtTableAddr).toNat < Config.gdtBytes ∧
    ¬ (0x00101030 - params0.gdtPtrAddr).toNat < Config.gdtPtrBytes ∧
    ¬ (0x00101030 - Config.vgaBase).toNat < Config.vgaBytes ∧
    ¬ (0x000B8FA0 - Config.vgaBase).toNat < Config.vgaBytes := by decide

theorem witness_Exec : ∃ t, start.Inv ∧ start.params.wf = true ∧ Instr.curDisable ≠ .gdtInit ∧
    Instr.curDisable ≠ .termInit ∧ writesTable .curDisable = false ∧
    writesGrid .curDisable = false ∧ exec .curDisable start = .next t ∧ t.ci = start.ci + 1 :=
  ⟨_, start_inv, by decide, by decide, by decide, rfl, rfl, rfl, rfl⟩

theorem witness_Exec_termInit : ∃ t, exec .termInit start = .next t := ⟨_, rfl⟩

theorem witness_readRes :
    start.res = none ∧ ({ start with res := some 0x8001 } : State).res = some 0x8001 := by decide

theorem witness_InitialisationOrder : start.params.wf = true ∧ start.mem.wf = true := by decide

end Sys2Proof.Tests
end

