-- ==== Sys2Proof/Proofs/Scope.lean ====
section
/-! The launch and the step: parameters that violate R9 are refused at the first step (O47), and a step
with an idle environment runs the command the host's word decodes to (O1). -/

namespace Sys2Proof.Machine

/-- R9: a step of an unfaulted state whose launch parameters are illegal has no meaning. -/
theorem step_illegal_params {s : State} (hf : s.fault = none) (hwf : ¬ s.params.wf = true) :
    step s = .refused .launchParameters := by
  unfold step
  rw [if_neg (by simp [hf]), if_neg hwf]

/-- A step that runs and fetches a command is that command's `exec`. -/
theorem step_command {s s' : State} {i : Instr} (hf : s.fault = none) (hwf : s.params.wf = true)
    (he : s.environment = .idle s') (hi : s'.fetch = .command i) : step s = exec i s' := by
  rw [step_idle hf hwf he, hi]

/-- Settles O47: each listed violation contradicts what R9 says of a legal launch's addresses. -/
theorem badLaunchIsRefused : Obligations.BadLaunchIsRefused := by
  intro l hbad
  refine step_illegal_params (s := State.launch l) rfl fun hwf => ?_
  obtain ⟨htablePtr, htableGrid, hptrGrid, htableTop, hptrTop⟩ :=
    wf_facts (show l.params.wf = true from hwf)
  omega

/-- Settles O1: an idle environment leaves the stream and `ci`, so the fetch is the host's word's. -/
theorem stepRunsTheFetchedCommand : Obligations.StepRunsTheFetchedCommand := by
  intro s s' w i hf hwf he hw hd
  have hs' : s' = { s with envActions := s.envActions.tail } := environment_idle he
  have hfetch : s'.fetch = .command i := fetch_command.2 ⟨w, by rw [hs']; exact hw, hd⟩
  exact ⟨hs', step_command hf hwf he hfetch⟩

end Sys2Proof.Machine
end

