-- ==== Sys2Proof/Proofs/State.lean ====
section
/-! The state of the block: what one command, and so one step, can do to it, said once (`Effect`,
`step_effect`), and the statements of 10_state.md derived from that. -/

namespace Sys2Proof.Machine

/-! ### The effect of a command

A command faults, or it completes: it changes the block's registers and memory in one of few ways
(`Change`) and makes port accesses of its own (`Accessed`). -/

/-- A byte the command may write: of a table slot (slot 5 for a `GDT_ADD` naming it alone), of the
pointer, or of the grid (R34, R143). -/
inductive MayWrite (p : Config.Params) (i : Instr) (a : Addr) : Prop where
  | slot (j : Byte) (lt : j.toNat < 6) (mem : inRange (slotAddr p.gdtTableAddr j) 8 a)
      (writer : writesTable i = true)
      (last : j = 5 → ∃ base limit access flags, i = .gdtAdd 5 base limit access flags)
  | pointer (writer : i = .gdtInit) (mem : inPointer p a)
  | grid (writer : writesGrid i = true) (mem : inGrid a)

/-- The memory `m'` is canonical and differs from `m` only where the command may write. -/
def ChangedOnly (p : Config.Params) (i : Instr) (m m' : Memory) : Prop :=
  m'.wf = true ∧ ∀ a, ¬ MayWrite p i a → m'.byte a = m.byte a

/-- The commands that write `RES` (R17). -/
def writesRes (i : Instr) : Prop :=
  (∃ port, i = .inb port) ∨ (∃ port, i = .inw port) ∨ i = .picGetIrr ∨ i = .picGetIsr

/-- The commands that write the shadow masks (R23, R92). -/
def writesShadows (p : Config.Params) (i : Instr) : Prop :=
  i = .picDisable ∨
    (p.shadowTracksSetClear = true ∧ ∃ irq, i = .picSetMask irq ∨ i = .picClearMask irq)

/-- The commands that write `TERM_ATTR` (R26). -/
def writesAttr (i : Instr) : Prop :=
  i = .termInit ∨ ∃ color, i = .termSetFg color ∨ i = .termSetBg color

/-- What a completing command may do to the registers and memory, apart from `ci`. -/
inductive Change (i : Instr) (s : State) : State → Prop where
  | same : Change i s s
  | result (v : Word16) (writer : writesRes i) : Change i s (s.setRes v)
  | shadows (m sl : Byte) (writer : writesShadows s.params i) :
      Change i s ((s.setShadowM m).setShadowS sl)
  | snapshots : Change i s (s.setSnap none none)
  | table (m : Memory) (c : BitVec 32)
      (writes : s.mem.wf = true → ChangedOnly s.params i s.mem m) :
      Change i s { s with mem := m, gdtCount := c }
  | load (m : Memory) (c : BitVec 32) (g : Gdtr) (loader : i = .gdtInit)
      (writes : s.mem.wf = true → ChangedOnly s.params i s.mem m) :
      Change i s { s with mem := m, gdtCount := c, gdtr := g, ifFlag := true }
  | screen (t : Terminal) (m : Memory)
      (attr : writesAttr i ∨ s.term.map Terminal.attr = some t.attr)
      (valid : i = .termInit ∨ s.termValid = true)
      (writes : s.mem.wf = true → s.cursorInBounds →
        t.inBounds ∧ ChangedOnly s.params i s.mem m) :
      Change i s (s.setScreen t m)

theorem Change.shadowM {i : Instr} {s : State} (m : Byte) (writer : writesShadows s.params i) :
    Change i s (s.setShadowM m) :=
  .shadows m s.shadowS writer

theorem Change.shadowS {i : Instr} {s : State} (sl : Byte) (writer : writesShadows s.params i) :
    Change i s (s.setShadowS sl) :=
  .shadows s.shadowM sl writer

/-- `t` is `s` after port accesses of the allowed kind: only the trace and the oracle differ. -/
def Accessed (allowed : PortEvent → Prop) (s t : State) : Prop :=
  ∃ events o, (∀ e ∈ events, allowed e) ∧ t = { s with trace := s.trace ++ events, oracle := o }

/-- Everything a command can do. -/
inductive Effect (i : Instr) (s : State) : State → Prop where
  | faults (code : FaultCode) (low : 3 ≤ code.number) (high : code.number ≤ 8) :
      Effect i s (s.faulted code i)
  | completes {b t : State} (change : Change i s b) (access : Accessed (portAllowed · i) b t) :
      Effect i s t.advance

/-- The outcome is a next state, and an effect of the command. -/
def HasEffect (i : Instr) (s : State) (o : Host.Outcome State Fault Refusal) : Prop :=
  ∃ t, o = .next t ∧ Effect i s t

theorem hasEffect_fail {i : Instr} {s : State} {code : FaultCode}
    (low : 3 ≤ code.number := by decide) (high : code.number ≤ 8 := by decide) :
    HasEffect i s (fail code i s) :=
  ⟨_, fail_eq code i s, .faults code low high⟩

theorem hasEffect_complete {i : Instr} {s b t : State} (change : Change i s b)
    (access : Accessed (portAllowed · i) b t) : HasEffect i s (complete t) :=
  ⟨_, rfl, .completes change access⟩

/-! ### Port accesses -/

theorem Accessed.refl {allowed : PortEvent → Prop} (s : State) : Accessed allowed s s :=
  ⟨[], s.oracle, fun _ he => absurd he List.not_mem_nil, by rw [List.append_nil]⟩

section
variable {allowed : PortEvent → Prop} {s t : State}

/-- One more event after the accesses so far. -/
theorem Accessed.event {e : PortEvent} (o : PortOracle) (h : Accessed allowed s t)
    (he : allowed e) : Accessed allowed s { t with trace := t.trace ++ [e], oracle := o } := by
  obtain ⟨events, _, hall, rfl⟩ := h
  refine ⟨events ++ [e], o, fun x hx => ?_, by rw [← List.append_assoc]⟩
  rcases List.mem_append.1 hx with hx | hx
  · exact hall x hx
  · exact List.mem_singleton.1 hx ▸ he

theorem Accessed.params (h : Accessed allowed s t) : t.params = s.params := by
  obtain ⟨_, _, _, rfl⟩ := h
  rfl

/-- An update that reads and writes neither the trace nor the oracle commutes with accesses. -/
theorem Accessed.map (f : State → State)
    (hf : ∀ events o, f { s with trace := s.trace ++ events, oracle := o } =
      { f s with trace := (f s).trace ++ events, oracle := o })
    (h : Accessed allowed s t) : Accessed allowed (f s) (f t) := by
  obtain ⟨events, o, hall, rfl⟩ := h
  exact ⟨events, o, hall, hf events o⟩

theorem Accessed.setRes (v : Word16) (h : Accessed allowed s t) :
    Accessed allowed (s.setRes v) (t.setRes v) :=
  h.map (·.setRes v) fun _ _ => rfl

theorem Accessed.setShadowM (v : Byte) (h : Accessed allowed s t) :
    Accessed allowed (s.setShadowM v) (t.setShadowM v) :=
  h.map (·.setShadowM v) fun _ _ => rfl

theorem Accessed.setShadowS (v : Byte) (h : Accessed allowed s t) :
    Accessed allowed (s.setShadowS v) (t.setShadowS v) :=
  h.map (·.setShadowS v) fun _ _ => rfl

theorem Accessed.setSnap (x y : Option Byte) (h : Accessed allowed s t) :
    Accessed allowed (s.setSnap x y) (t.setSnap x y) :=
  h.map (·.setSnap x y) fun _ _ => rfl

/-- The four ports of the interrupt controllers (R49). -/
def picPorts : List Port := [Config.pic1Cmd, Config.pic1Data, Config.pic2Cmd, Config.pic2Data]

theorem picAccess_of_mem {e : PortEvent} (hw : e.data.width = .byte) (hp : e.port ∈ picPorts) :
    picAccess e := by
  simp only [picPorts, List.mem_cons, List.not_mem_nil, or_false] at hp
  exact ⟨hw, hp⟩

theorem irqPort_mem_picPorts (irq : Byte) : irqPort irq ∈ picPorts := by
  rcases irqPort_cases irq with ⟨-, h⟩ | ⟨-, h⟩ <;> rw [h] <;> decide

theorem Accessed.picWrite (p : Port) (v : Byte) (h : Accessed picAccess s t)
    (hp : p ∈ picPorts := by decide) : Accessed picAccess s (t.portWriteByte p v) :=
  h.event _ (picAccess_of_mem rfl hp)

theorem Accessed.picRead (p : Port) (h : Accessed picAccess s t)
    (hp : p ∈ picPorts := by decide) : Accessed picAccess s (t.portReadByte p).2 :=
  h.event _ (picAccess_of_mem rfl hp)

theorem Accessed.crtcIndex (v : Byte) (h : Accessed crtcWrite s t) :
    Accessed crtcWrite s (t.portWriteByte Config.crtcIndex v) :=
  h.event _ ⟨v, .inl rfl⟩

theorem Accessed.crtcData (v : Byte) (h : Accessed crtcWrite s t) :
    Accessed crtcWrite s (t.portWriteByte Config.crtcData v) :=
  h.event _ ⟨v, .inr rfl⟩

end

/-! ### The port unit -/

theorem outb_effect (port : Port) (value : Byte) (s : State) :
    HasEffect (.outb port value) s (execOutb port value s) :=
  hasEffect_complete .same ((Accessed.refl s).event _ trivial)

theorem outw_effect (port : Port) (value : Word16) (s : State) :
    HasEffect (.outw port value) s (execOutw port value s) :=
  hasEffect_complete .same ((Accessed.refl s).event _ trivial)

theorem inb_effect (port : Port) (s : State) : HasEffect (.inb port) s (execInb port s) :=
  hasEffect_complete (.result _ (.inl ⟨port, rfl⟩))
    (((Accessed.refl s).event _ trivial).setRes _)

theorem inw_effect (port : Port) (s : State) : HasEffect (.inw port) s (execInw port s) :=
  hasEffect_complete (.result _ (.inr (.inl ⟨port, rfl⟩)))
    (((Accessed.refl s).event _ trivial).setRes _)

/-! ### The PIC unit -/

theorem Accessed.picInitWords {s t : State} (offset1 offset2 : Byte) (h : Accessed picAccess s t) :
    Accessed picAccess s (picInitWords offset1 offset2 t) := by
  unfold Machine.picInitWords
  iterate 8 refine Accessed.picWrite _ _ ?_
  exact h

theorem picInit_effect (offset1 offset2 : Byte) (s : State) :
    HasEffect (.picInit offset1 offset2) s (execPicInit offset1 offset2 s) := by
  have reads := ((Accessed.refl s).picRead Config.pic1Data).picRead Config.pic2Data
  have restored (m sl : Byte) := (((reads.setSnap (some m) (some sl)).picInitWords offset1
    offset2).picWrite Config.pic1Data m).picWrite Config.pic2Data sl
  exact hasEffect_complete .snapshots ((restored _ _).setSnap none none)

theorem picDisable_effect (s : State) : HasEffect .picDisable s (execPicDisable s) := by
  have saved (m sl : Byte) := ((((Accessed.refl s).picRead Config.pic1Data).setShadowM m).picRead
    Config.pic2Data).setShadowS sl
  exact hasEffect_complete (.shadows _ _ (.inl rfl))
    (((saved _ _).picWrite Config.pic1Data _).picWrite Config.pic2Data _)

theorem picEnable_effect (s : State) : HasEffect .picEnable s (execPicEnable s) :=
  hasEffect_complete .same
    (((Accessed.refl s).picWrite Config.pic1Data _).picWrite Config.pic2Data _)

/-- After accesses of a mask command, its shadow update is that command's, and made by the switch
alone (R92). -/
theorem trackShadow_effect {i : Instr} {irq : Byte} (change : Byte → Byte) {s t : State}
    (hi : i = .picSetMask irq ∨ i = .picClearMask irq) (access : Accessed (portAllowed · i) s t) :
    HasEffect i s (complete (trackShadow irq change t)) := by
  unfold trackShadow
  by_cases hswitch : t.params.shadowTracksSetClear = true
  · have writer : writesShadows s.params i := .inr ⟨access.params ▸ hswitch, irq, hi⟩
    rw [if_pos hswitch]
    split
    · exact hasEffect_complete (.shadowM _ writer) (access.setShadowM _)
    · exact hasEffect_complete (.shadowS _ writer) (access.setShadowS _)
  · rw [if_neg hswitch]
    exact hasEffect_complete .same access

/-- The read-modify-write of R96 and R97. -/
theorem modifyMask_effect {i : Instr} {irq : Byte} (change : Byte → Byte) (s : State)
    (hi : i = .picSetMask irq ∨ i = .picClearMask irq) :
    HasEffect i s (complete (modifyMask irq change s)) := by
  have access (v : Byte) := ((Accessed.refl s).picRead (irqPort irq)
    (irqPort_mem_picPorts irq)).picWrite (irqPort irq) v (irqPort_mem_picPorts irq)
  refine trackShadow_effect change hi ?_
  rcases hi with rfl | rfl <;> exact access _

theorem picSetMask_effect (irq : Byte) (s : State) :
    HasEffect (.picSetMask irq) s (execPicSetMask irq s) := by
  unfold execPicSetMask
  split
  · exact hasEffect_fail
  · exact modifyMask_effect _ s (.inl rfl)

theorem picClearMask_effect (irq : Byte) (s : State) :
    HasEffect (.picClearMask irq) s (execPicClearMask irq s) := by
  unfold execPicClearMask
  split
  · exact hasEffect_fail
  · exact modifyMask_effect _ s (.inr rfl)

theorem picSendEoi_effect (irq : Byte) (s : State) :
    HasEffect (.picSendEoi irq) s (execPicSendEoi irq s) := by
  unfold execPicSendEoi
  split
  · exact hasEffect_fail
  · refine hasEffect_complete .same (Accessed.picWrite Config.pic1Cmd Config.eoi ?_)
    split
    · exact Accessed.refl s
    · exact (Accessed.refl s).picWrite Config.pic2Cmd Config.eoi

theorem readStatus_effect {i : Instr} (select : Byte) (s : State)
    (hi : i = .picGetIrr ∨ i = .picGetIsr) : HasEffect i s (complete (readStatus select s)) := by
  have access (v : Word16) := (((((Accessed.refl s).picWrite Config.pic1Cmd select).picWrite
    Config.pic2Cmd select).picRead Config.pic1Cmd).picRead Config.pic2Cmd).setRes v
  rcases hi with rfl | rfl
  · exact hasEffect_complete (.result _ (.inr (.inr (.inl rfl)))) (access _)
  · exact hasEffect_complete (.result _ (.inr (.inr (.inr rfl)))) (access _)

/-! ### The GDT unit -/

theorem gdtAdd_changedOnly (p : Config.Params) (slot : Byte) (d : Descriptor) (m : Memory)
    (hslot : slot.toNat < 6) (hm : m.wf = true) :
    ChangedOnly p (.gdtAdd slot d.base d.limit d.access d.flags) m
      (storeDescriptor m (slotAddr p.gdtTableAddr slot) d) := by
  rw [storeDescriptor_eq_write]
  refine ⟨Memory.wf_write _ _ _ _ hm, fun a ha => ?_⟩
  refine Memory.byte_write_outside _ _ _ _ _ fun hin => ?_
  exact ha (.slot slot hslot hin rfl fun h5 => ⟨_, _, _, _, by rw [h5]⟩)

/-- The defaults' stores fall in slots 0 to 4 (R86), which a writer of the table may write. -/
theorem defaults_changedOnly {p : Config.Params} {i : Instr} {m m' : Memory}
    (writer : writesTable i = true) (h : ChangedOnly p i m m') :
    ChangedOnly p i m (defaultsMem p.gdtTableAddr m') := by
  refine ⟨wf_defaultsMem _ _ h.1, fun a ha => ?_⟩
  rw [defaultsMem_outside _ _ _ fun j hj hin => ?_, h.2 a ha]
  exact ha (.slot j (by omega) hin writer fun h5 => absurd (h5 ▸ hj) (by decide))

theorem storePointer_changedOnly (s : State) (h : s.mem.wf = true) :
    ChangedOnly s.params .gdtInit s.mem (storePointer s).mem :=
  ⟨wf_storePointer s h, fun a ha => storePointer_outside s a fun hin => ha (.pointer rfl hin)⟩

theorem gdtAdd_effect (slot : Byte) (base : Addr) (limit : BitVec 20) (access : Byte)
    (flags : BitVec 4) (s : State) :
    HasEffect (.gdtAdd slot base limit access flags) s
      (execGdtAdd slot base limit access flags s) := by
  unfold execGdtAdd
  split
  · exact hasEffect_fail
  · rename_i hslot
    exact hasEffect_complete (.table _ _ (gdtAdd_changedOnly s.params slot
      ⟨base, limit, access, flags⟩ s.mem (Nat.lt_of_not_le hslot))) (Accessed.refl _)

theorem gdtInitDefaults_effect (s : State) :
    HasEffect .gdtInitDefaults s (execGdtInitDefaults s) := by
  unfold execGdtInitDefaults
  rw [gdtDefaultsBody_eq]
  exact hasEffect_complete (.table _ _ fun h => defaults_changedOnly rfl ⟨h, fun _ _ => rfl⟩)
    (Accessed.refl _)

theorem storePointer_setIF (s : State) (b : Bool) :
    storePointer (s.setIF b) = (storePointer s).setIF b := rfl

/-- `GDT_INIT` by the memory its pointer and its defaults leave (R88). -/
theorem execGdtInit_record (s : State) : ∃ g : Gdtr, execGdtInit s = complete { s with
    mem := defaultsMem s.params.gdtTableAddr (storePointer s).mem
    gdtCount := s.gdtCount + 5
    gdtr := g
    ifFlag := true } := by
  have stores : gdtDefaultsBody (storePointer (s.setIF false)) = { s with
      mem := defaultsMem s.params.gdtTableAddr (storePointer s).mem
      gdtCount := s.gdtCount + 5
      ifFlag := false } := by
    rw [gdtDefaultsBody_eq, storePointer_setIF, storePointer_eq]
    generalize (storePointer s).mem = m
    rfl
  show ∃ g, complete (((gdtDefaultsBody (storePointer (s.setIF false))).loadGdt
    (gdtDefaultsBody (storePointer (s.setIF false))).params.gdtPtrAddr).setIF true) = _
  rw [stores]
  generalize defaultsMem _ _ = m
  exact ⟨_, rfl⟩

theorem gdtInit_effect (s : State) : HasEffect .gdtInit s (execGdtInit s) := by
  obtain ⟨g, h⟩ := execGdtInit_record s
  rw [h]
  exact hasEffect_complete (.load _ _ g rfl fun hm =>
    defaults_changedOnly rfl (storePointer_changedOnly s hm)) (Accessed.refl _)

/-! ### The VGA unit -/

theorem cursorInBounds_of_some {s : State} {t : Terminal} (ht : s.term = some t)
    (h : s.cursorInBounds) : t.inBounds := by
  unfold State.cursorInBounds at h
  rwa [ht] at h

theorem advanceRow_attr (t : Terminal) (m : Memory) : (advanceRow t m).1.attr = t.attr := by
  unfold advanceRow
  split <;> rfl

/-- A character keeps `TERM_ATTR`, wherever the cursor stands (R26). -/
theorem putcharBody_attr (c : Byte) (t : Terminal) (m : Memory) :
    (putcharBody c t m).1.attr = t.attr := by
  unfold putcharBody
  split
  · exact advanceRow_attr _ _
  · dsimp only
    split
    · exact advanceRow_attr _ _
    · rfl

theorem writeLoop_attr (n : Nat) (a : Addr) (t : Terminal) (m : Memory) :
    (writeLoop n a t m).1.attr = t.attr := by
  induction n generalizing a t m with
  | zero => rfl
  | succ n ih => exact (ih _ _ _).trans (putcharBody_attr _ _ _)

/-- A writer of the grid that leaves everything outside it alone changes only what it may. -/
theorem changedOnly_of_outside_grid {p : Config.Params} {i : Instr} {m m' : Memory}
    (writer : writesGrid i = true) (hm : m'.wf = true)
    (h : ∀ a, ¬ inGrid a → m'.byte a = m.byte a) : ChangedOnly p i m m' :=
  ⟨hm, fun a ha => h a fun hin => ha (.grid writer hin)⟩

theorem termInit_effect (s : State) : HasEffect .termInit s (execTermInit s) := by
  refine hasEffect_complete (.screen _ _ (.inl (.inl rfl)) (.inl rfl) fun hm _ => ?_)
    (Accessed.refl _)
  obtain ⟨hwf, hbyte⟩ := clearCells_spec s.mem hm
  refine ⟨⟨by decide, by decide⟩, changedOnly_of_outside_grid rfl hwf fun a ha => ?_⟩
  rw [hbyte, if_neg ((inGrid_iff a).not.1 ha)]

/-- A new `TERM_ATTR` moves no cursor and writes no memory. -/
theorem setAttr_effect {i : Instr} {s : State} {t : Terminal} (attr : Byte) (ht : s.term = some t)
    (hi : writesAttr i) :
    HasEffect i s (complete (s.setScreen { t with attr := attr } s.mem)) :=
  hasEffect_complete (.screen { t with attr := attr } s.mem (.inl hi)
    (.inr (by simp [State.termValid, ht])) fun hm hc =>
      ⟨show t.inBounds from cursorInBounds_of_some ht hc, hm, fun _ _ => rfl⟩) (Accessed.refl _)

theorem termSetFg_effect (color : Byte) (s : State) :
    HasEffect (.termSetFg color) s (execTermSetFg color s) := by
  unfold execTermSetFg
  split
  · exact hasEffect_fail
  · split
    · exact hasEffect_fail
    · rename_i t ht
      exact setAttr_effect _ ht (.inr ⟨color, .inl rfl⟩)

theorem termSetBg_effect (color : Byte) (s : State) :
    HasEffect (.termSetBg color) s (execTermSetBg color s) := by
  unfold execTermSetBg
  split
  · exact hasEffect_fail
  · split
    · exact hasEffect_fail
    · rename_i t ht
      exact setAttr_effect _ ht (.inr ⟨color, .inr rfl⟩)

/-- What the grid's writers share: a valid terminal keeps `TERM_ATTR`, its cursor stays in bounds,
and only the grid changes. -/
theorem Change.draw {i : Instr} {s : State} {t t' : Terminal} {m : Memory} (ht : s.term = some t)
    (writer : writesGrid i = true) (attr : t'.attr = t.attr)
    (spec : s.mem.wf = true → t.inBounds →
      t'.inBounds ∧ m.wf = true ∧ ∀ a, ¬ inGrid a → m.byte a = s.mem.byte a) :
    Change i s (s.setScreen t' m) := by
  refine .screen t' m (.inr ?_) (.inr ?_) fun hm hc => ?_
  · rw [ht, attr]
    rfl
  · rw [State.termValid, ht]
    rfl
  · obtain ⟨hin, hwf, hout⟩ := spec hm (cursorInBounds_of_some ht hc)
    exact ⟨hin, changedOnly_of_outside_grid writer hwf hout⟩

theorem termPutchar_effect (c : Byte) (s : State) :
    HasEffect (.termPutchar c) s (execTermPutchar c s) := by
  unfold execTermPutchar
  split
  · exact hasEffect_fail
  · rename_i t ht
    refine hasEffect_complete (.draw ht rfl (putcharBody_attr c t s.mem) fun hm hb => ?_)
      (Accessed.refl _)
    obtain ⟨hin, -, hwf, hout⟩ := putcharBody_spec c t s.mem hm hb
    exact ⟨hin, hwf, hout⟩

theorem termScroll_effect (s : State) : HasEffect .termScroll s (execTermScroll s) := by
  unfold execTermScroll
  split
  · exact hasEffect_fail
  · rename_i t ht
    split
    · exact hasEffect_fail
    · simp only [scrollBody]
      refine hasEffect_complete (.draw (t' := { t with row := t.row - 1 }) ht rfl rfl
        fun hm hb => ?_) (Accessed.refl _)
      obtain ⟨hwf, hbyte⟩ := scrollCells_spec s.mem hm
      refine ⟨⟨Nat.lt_of_le_of_lt (Nat.sub_le _ _) hb.1, hb.2⟩, hwf, fun a ha => ?_⟩
      rw [inGrid_iff] at ha
      rw [hbyte, if_neg (by omega)]

theorem Accessed.setpos {s t : State} (x y : Word16) (h : Accessed crtcWrite s t) :
    Accessed crtcWrite s (setposBody x y t) :=
  (((h.crtcIndex _).crtcData _).crtcIndex _).crtcData _

theorem writeBody_effect {i : Instr} {s : State} {t : Terminal} (address : Addr) (n : Nat)
    (ht : s.term = some t) (hi : (∃ length, i = .termWrite address length) ∨
      i = .termWritestring address) : HasEffect i s (complete (writeBody address n t s)) := by
  have writer : writesGrid i = true := by rcases hi with ⟨_, rfl⟩ | rfl <;> rfl
  have change : Change i s (s.setScreen (writeLoop n address t s.mem).1
      (writeLoop n address t s.mem).2) := by
    refine .draw ht writer (writeLoop_attr n address t s.mem) fun hm hb => ?_
    obtain ⟨hin, -, hwf, hout⟩ := writeLoop_spec n address t s.mem hm hb
    exact ⟨hin, hwf, hout⟩
  refine hasEffect_complete change ?_
  rcases hi with ⟨_, rfl⟩ | rfl <;> exact (Accessed.refl _).setpos _ _

theorem termWrite_effect (address : Addr) (length : BitVec 32) (s : State) :
    HasEffect (.termWrite address length) s (execTermWrite address length s) := by
  unfold execTermWrite
  split
  · exact hasEffect_fail
  · split
    · exact hasEffect_fail
    · rename_i t ht
      exact writeBody_effect _ _ ht (.inl ⟨length, rfl⟩)

theorem termWritestring_effect (address : Addr) (s : State) :
    HasEffect (.termWritestring address) s (execTermWritestring address s) := by
  unfold execTermWritestring
  split
  · exact hasEffect_fail
  · split
    · exact hasEffect_fail
    · split
      · exact hasEffect_fail
      · rename_i t ht
        exact writeBody_effect _ _ ht (.inr rfl)

theorem curEnable_effect (min max : Byte) (s : State) :
    HasEffect (.curEnable min max) s (execCurEnable min max s) := by
  unfold execCurEnable
  split
  · exact hasEffect_complete .same (Accessed.refl _)
  · exact hasEffect_complete .same
      (((((Accessed.refl s).crtcIndex _).crtcData _).crtcIndex _).crtcData _)

theorem curDisable_effect (s : State) : HasEffect .curDisable s (execCurDisable s) :=
  hasEffect_complete .same (((Accessed.refl s).crtcIndex _).crtcData _)

theorem curSetpos_effect (x y : Word16) (s : State) :
    HasEffect (.curSetpos x y) s (execCurSetpos x y s) :=
  hasEffect_complete .same ((Accessed.refl s).setpos x y)

/-! ### Every command, and one step -/

/-- Every command in every state answers a next state, by one of its effects. -/
theorem exec_hasEffect (i : Instr) (s : State) : HasEffect i s (exec i s) := by
  cases i with
  | outb port value => exact outb_effect port value s
  | outw port value => exact outw_effect port value s
  | inb port => exact inb_effect port s
  | inw port => exact inw_effect port s
  | gdtAdd slot base limit access flags => exact gdtAdd_effect slot base limit access flags s
  | gdtInitDefaults => exact gdtInitDefaults_effect s
  | gdtInit => exact gdtInit_effect s
  | picInit offset1 offset2 => exact picInit_effect offset1 offset2 s
  | picDisable => exact picDisable_effect s
  | picEnable => exact picEnable_effect s
  | picSetMask irq => exact picSetMask_effect irq s
  | picClearMask irq => exact picClearMask_effect irq s
  | picSendEoi irq => exact picSendEoi_effect irq s
  | picGetIrr => exact readStatus_effect _ s (.inl rfl)
  | picGetIsr => exact readStatus_effect _ s (.inr rfl)
  | termInit => exact termInit_effect s
  | termSetFg color => exact termSetFg_effect color s
  | termSetBg color => exact termSetBg_effect color s
  | termPutchar c => exact termPutchar_effect c s
  | termWrite address length => exact termWrite_effect address length s
  | termWritestring address => exact termWritestring_effect address s
  | termScroll => exact termScroll_effect s
  | curEnable min max => exact curEnable_effect min max s
  | curDisable => exact curDisable_effect s
  | curSetpos x y => exact curSetpos_effect x y s

theorem effect_of_exec {i : Instr} {s t : State} (h : exec i s = .next t) : Effect i s t := by
  obtain ⟨t', he, heff⟩ := exec_hasEffect i s
  cases h.symm.trans he
  exact heff

/-- A step runs the fetched command, or changes nothing but `FAULT`, the oracle and the choices. -/
theorem step_effect {s t : State} (h : step s = .next t) :
    (∃ f o acts, t = { s with fault := f, oracle := o, envActions := acts }) ∨
      ∃ i acts, s.ci < s.stream.length ∧ Effect i { s with envActions := acts } t := by
  rcases step_cases h with ⟨-, rfl⟩ | ⟨-, -, hact | ⟨s', hidle, hrun⟩⟩
  · exact .inl ⟨_, _, _, rfl⟩
  · rcases environment_acted hact with ⟨-, rfl⟩ | ⟨o, rfl⟩
    · exact .inl ⟨_, _, _, rfl⟩
    · exact .inl ⟨_, _, _, rfl⟩
  · obtain rfl := environment_idle hidle
    rcases hrun with ⟨-, rfl⟩ | ⟨code, w, -, rfl⟩ | ⟨i, hi, he⟩
    · exact .inl ⟨_, _, _, rfl⟩
    · exact .inl ⟨_, _, _, rfl⟩
    · obtain ⟨w, hw, -⟩ := fetch_command.1 hi
      exact .inr ⟨i, _, (List.getElem?_eq_some_iff.1 hw).1, effect_of_exec he⟩

/-! ### What a change keeps -/

theorem Change.keeps {i : Instr} {s b : State} (h : Change i s b) :
    b.ci = s.ci ∧ b.fault = s.fault ∧ b.segs = s.segs ∧ b.params = s.params ∧
      b.stream = s.stream ∧ b.trace = s.trace := by
  cases h <;> exact ⟨rfl, rfl, rfl, rfl, rfl, rfl⟩

theorem Change.changedOnly {i : Instr} {s b : State} (hs : s.Inv) (h : Change i s b) :
    ChangedOnly s.params i s.mem b.mem := by
  cases h with
  | table m c writes => exact writes hs.memory
  | load m c g loader writes => exact writes hs.memory
  | screen t m attr valid writes => exact (writes hs.memory hs.cursor).2
  | _ => exact ⟨hs.memory, fun _ _ => rfl⟩

theorem Change.inv {i : Instr} {s b : State} (hs : s.Inv) (h : Change i s b) : b.Inv := by
  have hmem := (h.changedOnly hs).1
  cases h with
  | snapshots => exact ⟨hmem, rfl, rfl, hs.cursor, hs.index⟩
  | screen t m attr valid writes =>
    exact ⟨hmem, hs.snapM, hs.snapS, (writes hs.memory hs.cursor).1, hs.index⟩
  | _ => exact ⟨hmem, hs.snapM, hs.snapS, hs.cursor, hs.index⟩

/-- The invariant reads neither `FAULT`, the oracle nor the environment's choices. -/
theorem State.Inv.environment {s : State} (hs : s.Inv) (f : Option FaultRecord) (o : PortOracle)
    (acts : List EnvAction) :
    State.Inv { s with fault := f, oracle := o, envActions := acts } :=
  ⟨hs.memory, hs.snapM, hs.snapS, hs.cursor, hs.index⟩

/-- A command that was fetched keeps the invariant. -/
theorem Effect.inv {i : Instr} {s t : State} (hs : s.Inv) (hci : s.ci < s.stream.length)
    (h : Effect i s t) : t.Inv := by
  rcases h with ⟨code, low, high⟩ | ⟨change, events, o, hall, rfl⟩
  · exact hs.environment _ s.oracle s.envActions
  · obtain ⟨hci', -, -, -, hstream, -⟩ := change.keeps
    obtain ⟨hmem, hsnapM, hsnapS, hcursor, -⟩ := change.inv hs
    refine ⟨hmem, hsnapM, hsnapS, hcursor, ?_⟩
    rw [← hci', ← hstream] at hci
    exact hci

/-- A command leaves every byte it may not write. -/
theorem Effect.byte_eq {i : Instr} {s t : State} (hs : s.Inv) (h : Effect i s t) {a : Addr}
    (ha : ¬ MayWrite s.params i a) : t.mem.byte a = s.mem.byte a := by
  rcases h with ⟨code, low, high⟩ | ⟨change, events, o, hall, rfl⟩
  · rfl
  · exact (change.changedOnly hs).2 a ha

/-! ### The regions -/

/-- Under R9 the grid shares no byte with the table. -/
theorem grid_apart_table {p : Config.Params} (h : p.wf = true) {a : Addr} (ha : inGrid a) :
    ¬ inTable p a := by
  have hw := wf_facts h
  have htable := p.gdtTableAddr.isLt
  have haddr := a.isLt
  rw [inGrid_iff, off_eq] at ha
  simp only [inTable, inRange, Config.gdtBytes, Config.gdtCap, Config.descSize, BitVec.toNat_sub]
  omega

/-- Under R9 the grid shares no byte with the pointer. -/
theorem grid_apart_pointer {p : Config.Params} (h : p.wf = true) {a : Addr} (ha : inGrid a) :
    ¬ inPointer p a := by
  have hw := wf_facts h
  have hptr := p.gdtPtrAddr.isLt
  have haddr := a.isLt
  rw [inGrid_iff, off_eq] at ha
  simp only [inPointer, inRange, Config.gdtPtrBytes, BitVec.toNat_sub]
  omega

/-- An address lies in one slot at most (R83). -/
theorem slots_disjoint (table : Addr) {i j : Byte} {a : Addr} (hi : i.toNat < 6) (hj : j.toNat < 6)
    (hij : i ≠ j) (ha : inRange (slotAddr table j) 8 a) : ¬ inRange (slotAddr table i) 8 a := by
  have h := slot_bytes_apart table hi hj hij ha
  rwa [BitVec.ofNat_toNat, BitVec.setWidth_eq, BitVec.add_comm, BitVec.sub_add_cancel] at h

/-! ### The whole machine -/

/-- Settles O49: a fetched command's effect keeps the invariant, and every other step touches only
fields it does not read. -/
theorem stepKeepsTheInvariant : Obligations.StepKeepsTheInvariant := by
  intro s t hs h
  rcases step_effect h with ⟨f, o, acts, rfl⟩ | ⟨i, acts, hci, heff⟩
  · exact hs.environment f o acts
  · exact heff.inv (hs.environment s.fault s.oracle acts) hci

/-- Settles O51: every byte a command may write lies in one of the three regions. -/
theorem onlyTheThreeRegionsAreWritten : Obligations.OnlyTheThreeRegionsAreWritten := by
  intro s t hs h a htable hpointer hgrid
  rcases step_effect h with ⟨f, o, acts, rfl⟩ | ⟨i, acts, -, heff⟩
  · rfl
  · refine heff.byte_eq (hs.environment s.fault s.oracle acts) fun hw => ?_
    cases hw with
    | slot j lt mem writer last => exact htable (slot_in_table s.params lt mem)
    | pointer writer mem => exact hpointer mem
    | grid writer mem => exact hgrid mem

/-- Settles O45: a change touches neither `ci` nor `FAULT`, so completing adds its one to `ci`. -/
theorem commandsCompleteOrFaultPrecisely : Obligations.CommandsCompleteOrFaultPrecisely := by
  intro i s
  obtain ⟨t, he, heff⟩ := exec_hasEffect i s
  refine ⟨t, he, ?_⟩
  rcases heff with ⟨code, low, high⟩ | ⟨change, events, o, hall, rfl⟩
  · exact .inr ⟨code, low, high, rfl⟩
  · obtain ⟨hci, hfault, -⟩ := change.keeps
    exact .inl ⟨congrArg (· + 1) hci, hfault⟩

/-- Settles O52: under R9 the regions are disjoint, so a byte of one region is written only by that
region's writers. -/
theorem regionsHaveTheirOwnWriters : Obligations.RegionsHaveTheirOwnWriters := by
  intro i s t hs hwf h
  have keep {a : Addr} : ¬ MayWrite s.params i a → t.mem.byte a = s.mem.byte a :=
    (effect_of_exec h).byte_eq hs
  refine ⟨fun hi a ha => keep fun hw => ?_, fun hi a ha => keep fun hw => ?_,
    fun hi a ha => keep fun hw => ?_, fun hi a ha => keep fun hw => ?_⟩
  · cases hw with
    | slot j lt mem writer last => exact Bool.false_ne_true (hi.symm.trans writer)
    | pointer writer mem => exact pointer_apart_table hwf mem ha
    | grid writer mem => exact grid_apart_table hwf mem ha
  · cases hw with
    | slot j lt mem writer last => exact pointer_apart_table hwf ha (slot_in_table _ lt mem)
    | pointer writer mem => exact hi writer
    | grid writer mem => exact grid_apart_pointer hwf mem ha
  · cases hw with
    | slot j lt mem writer last => exact grid_apart_table hwf ha (slot_in_table _ lt mem)
    | pointer writer mem => exact grid_apart_pointer hwf ha mem
    | grid writer mem => exact Bool.false_ne_true (hi.symm.trans writer)
  · have htable : inTable s.params a := slot_in_table _ (by decide) ha
    cases hw with
    | slot j lt mem writer last =>
      have hj : j ≠ 5 := fun h5 => by
        obtain ⟨base, limit, access, flags, hadd⟩ := last h5
        exact hi base limit access flags hadd
      exact slots_disjoint _ lt (by decide) hj ha mem
    | pointer writer mem => exact pointer_apart_table hwf mem htable
    | grid writer mem => exact grid_apart_table hwf mem htable

/-- Settles O53: the one change of `IF` or `GDTR` is the table load of `GDT_INIT`. -/
theorem onlyGdtInitWritesIfAndGdtr : Obligations.OnlyGdtInitWritesIfAndGdtr := by
  intro i s t hi h
  rcases effect_of_exec h with ⟨code, low, high⟩ | ⟨change, events, o, hall, rfl⟩
  · exact ⟨rfl, rfl⟩
  · cases change with
    | load m c g loader writes => exact absurd loader hi
    | _ => exact ⟨rfl, rfl⟩

/-- Settles O54: the one change of `RES` names its four writers. -/
theorem onlyReadersWriteRes : Obligations.OnlyReadersWriteRes := by
  refine ⟨fun i s t h => ?_, fun s => ⟨fun hres => ?_, fun v hres => ?_⟩⟩
  · rcases effect_of_exec h with ⟨code, low, high⟩ | ⟨change, events, o, hall, rfl⟩
    · exact .inl rfl
    · cases change with
      | result v writer => exact .inr writer
      | _ => exact .inl rfl
  · rw [State.readRes, hres]
  · rw [State.readRes, hres]

/-- Settles O55: the one change of the shadows names its writers. -/
theorem shadowWriters : Obligations.ShadowWriters := by
  intro i s t h
  rcases effect_of_exec h with ⟨code, low, high⟩ | ⟨change, events, o, hall, rfl⟩
  · exact .inl ⟨rfl, rfl⟩
  · cases change with
    | shadows m sl writer => exact .inr writer
    | _ => exact .inl ⟨rfl, rfl⟩

theorem termValid_of_exec_termInit {s t : State} (h : exec .termInit s = .next t) :
    t.termValid = true := by
  obtain rfl := Host.Outcome.next.inj h
  rfl

/-- Settles O56: the one change of the terminal keeps `TERM_ATTR` or names its writer, and finds the
terminal valid or is `TERM_INIT`. -/
theorem attributeWriters : Obligations.AttributeWriters := by
  intro i s t h
  refine ⟨?_, fun hi => termValid_of_exec_termInit (hi ▸ h), fun hi => ?_⟩
  · rcases effect_of_exec h with ⟨code, low, high⟩ | ⟨change, events, o, hall, rfl⟩
    · exact .inr (.inr rfl)
    · cases change with
      | screen t m attr valid writes =>
        rcases attr with (hinit | hset) | hkept
        · exact .inl hinit
        · exact .inr (.inl hset)
        · exact .inr (.inr hkept.symm)
      | _ => exact .inr (.inr rfl)
  · rcases effect_of_exec h with ⟨code, low, high⟩ | ⟨change, events, o, hall, rfl⟩
    · rfl
    · cases change with
      | screen t m attr valid writes => exact (valid.resolve_left hi).symm
      | _ => rfl

/-- Settles O58: the accesses of an effect are the command's own, and a fault makes none. -/
theorem eachUnitUsesItsOwnPorts : Obligations.EachUnitUsesItsOwnPorts := by
  intro i s t h
  rcases effect_of_exec h with ⟨code, low, high⟩ | ⟨change, events, o, hall, rfl⟩
  · exact ⟨[], (List.append_nil _).symm, fun _ he => absurd he List.not_mem_nil⟩
  · obtain ⟨-, -, -, -, -, htrace⟩ := change.keeps
    exact ⟨events, congrArg (· ++ events) htrace, hall⟩

/-- Settles O57: an effect appends events and keeps the rest; every other step makes no event. -/
theorem stepKeepsWhatTheBlockDoesNotOwn : Obligations.StepKeepsWhatTheBlockDoesNotOwn := by
  intro s t h
  rcases step_effect h with ⟨f, o, acts, rfl⟩ | ⟨i, acts, -, heff⟩
  · exact ⟨rfl, rfl, rfl, [], (List.append_nil _).symm⟩
  · rcases heff with ⟨code, low, high⟩ | ⟨change, events, o, hall, rfl⟩
    · exact ⟨rfl, rfl, rfl, [], (List.append_nil _).symm⟩
    · obtain ⟨-, -, hsegs, hparams, hstream, htrace⟩ := change.keeps
      exact ⟨hsegs, hparams, hstream, events, congrArg (· ++ events) htrace⟩

/-! ### Answers, the sticky fault, reset -/

/-- Cutting a word to its low byte and extending it again masks it (R81). -/
theorem setWidth_low_byte (v : Word16) : (v.setWidth 8).setWidth 16 = v &&& 0x00FF := by
  apply BitVec.eq_of_toNat_eq
  rw [BitVec.toNat_and, BitVec.toNat_setWidth, BitVec.toNat_setWidth]
  show v.toNat % 2 ^ 8 % 2 ^ 16 = v.toNat &&& (2 ^ 8 - 1)
  rw [Nat.and_two_pow_sub_one_eq_mod]
  omega

/-- Settles O14: the answer, and so the event and `RES`, is the head of the script. -/
theorem anyPortAnswerIsDelivered : Obligations.AnyPortAnswerIsDelivered := by
  intro s port v rest ho
  have hword : s.answerWord port = v := by rw [State.answerWord, ho, answer_scripted]
  have hbyte : s.answerByte port = v.setWidth 8 := by rw [State.answerByte, ho, answer_scripted]
  have hrest : s.oracle.afterRead = .scripted rest := by rw [ho, afterRead_scripted]
  constructor
  · show complete ((s.portReadEvent port (.word (s.answerWord port))).setRes
      (s.answerWord port)) = _
    rw [hword, State.portReadEvent, hrest]
    rfl
  · show complete ((s.portReadEvent port (.byte (s.answerByte port))).setRes
      ((s.answerByte port).setWidth 16)) = _
    rw [hbyte, setWidth_low_byte, State.portReadEvent, hrest]
    rfl

/-- Settles O44: a set `FAULT` is the first thing a step looks at. -/
theorem faultIsSticky : Obligations.FaultIsSticky := by
  intro s f hf
  rw [step, if_pos (by rw [hf]; rfl)]

/-- Settles O48: each value is a field of the launch as written. -/
theorem resetLeavesTheStatedValues : Obligations.ResetLeavesTheStatedValues :=
  ⟨⟨Launch.default, rfl⟩, fun _ =>
    ⟨rfl, rfl, rfl, rfl, rfl, rfl, rfl, rfl, rfl, rfl, rfl, rfl, rfl, rfl⟩⟩

theorem launch_inv {l : Launch} (h : l.mem.wf = true) : (State.launch l).Inv :=
  ⟨h, rfl, rfl, trivial, Nat.zero_le _⟩

/-- Settles O50: the model's own reset is a launch with no byte of memory listed. -/
theorem resetMeetsTheInvariant : Obligations.ResetMeetsTheInvariant :=
  ⟨fun _ => launch_inv, launch_inv reset_memory_wf⟩

end Sys2Proof.Machine
end

