-- ==== Sys2Proof/Proofs/Encoding.lean ====
section
/-! The encoding (30_encoding.md): the decoder and the encoder are inverse (O3, O4) and reject exactly
what R59 and R61 say (O6); the word as a number, as bytes and as text (O5, O7 to O10); the descriptor
format (O16); and what the step does with a rejected or missing word (O2).

The idea of the round trip: `Format.clear` zeroes what a format reserves. A word passes the
must-be-zero check exactly when clearing changes nothing (`reservedClear_iff`), and the command a row of
the opcode map builds has the cleared fields as its own (`fields_build`). -/

namespace Sys2Proof

/-! ### Must-be-zero fields -/

/-- The fields with every must-be-zero bit of the format set to 0 (R57, R59). -/
def Format.clear : Format → Fields → Fields
  | .n, x => ⟨x.op, 0, 0, 0, 0, 0, 0, 0, 0⟩
  | .p, x => ⟨x.op, 0, 0, 0, 0, x.p, 0, 0, 0⟩
  | .pa, x => ⟨x.op, x.a, 0, 0, 0, x.p, 0, 0, 0⟩
  | .ph, x => ⟨x.op, 0, 0, 0, 0, x.p, x.h, 0, 0⟩
  | .a, x => ⟨x.op, x.a, 0, 0, 0, 0, 0, 0, 0⟩
  | .ab, x => ⟨x.op, x.a, x.b, 0, 0, 0, 0, 0, 0⟩
  | .xy, x => ⟨x.op, 0, 0, 0, 0, x.p, x.h, 0, 0⟩
  | .d, x => ⟨x.op, 0, 0, 0, 0, 0, 0, x.d, 0⟩
  | .de, x => ⟨x.op, 0, 0, 0, 0, 0, 0, x.d, x.e⟩
  | .g, x => ⟨x.op, x.a, x.b, x.f, 0, 0, 0, x.d, (x.e.extractLsb' 0 20).setWidth 32⟩

/-- The `E` field of format `G` is its low 20 bits exactly when `E[31:20]` is 0. -/
theorem eq_low20_iff (e : BitVec 32) :
    e = (e.extractLsb' 0 20).setWidth 32 ↔ e.extractLsb' 20 12 = 0#12 := by
  have := e.isLt
  simp only [← BitVec.toNat_inj, BitVec.toNat_setWidth, BitVec.extractLsb'_toNat,
    Nat.shiftRight_eq_div_pow, BitVec.toNat_ofNat]
  omega

theorem low20_setWidth (limit : BitVec 20) : (limit.setWidth 32).extractLsb' 0 20 = limit := by
  rw [BitVec.extractLsb'_setWidth_of_le (by decide), BitVec.extractLsb'_eq_self]

theorem reservedClear_iff (fmt : Format) (x : Fields) :
    fmt.reservedClear x = true ↔ x = fmt.clear x := by
  obtain ⟨op, a, b, f, z, p, h, d, e⟩ := x
  cases fmt <;>
    simp [Format.reservedClear, Format.clear, eq_low20_iff, and_assoc, and_comm, and_left_comm]

/-! ### Rows of the opcode map -/

theorem findRow_some {op : Byte} {r : OpRow} (h : findRow op = some r) :
    r ∈ opcodeMap ∧ r.opcode = op := by
  have hop : (r.opcode == op) = true := List.find?_some (p := fun r : OpRow => r.opcode == op) h
  exact ⟨List.mem_of_find?_eq_some h, eq_of_beq hop⟩

/-- The opcodes outside the map are the gaps R61 lists. -/
theorem findRow_none_iff (op : Byte) : findRow op = none ↔
    (op.toNat = 0x00 ∨ (0x05 ≤ op.toNat ∧ op.toNat ≤ 0x0F) ∨ (0x13 ≤ op.toNat ∧ op.toNat ≤ 0x1F) ∨
      (0x28 ≤ op.toNat ∧ op.toNat ≤ 0x2F) ∨ 0x3A ≤ op.toNat) := by
  have hrows : findRow op = none ↔ ∀ n ∈ opcodeMap.map (·.opcode.toNat), n ≠ op.toNat := by
    simp [findRow, ← BitVec.toNat_inj]
  have hmap : opcodeMap.map (·.opcode.toNat) =
      [0x01, 0x02, 0x03, 0x04, 0x10, 0x11, 0x12, 0x20, 0x21, 0x22, 0x23, 0x24, 0x25, 0x26, 0x27,
        0x30, 0x31, 0x32, 0x33, 0x34, 0x35, 0x36, 0x37, 0x38, 0x39] := rfl
  simp only [hrows, hmap, List.forall_mem_cons, List.not_mem_nil, false_imp_iff, implies_true,
    and_true]
  omega

/-- The command a row builds has the fields it is built from, less the reserved ones (R57, R58). -/
theorem fields_build {r : OpRow} (hr : r ∈ opcodeMap) {x : Fields} (hop : x.op = r.opcode) :
    (r.build x).fields = r.format.clear x := by
  obtain ⟨op, a, b, f, z, p, h, d, e⟩ := x
  subst hop
  fin_cases hr <;> rfl

/-- A command's opcode leads to a row of its format, which builds the command from its fields. -/
theorem row_of_command (i : Instr) :
    ∃ r, findRow i.opcode = some r ∧ r.format = i.format ∧ r.build i.fields = i := by
  cases i with
  | gdtAdd slot base limit access flags =>
    exact ⟨_, rfl, rfl, congrArg (Instr.gdtAdd slot base · access flags) (low20_setWidth limit)⟩
  | _ => exact ⟨_, rfl, rfl, rfl⟩

theorem clear_fields (i : Instr) : i.format.clear i.fields = i.fields := by
  cases i with
  | gdtAdd slot base limit access flags =>
    simp only [Instr.format, Instr.fields, Format.clear, low20_setWidth]
  | _ => rfl

/-- Every command's operands fit their fields (R60). -/
theorem Instr.wellFormed (i : Instr) : i.WellFormed = true := by
  show operandsFit i.format.widths i.operands = true
  cases i <;> (repeat refine Laws.fits_cons _ ?_) <;> rfl

/-! ### The decoder's three answers -/

section
variable {w : CommandWord}

theorem decode_of_row {r : OpRow} (h : findRow (Fields.ofWord w).op = some r) :
    decode w = if r.format.reservedClear (Fields.ofWord w) then .ok (r.build (Fields.ofWord w))
      else .error .reservedField := by
  simp only [decode, h]

theorem decode_of_no_row (h : findRow (Fields.ofWord w).op = none) :
    decode w = .error .illegalOpcode := by
  simp only [decode, h]

theorem decode_ok_iff {i : Instr} : decode w = .ok i ↔
    ∃ r, findRow (Fields.ofWord w).op = some r ∧ r.format.reservedClear (Fields.ofWord w) = true ∧
      r.build (Fields.ofWord w) = i := by
  cases h : findRow (Fields.ofWord w).op with
  | none => simp [decode_of_no_row h]
  | some r => cases hc : r.format.reservedClear (Fields.ofWord w) <;> simp [decode_of_row h, hc]

theorem decode_reserved_iff : decode w = .error .reservedField ↔
    ∃ r, findRow (Fields.ofWord w).op = some r ∧
      ¬ r.format.reservedClear (Fields.ofWord w) = true := by
  cases h : findRow (Fields.ofWord w).op with
  | none => simp [decode_of_no_row h]
  | some r => cases hc : r.format.reservedClear (Fields.ofWord w) <;> simp [decode_of_row h, hc]

theorem decode_illegal_iff : decode w = .error .illegalOpcode ↔
    findRow (Fields.ofWord w).op = none := by
  cases h : findRow (Fields.ofWord w).op with
  | none => simp [decode_of_no_row h]
  | some r => cases hc : r.format.reservedClear (Fields.ofWord w) <;> simp [decode_of_row h, hc]

end

/-! ### The round trip -/

/-- Settles O3: the row of a command builds it again from its fields, none of which is reserved. -/
theorem decodeOfEncodeIsTheCommand : Obligations.DecodeOfEncodeIsTheCommand := by
  intro i
  obtain ⟨r, hrow, hfmt, hbuild⟩ := row_of_command i
  rw [decode_ok_iff, encode, Fields.ofWord_toWord]
  exact ⟨r, hrow, by rw [hfmt, reservedClear_iff, clear_fields], hbuild⟩

/-- Settles O4: the built command has the cleared fields of the word, which are the word's own. -/
theorem encodeOfDecodeIsTheWord : Obligations.EncodeOfDecodeIsTheWord := by
  intro w i h
  obtain ⟨r, hrow, hclear, rfl⟩ := decode_ok_iff.1 h
  obtain ⟨hmem, hop⟩ := findRow_some hrow
  rw [encode, fields_build hmem hop.symm, ← (reservedClear_iff _ _).1 hclear, Fields.toWord_ofWord]

/-! ### The rejections -/

theorem and_high12_eq_zero_iff (e : BitVec 32) :
    e &&& 0xFFF00000#32 = 0#32 ↔ e.extractLsb' 20 12 = 0#12 := by
  have hsplit : e = e.extractLsb' 20 12 ++ e.extractLsb' 0 20 :=
    (BitVec.extractLsb'_append_extractLsb' (w := 12) (len := 20)).symm
  have hmask : 0xFFF00000#32 = BitVec.allOnes 12 ++ 0#20 := by decide
  have hand : e &&& 0xFFF00000#32 = e.extractLsb' 20 12 ++ 0#20 := by
    conv_lhs => rw [hsplit, hmask, BitVec.and_append, BitVec.and_allOnes, BitVec.and_zero]
  rw [hand]
  exact BitVec.append_left_inj (s₂ := 0#12) 0#20

/-- The must-be-zero check of R59 is the table's mask, less its opcode byte. -/
theorem masked_reserved_eq_zero_iff (fmt : Format) (w : CommandWord) :
    w &&& fmt.mask &&& 0xFFFFFFFFFFFFFFFFFFFFFFFFFFFFFF00 = 0 ↔
      fmt.reservedClear (Fields.ofWord w) = true := by
  have hzero (v : CommandWord) : v = 0 ↔ Fields.ofWord v = Fields.ofWord 0 :=
    ⟨congrArg _, Laws.ofWord_injective⟩
  have h4 (v : BitVec 4) : v &&& 15#4 = v := BitVec.and_allOnes
  have h8 (v : BitVec 8) : v &&& 255#8 = v := BitVec.and_allOnes
  have h16 (v : BitVec 16) : v &&& 65535#16 = v := BitVec.and_allOnes
  have h32 (v : BitVec 32) : v &&& 4294967295#32 = v := BitVec.and_allOnes
  have hhigh (e : BitVec 32) :
      e &&& 4293918720#32 = 0#32 ↔ e = (e.extractLsb' 0 20).setWidth 32 :=
    (and_high12_eq_zero_iff e).trans (eq_low20_iff e).symm
  rw [hzero, Laws.ofWord_and, Laws.ofWord_and, reservedClear_iff]
  generalize Fields.ofWord w = x
  obtain ⟨op, a, b, f, z, p, h, d, e⟩ := x
  cases fmt <;> simp [Format.mask, Fields.ofWord, Format.clear, h4, h8, h16, h32, hhigh]

/-- Settles O6: the illegal opcodes are the gaps of the map, and the reserved bits are the masks'. -/
theorem illegalAndReservedEncodings : Obligations.IllegalAndReservedEncodings := by
  refine ⟨fun w => ?_, rfl, fun w => ?_⟩
  · have hop : (Fields.ofWord w).op.toNat = w.toNat % 256 := rfl
    rw [decode_illegal_iff, findRow_none_iff, hop]
  · have hop : (Fields.ofWord w).op = w.setWidth 8 :=
      (BitVec.setWidth_eq_extractLsb' (by decide)).symm
    simp only [decode_reserved_iff, hop, ne_eq, masked_reserved_eq_zero_iff]

/-! ### The word as bytes and as a number -/

/-- The bytes of an `n + 1`-byte word are its low byte, then the bytes of the rest. -/
theorem bytes_succ (n : Nat) (w : BitVec (8 * (n + 1))) :
    (List.range (n + 1)).map (fun i => w.extractLsb' (8 * i) 8) =
      w.extractLsb' 0 8 ::
        (List.range n).map (fun i => (w.extractLsb' 8 (8 * n)).extractLsb' (8 * i) 8) := by
  rw [List.range_succ_eq_map, List.map_cons, List.map_map]
  congr 1
  refine List.map_congr_left fun i hi => BitVec.eq_of_getLsbD_eq fun j hj => ?_
  have hi : i < n := List.mem_range.1 hi
  have hin : 8 * i + j < 8 * n := by omega
  have hbit : 8 * (i + 1) + j = 8 + (8 * i + j) := by omega
  simp only [Function.comp_apply, Nat.succ_eq_add_one, BitVec.getLsbD_extractLsb',
    decide_eq_true hin, Bool.true_and, hbit]

/-- Reading `n` little-endian bytes of a word gives the word and leaves what follows (R56). -/
theorem leWord_bytes (rest : List Byte) : ∀ (n : Nat) (w : BitVec (8 * n)),
    leWord n ((List.range n).map (fun i => w.extractLsb' (8 * i) 8) ++ rest) = some (w, rest)
  | 0, w => congrArg (fun v => some (v, rest)) (Subsingleton.elim (0#0) w)
  | n + 1, w => by
    rw [bytes_succ, List.cons_append, leWord, leWord_bytes rest n]
    exact congrArg (fun v => some (v, rest)) BitVec.extractLsb'_append_extractLsb'

/-- Settles O8: the 16 bytes are read back as the word they are taken from. -/
theorem bytesCarryTheWord : Obligations.BytesCarryTheWord := by
  intro w rest
  simp only [decodeBytes, wordBytes, leWord_bytes rest 16 w]
  cases decode w <;> rfl

theorem toNat_setWidth_limit (limit : BitVec 20) : (limit.setWidth 32).toNat = limit.toNat :=
  BitVec.toNat_setWidth_of_le (by decide)

/-- Settles O5: the number of a word is the sum of its fields at their places. -/
theorem commandWordsLayOutTheirFields : Obligations.CommandWordsLayOutTheirFields := by
  unfold Obligations.CommandWordsLayOutTheirFields
  simp only [encode, Fields.toWord_toNat, Instr.fields, toNat_setWidth_limit]
  refine ⟨?_, ?_, ?_, ?_, ?_, ?_, ?_, ?_, ?_, ?_, ?_, ?_, ?_, by decide⟩ <;> simp

/-- Settles O7: each of the ten words decodes as written. -/
theorem sampleWordsDecode : Obligations.SampleWordsDecode := by
  unfold Obligations.SampleWordsDecode
  decide

namespace Machine

/-! ### The assembler -/

theorem opcodeOf_mnemonic : ∀ r ∈ opcodeMap, opcodeOf r.mnemonic.toList = some r.opcode := by
  decide

/-- A command's mnemonic with operand values: they must fit, and the command's row builds it. -/
theorem assemble_mnemonicOf (i : Instr) (values : List Nat) :
    ∃ r : OpRow, r.build i.fields = i ∧ assemble (mnemonicOf i).toList values =
      if operandsFit i.format.widths values then
        (placeOperands i.opcode i.format values).map r.build
      else none := by
  obtain ⟨r, hrow, hfmt, hbuild⟩ := row_of_command i
  obtain ⟨hmem, hop⟩ := findRow_some hrow
  have hmnemonic : opcodeOf (mnemonicOf i).toList = some i.opcode := by
    simp only [mnemonicOf, hrow, opcodeOf_mnemonic r hmem, hop]
  refine ⟨r, hbuild, ?_⟩
  simp only [assemble, hmnemonic, assembleOp, hrow, hfmt]

theorem placeOperands_operands (i : Instr) :
    placeOperands i.opcode i.format i.operands = some i.fields := by
  cases i <;> simp [placeOperands, Instr.format, Instr.operands, Instr.opcode, Instr.fields]

theorem assemble_operands (i : Instr) :
    assemble (mnemonicOf i).toList i.operands = some i := by
  obtain ⟨r, hbuild, hasm⟩ := assemble_mnemonicOf i i.operands
  have hfit : operandsFit i.format.widths i.operands = true := i.wellFormed
  rw [hasm, if_pos hfit, placeOperands_operands, Option.map_some, hbuild]

/-- Settles O9: a command's own operands fit and are placed as its fields; a list that does not fit is
refused before it is placed. -/
theorem assemblerGivesEveryCommand : Obligations.AssemblerGivesEveryCommand := by
  refine ⟨assemble_operands, fun i values hfit => ?_⟩
  obtain ⟨r, -, hasm⟩ := assemble_mnemonicOf i values
  rw [hasm, if_neg (by simp [hfit])]

/-- `GDT_NULL slot` is `GDT_ADD slot, 0, 0, 0, 0` (R64). -/
theorem assemble_gdtNull {slot : Nat} (h : slot < 256) :
    assemble "GDT_NULL".toList [slot] = some (.gdtAdd (BitVec.ofNat 8 slot) 0 0 0 0) := by
  have hoperands : (Instr.gdtAdd (BitVec.ofNat 8 slot) 0 0 0 0).operands = [slot, 0, 0, 0, 0] := by
    simp [Instr.operands, Nat.mod_eq_of_lt h]
  have hmnemonic : mnemonicOf (.gdtAdd (BitVec.ofNat 8 slot) 0 0 0 0) = "GDT_ADD" := rfl
  have hexpand : assemble "GDT_NULL".toList [slot] =
      assemble "GDT_ADD".toList [slot, 0, 0, 0, 0] := rfl
  rw [hexpand, ← hmnemonic, ← hoperands, assemble_operands]

/-- Settles O10: each pseudo-instruction and symbol by evaluation, `GDT_NULL` for every slot that fits
its field. -/
theorem pseudoInstructionsAndSelectors : Obligations.PseudoInstructionsAndSelectors := by
  refine ⟨fun _ => assemble_gdtNull, by decide, by decide, by decide, by decide, by decide,
    by decide, by decide, rfl, rfl, rfl, rfl, fun slot h => ?_⟩
  interval_cases slot <;> decide

/-! ### Descriptors -/

theorem Descriptor.pack_base (d : Descriptor) :
    d.pack.extractLsb' 56 8 ++ d.pack.extractLsb' 16 24 = d.base := by
  have := d.base.isLt
  obtain ⟨-, -, base0, base1, base2, -, -, base3⟩ := d.pack_bytes
  simp only [← BitVec.toNat_inj, toNat_append_mul, BitVec.extractLsb'_toNat,
    Nat.shiftRight_eq_div_pow] at base0 base1 base2 base3 ⊢
  omega

theorem Descriptor.pack_limit (d : Descriptor) :
    d.pack.extractLsb' 48 4 ++ d.pack.extractLsb' 0 16 = d.limit := by
  have := d.limit.isLt
  obtain ⟨limit0, limit1, -, -, -, -, limit2, -⟩ := d.pack_bytes
  simp only [← BitVec.toNat_inj, toNat_append_mul, BitVec.extractLsb'_toNat,
    Nat.shiftRight_eq_div_pow] at limit0 limit1 limit2 ⊢
  omega

theorem Descriptor.pack_access (d : Descriptor) : d.pack.extractLsb' 40 8 = d.access := by
  obtain ⟨-, -, -, -, -, access, -, -⟩ := d.pack_bytes
  exact access

theorem Descriptor.pack_flags (d : Descriptor) : d.pack.extractLsb' 52 4 = d.flags := by
  obtain ⟨-, -, -, -, -, -, flags, -⟩ := d.pack_bytes
  simp only [← BitVec.toNat_inj, toNat_append_mul, BitVec.extractLsb'_toNat,
    Nat.shiftRight_eq_div_pow] at flags ⊢
  omega

theorem Descriptor.pack_unpack (v : BitVec 64) : (Descriptor.unpack v).pack = v := by
  have := v.isLt
  apply BitVec.eq_of_toNat_eq
  simp only [Descriptor.pack_toNat, Descriptor.unpack, toNat_append_mul, BitVec.extractLsb'_toNat,
    Nat.shiftRight_eq_div_pow]
  omega

/-- Settles O16: `unpack` reads each field where `pack` puts it, and `pack` covers all 64 bits. -/
theorem packAndUnpackAreInverse : Obligations.PackAndUnpackAreInverse := by
  refine ⟨fun d => ?_, Descriptor.pack_unpack⟩
  rw [Descriptor.unpack, d.pack_base, d.pack_limit, d.pack_access, d.pack_flags]

/-! ### The step on a rejected or missing word -/

/-- Settles O2: the environment with no choice is idle, so the step is what the fetch says. -/
theorem rejectedWordFaultsAndNoWordWaits : Obligations.RejectedWordFaultsAndNoWordWaits := by
  intro s hf hwf henv
  have hidle : s.environment = .idle s := by rw [State.environment, henv]
  refine ⟨fun w r hw hr => ?_, fun hlen => ?_⟩
  · have hfetch : s.fetch = .reject (rejectCode r) w := fetch_reject.2 ⟨hw, r, hr, rfl⟩
    rw [step_idle hf hwf hidle, hfetch]
    cases r <;> rfl
  · rw [step_idle hf hwf hidle, fetch_wait.2 hlen]

end Machine

end Sys2Proof
end

