-- ==== Sys2Proof/Proofs/Port.lean ====
section
/-! The port I/O primitives (40_portio.md): `OUTB` and `OUTW` (O11), `INB` (O12), `INW` (O13). Each is
one port access, then `RES` for a read, then `ci`; the access and completing have their records. -/

namespace Sys2Proof.Machine

/-! ### The word accesses -/

/-- A word write: one event of width 2 (R36). -/
theorem portWriteWord_record (s : State) (port : Port) (v : Word16) :
    s.portWriteWord port v = { s with
      trace := s.trace ++ [.write port (.word v)]
      oracle := s.oracle.afterWrite port (.word v) } := rfl

/-- A word read: one event of width 2 that carries the answer (R36, R37). -/
theorem portReadWord_record (s : State) (port : Port) :
    s.portReadWord port = (s.answerWord port, { s with
      trace := s.trace ++ [.read port (.word (s.answerWord port))]
      oracle := s.oracle.afterRead }) := rfl

/-! ### The four primitives as accesses -/

theorem exec_outb (port : Port) (value : Byte) (s : State) :
    exec (.outb port value) s = complete (s.portWriteByte port value) := rfl

theorem exec_outw (port : Port) (value : Word16) (s : State) :
    exec (.outw port value) s = complete (s.portWriteWord port value) := rfl

theorem exec_inb (port : Port) (s : State) : exec (.inb port) s =
    complete ((s.portReadByte port).2.setRes ((s.portReadByte port).1.setWidth 16)) := rfl

theorem exec_inw (port : Port) (s : State) : exec (.inw port) s =
    complete ((s.portReadWord port).2.setRes (s.portReadWord port).1) := rfl

/-! ### The zero-extended byte -/

/-- Extending a byte puts a zero byte above it (R81). -/
theorem setWidth_byte_eq_append (v : Byte) : v.setWidth 16 = 0#8 ++ v :=
  BitVec.setWidth_eq_append (by decide)

theorem setWidth_byte_low (v : Byte) : (v.setWidth 16).extractLsb' 0 8 = v := by
  rw [setWidth_byte_eq_append, BitVec.extractLsb'_append_eq_right]

theorem setWidth_byte_high (v : Byte) : (v.setWidth 16).extractLsb' 8 8 = 0 := by
  rw [setWidth_byte_eq_append, BitVec.extractLsb'_append_eq_left, BitVec.ofNat_eq_ofNat]

/-! ### The obligations -/

/-- Settles O11: each is its one write, completed. -/
theorem portWritesAreOneEvent : Obligations.PortWritesAreOneEvent := by
  constructor
  · intro s port value
    rw [exec_outb, portWriteByte_record, complete_eq]
  · intro s port value
    rw [exec_outw, portWriteWord_record, complete_eq]

/-- Settles O12: the byte read's answer, zero-extended, is what `RES` is set to. -/
theorem inbReadsOneByte : Obligations.InbReadsOneByte := by
  intro s port
  refine ⟨s.answerByte port, (s.answerByte port).setWidth 16, rfl, setWidth_byte_low _,
    setWidth_byte_high _, ?_⟩
  rw [exec_inb, portReadByte_record, State.setRes, complete_eq]

/-- Settles O13: the word read's answer is what `RES` is set to. -/
theorem inwReadsOneWord : Obligations.InwReadsOneWord := by
  intro s port
  refine ⟨s.answerWord port, rfl, ?_⟩
  rw [exec_inw, portReadWord_record, State.setRes, complete_eq]

end Sys2Proof.Machine
end

