-- ==== Sys2Proof/Proofs/Gdt.lean ====
section
/-! The GDT unit (41_gdt.md): `GDT_ADD` (O15), `GDT_INIT_DEFAULTS` (O17) and `GDT_INIT` (O18, O19).
Each command is a record of the state it leaves; what its memory holds is a fact about the two
memories `defaultsMem` and `gdtInitMem`. A second `GDT_INIT` stores what already stands in memory,
and storing what a read gives changes nothing. -/

namespace Sys2Proof.Machine

/-! ### Storing what is already there -/

theorem Memory.setByte_byte (m : Memory) (a : Addr) (h : m.wf = true) :
    m.setByte a (m.byte a) = m := by
  refine Memory.ext_byte _ _ (Memory.wf_setByte m a _ h) h fun x => ?_
  by_cases hx : x = a
  · rw [hx, Memory.byte_setByte_same m a _ h]
  · exact Memory.byte_setByte_ne m _ hx

/-- Storing what a read gives changes nothing, in canonical memory. -/
theorem Memory.write_read_self (n : Nat) : ∀ (m : Memory) (a : Addr), m.wf = true →
    m.write a n (m.read a n) = m := by
  induction n with
  | zero => exact fun m a _ => rfl
  | succ n ih =>
    intro m a h
    have low : (m.read a (n + 1)).setWidth 8 = m.byte a := BitVec.setWidth_append_eq_right
    have rest : (m.read a (n + 1) >>> 8).setWidth (8 * n) = m.read (a + 1) n := by
      ext i hi
      rw [BitVec.getElem_setWidth, BitVec.getLsbD_ushiftRight, Memory.read, BitVec.getLsbD_append]
      simp [hi]
    rw [Memory.write, low, rest, Memory.setByte_byte m a h, ih m (a + 1) h]

theorem Memory.write_eq_self {n : Nat} {m : Memory} {a : Addr} {v : BitVec (8 * n)}
    (h : m.wf = true) (hr : m.read a n = v) : m.write a n v = m :=
  hr ▸ Memory.write_read_self n m a h

/-! ### The default table -/

/-- Slots 0 to 4 hold the 64-bit descriptors of R85. -/
structure HoldsDefaults (table : Addr) (m : Memory) : Prop where
  null : m.read (slotAddr table 0) 8 = 0x0000000000000000#64
  kernelCode : m.read (slotAddr table 1) 8 = 0x00CF9A000000FFFF#64
  kernelData : m.read (slotAddr table 2) 8 = 0x00CF92000000FFFF#64
  userCode : m.read (slotAddr table 3) 8 = 0x00CFFA000000FFFF#64
  userData : m.read (slotAddr table 4) 8 = 0x00CFF2000000FFFF#64

/-- The descriptors of R85 as 64-bit values. -/
theorem default_packs :
    nullDescriptor.pack = 0x0000000000000000#64 ∧ kernelCode.pack = 0x00CF9A000000FFFF#64 ∧
      kernelData.pack = 0x00CF92000000FFFF#64 ∧ userCode.pack = 0x00CFFA000000FFFF#64 ∧
      userData.pack = 0x00CFF2000000FFFF#64 := by decide

theorem defaultsMem_holdsDefaults (table : Addr) {m : Memory} (h : m.wf = true) :
    HoldsDefaults table (defaultsMem table m) := by
  obtain ⟨p0, p1, p2, p3, p4⟩ := default_packs
  obtain ⟨s0, s1, s2, s3, s4⟩ := defaultsMem_slots table m h
  exact ⟨s0.trans p0, s1.trans p1, s2.trans p2, s3.trans p3, s4.trans p4⟩

/-- Writing the defaults over the defaults changes nothing. -/
theorem HoldsDefaults.defaultsMem_eq {table : Addr} {m : Memory} (held : HoldsDefaults table m)
    (h : m.wf = true) : defaultsMem table m = m := by
  obtain ⟨p0, p1, p2, p3, p4⟩ := default_packs
  rw [defaultsMem, Memory.write_eq_self h (held.null.trans p0.symm),
    Memory.write_eq_self h (held.kernelCode.trans p1.symm),
    Memory.write_eq_self h (held.kernelData.trans p2.symm),
    Memory.write_eq_self h (held.userCode.trans p3.symm),
    Memory.write_eq_self h (held.userData.trans p4.symm)]

/-! ### The table and its pointer -/

/-- The pointer region holds limit 47 and the table's address (R70, R88). -/
structure HoldsPointer (p : Config.Params) (m : Memory) : Prop where
  limit : m.read p.gdtPtrAddr 2 = 47#16
  base : m.read (p.gdtPtrAddr + 2) 4 = p.gdtTableAddr

/-- Storing the pointer over itself changes nothing. -/
theorem HoldsPointer.storePointer_mem {s : State} (held : HoldsPointer s.params s.mem)
    (h : s.mem.wf = true) : (storePointer s).mem = s.mem := by
  show (s.mem.write s.params.gdtPtrAddr 2 47#16).write (s.params.gdtPtrAddr + 2) 4
    s.params.gdtTableAddr = s.mem
  rw [Memory.write_eq_self h held.limit, Memory.write_eq_self h held.base]

/-- The memory `GDT_INIT` leaves: the pointer is stored, then the defaults (R88).
Irreducible, so that comparing two states does not compute the stores. -/
@[irreducible] def gdtInitMem (s : State) : Memory :=
  defaultsMem s.params.gdtTableAddr (storePointer s).mem

theorem wf_gdtInitMem {s : State} (h : s.mem.wf = true) : (gdtInitMem s).wf = true := by
  rw [gdtInitMem]
  exact wf_defaultsMem _ _ (wf_storePointer s h)

theorem gdtInitMem_holdsDefaults {s : State} (h : s.mem.wf = true) :
    HoldsDefaults s.params.gdtTableAddr (gdtInitMem s) := by
  rw [gdtInitMem]
  exact defaultsMem_holdsDefaults _ (wf_storePointer s h)

/-- Under R9 the defaults, stored last, leave the pointer as it was stored. -/
theorem gdtInitMem_holdsPointer {s : State} (hp : s.params.wf = true) (h : s.mem.wf = true) :
    HoldsPointer s.params (gdtInitMem s) := by
  obtain ⟨limit, base⟩ := storePointer_reads s h
  have two_add (i : Nat) : s.params.gdtPtrAddr + 2 + BitVec.ofNat 32 i =
      s.params.gdtPtrAddr + BitVec.ofNat 32 (2 + i) := by
    rw [BitVec.add_assoc, BitVec.ofNat_add]; rfl
  constructor
  · rw [gdtInitMem, defaultsMem_pointer _ hp _ _ _ fun i hi => ?_, limit]
    · rfl
    · exact inRange_add (show i < 6 by omega) (by decide)
  · rw [gdtInitMem, defaultsMem_pointer _ hp _ _ _ fun i hi => ?_, base]
    rw [two_add]
    exact inRange_add (show 2 + i < 6 by omega) (by decide)

theorem gdtInitMem_outside (s : State) {a : Addr} (hptr : ¬ inPointer s.params a)
    (hslots : ∀ i : Byte, i.toNat < 5 → ¬ inRange (slotAddr s.params.gdtTableAddr i) 8 a) :
    (gdtInitMem s).byte a = s.mem.byte a := by
  rw [gdtInitMem, defaultsMem_outside _ _ a hslots, storePointer_outside s a hptr]

/-- Where pointer and table already stand, `GDT_INIT` leaves memory as it is. -/
theorem gdtInitMem_eq_self {s : State} (h : s.mem.wf = true) (hptr : HoldsPointer s.params s.mem)
    (htable : HoldsDefaults s.params.gdtTableAddr s.mem) : gdtInitMem s = s.mem := by
  rw [gdtInitMem, hptr.storePointer_mem h, htable.defaultsMem_eq h]

/-! ### The commands -/

/-- `GDT_ADD` on a slot of the table is one 8-byte store and one count (R84). -/
theorem exec_gdtAdd_of_lt {slot : Byte} (base : Addr) (limit : BitVec 20) (access : Byte)
    (flags : BitVec 4) (s : State) (h : slot.toNat < 6) :
    exec (.gdtAdd slot base limit access flags) s = .next { s with
      mem := s.mem.write (slotAddr s.params.gdtTableAddr slot) 8
        ({ base, limit, access, flags } : Descriptor).pack
      gdtCount := s.gdtCount + 1
      ci := s.ci + 1 } := by
  show execGdtAdd slot base limit access flags s = _
  rw [execGdtAdd, if_neg (show ¬ slot.toNat ≥ Config.gdtCap from Nat.not_le.2 h), gdtAddBody,
    storeDescriptor_eq_write, complete_eq]

theorem exec_gdtAdd_of_le {slot : Byte} (base : Addr) (limit : BitVec 20) (access : Byte)
    (flags : BitVec 4) (s : State) (h : 6 ≤ slot.toNat) :
    exec (.gdtAdd slot base limit access flags) s =
      .next (s.faulted .slotRange (.gdtAdd slot base limit access flags)) := by
  show execGdtAdd slot base limit access flags s = _
  rw [execGdtAdd, if_pos (show slot.toNat ≥ Config.gdtCap from h), fail_eq]

theorem exec_gdtInitDefaults (s : State) : exec .gdtInitDefaults s = .next { s with
    mem := defaultsMem s.params.gdtTableAddr s.mem
    gdtCount := s.gdtCount + 5
    ci := s.ci + 1 } := by
  show execGdtInitDefaults s = _
  rw [execGdtInitDefaults, gdtDefaultsBody_eq, complete_eq]

/-- `GDT_INIT` loads `GDTR` from the pointer as its stores leave it (R87, R88). -/
theorem gdtr_of_execGdtInit {s t : State} (h : execGdtInit s = .next t) :
    t.gdtr = { base := t.mem.read (s.params.gdtPtrAddr + 2) 4
               limit := t.mem.read s.params.gdtPtrAddr 2 } := by
  have params : (gdtDefaultsBody (storePointer (s.setIF false))).params = s.params := by
    rw [gdtDefaultsBody_eq]; rfl
  change complete (((gdtDefaultsBody (storePointer (s.setIF false))).loadGdt _).setIF true) =
    .next t at h
  rw [params, complete_eq, Host.Outcome.next.injEq] at h
  rw [← h]
  generalize gdtDefaultsBody _ = b
  rfl

/-- The state `GDT_INIT` leaves under R9 (R88). -/
def gdtInitState (s : State) : State :=
  { s with
    mem := gdtInitMem s
    gdtCount := s.gdtCount + 5
    gdtr := { base := s.params.gdtTableAddr, limit := 47 }
    ifFlag := true
    ci := s.ci + 1 }

theorem exec_gdtInit {s : State} (hp : s.params.wf = true) (h : s.mem.wf = true) :
    exec .gdtInit s = .next (gdtInitState s) := by
  obtain ⟨limit, base⟩ := gdtInitMem_holdsPointer hp h
  obtain ⟨g, record⟩ := execGdtInit_record s
  rw [complete_eq, ← gdtInitMem] at record
  have loaded := gdtr_of_execGdtInit record
  simp only [limit, base] at loaded
  show execGdtInit s = _
  rw [record, loaded]
  rfl

/-- A second `GDT_INIT` finds pointer and table in memory, so it counts and nothing else (R88). -/
theorem gdtInitState_gdtInitState {s : State} (hp : s.params.wf = true) (h : s.mem.wf = true) :
    gdtInitState (gdtInitState s) =
      { gdtInitState s with gdtCount := s.gdtCount + 10, ci := s.ci + 2 } := by
  have mem : gdtInitMem (gdtInitState s) = gdtInitMem s :=
    gdtInitMem_eq_self (wf_gdtInitMem h) (gdtInitMem_holdsPointer hp h) (gdtInitMem_holdsDefaults h)
  have count : s.gdtCount + 5 + 5 = s.gdtCount + 10 := BitVec.add_assoc _ _ _
  rw [gdtInitState, mem, ← count]
  rfl

/-! ### The obligations -/

/-- Settles O15: below slot 6 the command is one store, which reads back as stored. -/
theorem gdtAddStoresDescriptor : Obligations.GdtAddStoresDescriptor := by
  intro s slot base limit access flags
  refine ⟨fun hslot hmem => ⟨_, exec_gdtAdd_of_lt base limit access flags s hslot, ?_, ?_⟩,
    exec_gdtAdd_of_le base limit access flags s⟩
  · exact Memory.read_write_same 8 _ _ _ (by decide) hmem
  · exact fun a ha => Memory.byte_write_outside _ _ _ _ a ha

/-- Settles O17: the memory left is the one the five stores give. -/
theorem gdtInitDefaultsWritesFiveSlots : Obligations.GdtInitDefaultsWritesFiveSlots := by
  intro s hmem
  obtain ⟨null, kcode, kdata, ucode, udata⟩ :=
    defaultsMem_holdsDefaults s.params.gdtTableAddr hmem
  exact ⟨_, exec_gdtInitDefaults s, null, kcode, kdata, ucode, udata, defaultsMem_outside _ _⟩

/-- Settles O18: the pointer and the table are stored apart (R9), so `GDTR` loads what it stored. -/
theorem gdtInitBuildsAndLoadsTheTable : Obligations.GdtInitBuildsAndLoadsTheTable := by
  intro s hparams hmem
  obtain ⟨limit, base⟩ := gdtInitMem_holdsPointer hparams hmem
  obtain ⟨null, kcode, kdata, ucode, udata⟩ := gdtInitMem_holdsDefaults hmem
  exact ⟨_, exec_gdtInit hparams hmem, limit, base, null, kcode, kdata, ucode, udata,
    fun _ => gdtInitMem_outside s⟩

/-- Settles O19: memory after the first command already holds what the second one stores. -/
theorem gdtInitTwiceChangesOnlyTheCount : Obligations.GdtInitTwiceChangesOnlyTheCount := by
  intro s hparams hmem
  have first := exec_gdtInit hparams hmem
  have second : exec .gdtInit (gdtInitState s) = .next (gdtInitState (gdtInitState s)) :=
    exec_gdtInit hparams (wf_gdtInitMem hmem)
  refine ⟨_, first, ?_⟩
  rw [← gdtInitState_gdtInitState hparams hmem]
  simp only [performAll, first, second]

end Sys2Proof.Machine
end

