-- ==== Sys2Proof/Proofs/Pic.lean ====
section
/-! The PIC unit (42_pic.md), O20 to O29, and the port accesses every completed command makes (O59).
Each sequence of accesses is a list of events (`State.afterEvents`): a command's next state is the
state after its events, its own registers set. What the list does to the trace, and to the reference
devices behind the ports, is said once for every list. -/

namespace Sys2Proof.Machine

/-! ### Accesses as a list of events -/

/-- The state after one access, which transferred the event's value. -/
def State.afterEvent (s : State) : PortEvent → State
  | .read port v => s.portReadEvent port v
  | .write port v => s.portWrite port v

/-- The state after the accesses of a list, in order. -/
def State.afterEvents (s : State) (events : List PortEvent) : State :=
  events.foldl State.afterEvent s

theorem State.afterEvent_eq (s : State) (e : PortEvent) : s.afterEvent e =
    { s with trace := s.trace ++ [e], oracle := (s.afterEvent e).oracle } := by
  cases e <;> rfl

/-- Accesses append their events to the trace and move the oracle, and that is all (R36). -/
theorem State.afterEvents_eq (events : List PortEvent) : ∀ s : State, s.afterEvents events =
    { s with trace := s.trace ++ events, oracle := (s.afterEvents events).oracle } := by
  induction events with
  | nil => exact fun s => by rw [List.append_nil]; rfl
  | cons e events ih =>
    intro s
    have step : s.afterEvents (e :: events) = (s.afterEvent e).afterEvents events := rfl
    have trace : (s.afterEvent e).trace ++ events = s.trace ++ e :: events := by
      rw [s.afterEvent_eq e, List.append_assoc, List.singleton_append]
    rw [step, ih, trace, s.afterEvent_eq e]

/-- A command whose registers are set and whose accesses are made completes (R18, R36). -/
theorem complete_afterEvents (s : State) (events : List PortEvent) :
    complete (s.afterEvents events) = .next { s with
      trace := s.trace ++ events
      oracle := (s.afterEvents events).oracle
      ci := s.ci + 1 } := by
  rw [complete_eq, s.afterEvents_eq]

theorem State.afterEvents_trace (s : State) (events : List PortEvent) :
    (s.afterEvents events).trace = s.trace ++ events := by
  rw [s.afterEvents_eq]

/-- What an access does to the reference devices: a read leaves them as they are (R128, R129). -/
def RefDevices.afterEvent (d : RefDevices) : PortEvent → RefDevices
  | .read _ _ => d
  | .write port v => d.write port v

/-- Reference devices behind the ports stay there, and take every access. -/
theorem State.afterEvents_reference (events : List PortEvent) : ∀ {s : State} {d : RefDevices},
    s.oracle = .reference d →
    (s.afterEvents events).oracle = .reference (events.foldl RefDevices.afterEvent d) := by
  induction events with
  | nil => exact fun h => h
  | cons e events ih =>
    intro s d h
    refine ih (s := s.afterEvent e) ?_
    cases e with
    | read port v => exact congrArg PortOracle.afterRead h
    | write port v => exact congrArg (PortOracle.afterWrite · port v) h

/-- The byte read of a port whose device answers is that device's byte. -/
theorem answerByte_reference {s : State} {d : RefDevices} {port : Port} {v : Byte}
    (h : s.oracle = .reference d) (hv : d.readByte port = some v) : s.answerByte port = v := by
  rw [State.answerByte, h]
  show (((d.readByte port).map (BitVec.setWidth 16)).getD _).setWidth 8 = v
  rw [hv]
  exact BitVec.setWidth_setWidth_of_le v (by decide)

/-! ### The commands as events -/

/-- The answer to a first read of the master's mask register. -/
def State.masterMask (s : State) : Byte := s.answerByte 0x0021

/-- The answer to a read of the slave's mask register, made after the read of the master's. -/
def State.slaveMask (s : State) : Byte := (s.portReadByte 0x0021).2.answerByte 0x00A1

/-- The twelve accesses of `PIC_INIT` (R93), the masks `m` and `sl` read first and written last. -/
def picInitEvents (offset1 offset2 m sl : Byte) : List PortEvent :=
  [.read 0x0021 (.byte m), .read 0x00A1 (.byte sl),
   .write 0x0020 (.byte 0x11), .write 0x00A0 (.byte 0x11),
   .write 0x0021 (.byte offset1), .write 0x00A1 (.byte offset2),
   .write 0x0021 (.byte 0x04), .write 0x00A1 (.byte 0x02),
   .write 0x0021 (.byte 0x01), .write 0x00A1 (.byte 0x01),
   .write 0x0021 (.byte m), .write 0x00A1 (.byte sl)]

theorem exec_picInit (offset1 offset2 : Byte) (s : State) : exec (.picInit offset1 offset2) s =
    complete ((s.setSnap none none).afterEvents
      (picInitEvents offset1 offset2 s.masterMask s.slaveMask)) := rfl

theorem exec_picDisable (s : State) : exec .picDisable s =
    complete (((s.setShadowM s.masterMask).setShadowS s.slaveMask).afterEvents
      [.read 0x0021 (.byte s.masterMask), .read 0x00A1 (.byte s.slaveMask),
       .write 0x0021 (.byte 0xFF), .write 0x00A1 (.byte 0xFF)]) := rfl

theorem exec_picEnable (s : State) : exec .picEnable s =
    complete (s.afterEvents
      [.write 0x0021 (.byte s.shadowM), .write 0x00A1 (.byte s.shadowS)]) := rfl

/-- The master's byte in the sequence of R99 and R100, read after both select writes. -/
def State.masterStatus (s : State) (select : Byte) : Byte :=
  ((s.portWriteByte 0x0020 select).portWriteByte 0x00A0 select).answerByte 0x0020

/-- The slave's byte in that sequence, read after the master's. -/
def State.slaveStatus (s : State) (select : Byte) : Byte :=
  (((s.portWriteByte 0x0020 select).portWriteByte 0x00A0 select).portReadByte
    0x0020).2.answerByte 0x00A0

theorem readStatus_eq (select : Byte) (s : State) : readStatus select s =
    (s.setRes (s.slaveStatus select ++ s.masterStatus select)).afterEvents
      [.write 0x0020 (.byte select), .write 0x00A0 (.byte select),
       .read 0x0020 (.byte (s.masterStatus select)),
       .read 0x00A0 (.byte (s.slaveStatus select))] := rfl

/-- What R99 and R100 say, for either select byte. -/
theorem complete_readStatus (select : Byte) (s : State) :
    ∃ (m sl : Byte) (r : Word16) (o : PortOracle),
      m = ((s.portWriteByte 0x0020 select).portWriteByte 0x00A0 select).answerByte 0x0020 ∧
      sl = (((s.portWriteByte 0x0020 select).portWriteByte 0x00A0 select).portReadByte
        0x0020).2.answerByte 0x00A0 ∧
      r.extractLsb' 0 8 = m ∧ r.extractLsb' 8 8 = sl ∧
      complete (readStatus select s) = .next { s with
        trace := s.trace ++
          [.write 0x0020 (.byte select), .write 0x00A0 (.byte select),
           .read 0x0020 (.byte m), .read 0x00A0 (.byte sl)]
        oracle := o
        res := some r
        ci := s.ci + 1 } := by
  rw [readStatus_eq]
  exact ⟨s.masterStatus select, s.slaveStatus select, _, _, rfl, rfl,
    BitVec.extractLsb'_append_eq_right, BitVec.extractLsb'_append_eq_left,
    complete_afterEvents _ _⟩

/-! ### Interrupt lines -/

theorem onMaster_of_lt {irq : Byte} (h : irq.toNat < 8) : onMaster irq = true :=
  decide_eq_true h

theorem not_onMaster_of_ge {irq : Byte} (h : 8 ≤ irq.toNat) : ¬ onMaster irq = true :=
  fun master => Nat.not_lt.2 h (of_decide_eq_true master)

theorem irqPort_of_lt {irq : Byte} (h : irq.toNat < 8) : irqPort irq = 0x0021 :=
  if_pos (onMaster_of_lt h)

theorem irqPort_of_ge {irq : Byte} (h : 8 ≤ irq.toNat) : irqPort irq = 0x00A1 :=
  if_neg (not_onMaster_of_ge h)

theorem irqBit_of_lt {irq : Byte} (h : irq.toNat < 8) : irqBit irq = irq.toNat :=
  if_pos (onMaster_of_lt h)

theorem irqBit_of_ge {irq : Byte} (h : 8 ≤ irq.toNat) : irqBit irq = irq.toNat - 8 :=
  if_neg (not_onMaster_of_ge h)

theorem below_nIrq {irq : Byte} (h : irq.toNat < 16) : ¬ irq.toNat ≥ Config.nIrq :=
  Nat.not_le.2 h

theorem exec_picSetMask {irq : Byte} (s : State) (h : irq.toNat < 16) :
    exec (.picSetMask irq) s = complete (modifyMask irq (fun v => v ||| irqMask irq) s) :=
  if_neg (below_nIrq h)

theorem exec_picSetMask_fault {irq : Byte} (s : State) (h : 16 ≤ irq.toNat) :
    exec (.picSetMask irq) s = .next (s.faulted .irqRange (.picSetMask irq)) :=
  if_pos h

theorem exec_picClearMask {irq : Byte} (s : State) (h : irq.toNat < 16) :
    exec (.picClearMask irq) s = complete (modifyMask irq (fun v => v &&& ~~~ irqMask irq) s) :=
  if_neg (below_nIrq h)

theorem exec_picClearMask_fault {irq : Byte} (s : State) (h : 16 ≤ irq.toNat) :
    exec (.picClearMask irq) s = .next (s.faulted .irqRange (.picClearMask irq)) :=
  if_pos h

theorem exec_picSendEoi_of_lt {irq : Byte} (s : State) (h : irq.toNat < 8) :
    exec (.picSendEoi irq) s = complete (s.afterEvents [.write 0x0020 (.byte 0x20)]) := by
  show execPicSendEoi irq s = _
  rw [execPicSendEoi, if_neg (below_nIrq (Nat.lt_of_lt_of_le h (by decide))),
    if_pos (onMaster_of_lt h)]
  rfl

theorem exec_picSendEoi_of_ge {irq : Byte} (s : State) (h : 8 ≤ irq.toNat) (h' : irq.toNat < 16) :
    exec (.picSendEoi irq) s =
      complete (s.afterEvents [.write 0x00A0 (.byte 0x20), .write 0x0020 (.byte 0x20)]) := by
  show execPicSendEoi irq s = _
  rw [execPicSendEoi, if_neg (below_nIrq h'), if_neg (not_onMaster_of_ge h)]
  rfl

theorem exec_picSendEoi_fault {irq : Byte} (s : State) (h : 16 ≤ irq.toNat) :
    exec (.picSendEoi irq) s = .next (s.faulted .irqRange (.picSendEoi irq)) :=
  if_pos h

/-! ### The read-modify-write of a mask register -/

/-- The two accesses of R96 and R97 at a mask register. -/
def maskEvents (port : Port) (change : Byte → Byte) (s : State) : List PortEvent :=
  [.read port (.byte (s.answerByte port)), .write port (.byte (change (s.answerByte port)))]

theorem modifyMask_eq (irq : Byte) (change : Byte → Byte) (s : State) : modifyMask irq change s =
    trackShadow irq change (s.afterEvents (maskEvents (irqPort irq) change s)) := rfl

/-- A line of the master: its shadow follows if the switch is on (R92). -/
theorem modifyMask_of_lt {irq : Byte} (change : Byte → Byte) (s : State) (h : irq.toNat < 8) :
    modifyMask irq change s =
      (s.setShadowM (if s.params.shadowTracksSetClear then change s.shadowM else s.shadowM)
        ).afterEvents (maskEvents 0x0021 change s) := by
  rw [modifyMask_eq, irqPort_of_lt h, trackShadow, if_pos (onMaster_of_lt h)]
  cases switch : s.params.shadowTracksSetClear
  · exact if_neg (Bool.eq_false_iff.1 switch)
  · exact if_pos switch

/-- A line of the slave. -/
theorem modifyMask_of_ge {irq : Byte} (change : Byte → Byte) (s : State) (h : 8 ≤ irq.toNat) :
    modifyMask irq change s =
      (s.setShadowS (if s.params.shadowTracksSetClear then change s.shadowS else s.shadowS)
        ).afterEvents (maskEvents 0x00A1 change s) := by
  rw [modifyMask_eq, irqPort_of_ge h, trackShadow, if_neg (not_onMaster_of_ge h)]
  cases switch : s.params.shadowTracksSetClear
  · exact if_neg (Bool.eq_false_iff.1 switch)
  · exact if_pos switch

/-! ### The reference controllers -/

@[simp] theorem RefDevices.write_pic1Cmd (d : RefDevices) (v : Byte) :
    d.write 0x0020 (.byte v) = { d with master := d.master.writeCommand v } := rfl
@[simp] theorem RefDevices.write_pic1Data (d : RefDevices) (v : Byte) :
    d.write 0x0021 (.byte v) = { d with master := d.master.writeData v } := rfl
@[simp] theorem RefDevices.write_pic2Cmd (d : RefDevices) (v : Byte) :
    d.write 0x00A0 (.byte v) = { d with slave := d.slave.writeCommand v } := rfl
@[simp] theorem RefDevices.write_pic2Data (d : RefDevices) (v : Byte) :
    d.write 0x00A1 (.byte v) = { d with slave := d.slave.writeData v } := rfl

/-- The reference controller after the writes `PIC_INIT` makes to it (R93, R128). -/
def RefPic.reinitialised (x : RefPic) (offset mask : Byte) : RefPic :=
  { x with
    imr := mask
    isr := 0
    rs := .irr
    st := .ready
    ic4 := true
    sngl := false
    vecOffset := offset }

/-- ICW1 asks for an ICW3 and an ICW4, so the fourth data write is the first to reach the mask. -/
theorem RefPic.writes_reinitialise (x : RefPic) (offset icw3 mask : Byte) :
    ((((x.writeCommand 0x11).writeData offset).writeData icw3).writeData 0x01).writeData mask =
      x.reinitialised offset mask := rfl

theorem picInitEvents_reference (d : RefDevices) (offset1 offset2 m sl : Byte) :
    (picInitEvents offset1 offset2 m sl).foldl RefDevices.afterEvent d =
      { d with
        master := d.master.reinitialised offset1 m
        slave := d.slave.reinitialised offset2 sl } := by
  simp only [picInitEvents, List.foldl_cons, List.foldl_nil, RefDevices.afterEvent,
    RefDevices.write_pic1Cmd, RefDevices.write_pic1Data, RefDevices.write_pic2Cmd,
    RefDevices.write_pic2Data, RefPic.writes_reinitialise]

/-- The mask register of the line's controller changed, the rest of the devices kept. -/
def RefDevices.changeMask (d : RefDevices) (irq : Byte) (change : Byte → Byte) : RefDevices :=
  if onMaster irq then { d with master := { d.master with imr := change d.master.imr } }
  else { d with slave := { d.slave with imr := change d.slave.imr } }

theorem RefDevices.changeMask_of_lt (d : RefDevices) {irq : Byte} (change : Byte → Byte)
    (h : irq.toNat < 8) : d.changeMask irq change =
      { d with master := { d.master with imr := change d.master.imr } } :=
  if_pos (onMaster_of_lt h)

theorem RefDevices.changeMask_of_ge (d : RefDevices) {irq : Byte} (change : Byte → Byte)
    (h : 8 ≤ irq.toNat) : d.changeMask irq change =
      { d with slave := { d.slave with imr := change d.slave.imr } } :=
  if_neg (not_onMaster_of_ge h)

theorem RefPic.writeData_ready {x : RefPic} (v : Byte) (h : x.st = .ready) :
    x.writeData v = { x with imr := v } := by
  rw [RefPic.writeData, h]

/-- Both reference controllers are initialised: a data write is a write of the mask (R128). -/
def RefDevices.ready (d : RefDevices) : Prop := d.master.st = .ready ∧ d.slave.st = .ready

theorem RefDevices.ready.changeMask {d : RefDevices} (h : d.ready) (irq : Byte)
    (change : Byte → Byte) : (d.changeMask irq change).ready := by
  unfold RefDevices.changeMask
  split <;> exact h

/-- With initialised reference controllers the read-modify-write changes the line's mask. -/
theorem modifyMask_reference {s : State} {d : RefDevices} (irq : Byte) (change : Byte → Byte)
    (h : s.oracle = .reference d) (ready : d.ready) :
    (modifyMask irq change s).oracle = .reference (d.changeMask irq change) := by
  obtain ⟨master, slave⟩ := ready
  rcases Nat.lt_or_ge irq.toNat 8 with hlt | hge
  · have answer : s.answerByte 0x0021 = d.master.imr := answerByte_reference h rfl
    rw [modifyMask_of_lt change s hlt]
    refine (State.afterEvents_reference _ (d := d) ?_).trans ?_
    · exact h
    · rw [maskEvents, answer, RefDevices.changeMask_of_lt d change hlt,
        ← RefPic.writeData_ready _ master]
      rfl
  · have answer : s.answerByte 0x00A1 = d.slave.imr := answerByte_reference h rfl
    rw [modifyMask_of_ge change s hge]
    refine (State.afterEvents_reference _ (d := d) ?_).trans ?_
    · exact h
    · rw [maskEvents, answer, RefDevices.changeMask_of_ge d change hge,
        ← RefPic.writeData_ready _ slave]
      rfl

/-- Setting bit `k` and then clearing it leaves it clear and every other bit as it was. -/
theorem getLsbD_set_clear (v : Byte) (k : Nat) {b : Nat} (hb : b < 8) :
    ((v ||| 1#8 <<< k) &&& ~~~(1#8 <<< k)).getLsbD b = (v.getLsbD b && !decide (k = b)) := by
  have one : (1#8 <<< k).getLsbD b = decide (k = b) := by
    have width (e : k = b) : k < 8 := e ▸ hb
    rw [← BitVec.twoPow_eq, BitVec.getLsbD_twoPow]
    simp only [decide_eq_decide, ← Bool.decide_and, and_iff_right_iff_imp]
    exact width
  rw [BitVec.getLsbD_and, BitVec.getLsbD_or, BitVec.getLsbD_not, one, decide_eq_true hb]
  cases v.getLsbD b <;> cases decide (k = b) <;> rfl

/-! ### The port accesses of a completed command -/

/-- If the command completes, it has made `n` port accesses. -/
def Makes (n : Nat) (s : State) (o : Host.Outcome State Fault Refusal) : Prop :=
  ∀ t, o = .next t → t.ci = s.ci + 1 → t.trace.length = s.trace.length + n

theorem makes_of_complete {n : Nat} {s b : State} (h : b.trace.length = s.trace.length + n) :
    Makes n s (complete b) := by
  intro t ht _
  cases ht
  exact h

/-- A faulted command leaves `ci` where it was, so it has not completed. -/
theorem makes_of_fail {n : Nat} {s : State} (code : FaultCode) (i : Instr) :
    Makes n s (fail code i s) := by
  intro t ht hci
  cases ht
  exact absurd hci (Nat.ne_of_lt (Nat.lt_succ_self s.ci))

/-- A command that faults on a range check makes the accesses it makes past the check. -/
theorem makes_of_guard {c : Prop} [Decidable c] {n : Nat} {s : State} {code : FaultCode}
    {i : Instr} {o : Host.Outcome State Fault Refusal} (h : Makes n s o) :
    Makes n s (if c then fail code i s else o) := by
  split
  · exact makes_of_fail code i
  · exact h

/-- Events after a state with the same trace are the accesses counted. -/
theorem makes_of_events {s b : State} {n : Nat} (events : List PortEvent)
    (trace : b.trace = s.trace := by rfl) (count : events.length = n := by rfl) :
    Makes n s (complete (b.afterEvents events)) :=
  makes_of_complete (by rw [b.afterEvents_trace, List.length_append, trace, count])

/-- A command that leaves the trace as it was makes no access. -/
theorem makes_none {s b : State} (trace : b.trace = s.trace := by rfl) : Makes 0 s (complete b) :=
  makes_of_complete (congrArg List.length trace)

theorem makes_modifyMask (irq : Byte) (change : Byte → Byte) (s : State) :
    Makes 2 s (complete (modifyMask irq change s)) := by
  rcases Nat.lt_or_ge irq.toNat 8 with hlt | hge
  · rw [modifyMask_of_lt change s hlt]
    exact makes_of_events _
  · rw [modifyMask_of_ge change s hge]
    exact makes_of_events _

theorem makes_readStatus (select : Byte) (s : State) :
    Makes 4 s (complete (readStatus select s)) := by
  rw [readStatus_eq]
  exact makes_of_events _

theorem makes_picSendEoi (irq : Byte) (s : State) :
    Makes (if irq.toNat < 8 then 1 else 2) s (exec (.picSendEoi irq) s) := by
  rcases Nat.lt_or_ge irq.toNat 8 with h8 | h8
  · rw [if_pos h8, exec_picSendEoi_of_lt s h8]
    exact makes_of_events _
  · rw [if_neg (Nat.not_lt.2 h8)]
    rcases Nat.lt_or_ge irq.toNat 16 with h16 | h16
    · rw [exec_picSendEoi_of_ge s h8 h16]
      exact makes_of_events _
    · rw [exec_picSendEoi_fault s h16]
      exact makes_of_fail _ _

/-- The loop of R111 and R112 makes no access; the cursor's position is four (R106). -/
theorem makes_writeBody (address : Addr) (n : Nat) (t : Terminal) (s : State) :
    Makes 4 s (complete (writeBody address n t s)) := by
  obtain ⟨x, y, o, record⟩ := writeBody_record address n t s
  rw [record]
  exact makes_of_complete List.length_append

theorem makes_gdtInit (s : State) : Makes 0 s (execGdtInit s) := by
  obtain ⟨g, record⟩ := execGdtInit_record s
  rw [record]
  exact makes_none

theorem makes_termSetFg (color : Byte) (s : State) : Makes 0 s (execTermSetFg color s) := by
  refine makes_of_guard ?_
  split
  · exact makes_of_fail _ _
  · exact makes_none

theorem makes_termSetBg (color : Byte) (s : State) : Makes 0 s (execTermSetBg color s) := by
  refine makes_of_guard ?_
  split
  · exact makes_of_fail _ _
  · exact makes_none

theorem makes_termPutchar (c : Byte) (s : State) : Makes 0 s (execTermPutchar c s) := by
  unfold execTermPutchar
  split
  · exact makes_of_fail _ _
  · exact makes_none

theorem makes_termScroll (s : State) : Makes 0 s (execTermScroll s) := by
  unfold execTermScroll
  split
  · exact makes_of_fail _ _
  · exact makes_of_guard makes_none

theorem makes_termWrite (address : Addr) (length : BitVec 32) (s : State) :
    Makes 4 s (execTermWrite address length s) := by
  refine makes_of_guard ?_
  split
  · exact makes_of_fail _ _
  · exact makes_writeBody _ _ _ s

theorem makes_termWritestring (address : Addr) (s : State) :
    Makes 4 s (execTermWritestring address s) := by
  unfold execTermWritestring
  split
  · exact makes_of_fail _ _
  · refine makes_of_guard ?_
    split
    · exact makes_of_fail _ _
    · exact makes_writeBody _ _ _ s

theorem exec_curDisable (s : State) : exec .curDisable s =
    complete (s.afterEvents [.write 0x03D4 (.byte 0x0A), .write 0x03D5 (.byte 0x20)]) := rfl

theorem exec_curSetpos (x y : Word16) (s : State) : exec (.curSetpos x y) s =
    complete (s.afterEvents
      [.write 0x03D4 (.byte 0x0F), .write 0x03D5 (.byte ((y * 80#16 + x).extractLsb' 0 8)),
       .write 0x03D4 (.byte 0x0E), .write 0x03D5 (.byte ((y * 80#16 + x).extractLsb' 8 8))]) := rfl

theorem makes_curEnable (min max : Byte) (s : State) :
    Makes (if max.toNat ≤ min.toNat then 0 else 4) s (execCurEnable min max s) := by
  unfold execCurEnable
  split
  · exact makes_none
  · exact makes_of_events [.write 0x03D4 (.byte 0x0A), .write 0x03D5 (.byte min),
      .write 0x03D4 (.byte 0x0B), .write 0x03D5 (.byte (clampScanline max))]

/-- Every command makes the accesses of its row of R148's table. -/
theorem exec_makes (i : Instr) (s : State) : Makes (portAccessCount i) s (exec i s) := by
  cases i with
  | outb port value => exact makes_of_events [.write port (.byte value)]
  | outw port value => exact makes_of_events [.write port (.word value)]
  | inb port => exact makes_of_complete List.length_append
  | inw port => exact makes_of_complete List.length_append
  | gdtAdd slot base limit access flags => exact makes_of_guard makes_none
  | gdtInitDefaults => exact makes_none
  | gdtInit => exact makes_gdtInit s
  | picInit offset1 offset2 => exact exec_picInit offset1 offset2 s ▸ makes_of_events _
  | picDisable => exact exec_picDisable s ▸ makes_of_events _
  | picEnable => exact exec_picEnable s ▸ makes_of_events _
  | picSetMask irq => exact makes_of_guard (makes_modifyMask irq _ s)
  | picClearMask irq => exact makes_of_guard (makes_modifyMask irq _ s)
  | picSendEoi irq => exact makes_picSendEoi irq s
  | picGetIrr => exact makes_readStatus _ s
  | picGetIsr => exact makes_readStatus _ s
  | termInit => exact makes_none
  | termSetFg color => exact makes_termSetFg color s
  | termSetBg color => exact makes_termSetBg color s
  | termPutchar c => exact makes_termPutchar c s
  | termWrite address length => exact makes_termWrite address length s
  | termWritestring address => exact makes_termWritestring address s
  | termScroll => exact makes_termScroll s
  | curEnable min max => exact makes_curEnable min max s
  | curDisable => exact exec_curDisable s ▸ makes_of_events _
  | curSetpos x y => exact exec_curSetpos x y s ▸ makes_of_events _

/-! ### Two commands in a row -/

theorem performAll_pair {i j : Instr} {s t u : State} (hi : exec i s = .next t)
    (hj : exec j t = .next u) : performAll [i, j] s = some u := by
  simp only [performAll, hi, hj]

/-! ### The obligations -/

/-- Settles O20: the command is its twelve events, which carry the masks read. -/
theorem picInitSequence : Obligations.PicInitSequence := by
  intro s offset1 offset2
  exact ⟨s.masterMask, s.slaveMask, _, rfl, rfl,
    (exec_picInit offset1 offset2 s).trans (complete_afterEvents _ _)⟩

/-- Settles O21: the shadows are the answers the two read events carry. -/
theorem picDisableSavesAndMasks : Obligations.PicDisableSavesAndMasks := by
  intro s
  exact ⟨s.masterMask, s.slaveMask, _, rfl, rfl,
    (exec_picDisable s).trans (complete_afterEvents _ _)⟩

/-- Settles O22: the two events carry the shadows. -/
theorem picEnableWritesTheShadows : Obligations.PicEnableWritesTheShadows := by
  intro s
  exact ⟨_, (exec_picEnable s).trans (complete_afterEvents _ _)⟩

/-- Settles O23: the change of R96 at the register and shadow of the line's controller. -/
theorem picSetMaskSetsOneBit : Obligations.PicSetMaskSetsOneBit := by
  intro s irq
  refine ⟨fun hlt => ?_, fun hge hlt => ?_, exec_picSetMask_fault s⟩
  · rw [exec_picSetMask s (by omega), modifyMask_of_lt _ s hlt, irqMask, irqBit_of_lt hlt]
    exact ⟨_, _, rfl, complete_afterEvents _ _⟩
  · rw [exec_picSetMask s hlt, modifyMask_of_ge _ s hge, irqMask, irqBit_of_ge hge]
    exact ⟨_, _, rfl, complete_afterEvents _ _⟩

/-- Settles O24: the change of R97 in place of R96's. -/
theorem picClearMaskClearsOneBit : Obligations.PicClearMaskClearsOneBit := by
  intro s irq
  refine ⟨fun hlt => ?_, fun hge hlt => ?_, exec_picClearMask_fault s⟩
  · rw [exec_picClearMask s (by omega), modifyMask_of_lt _ s hlt, irqMask, irqBit_of_lt hlt]
    exact ⟨_, _, rfl, complete_afterEvents _ _⟩
  · rw [exec_picClearMask s hlt, modifyMask_of_ge _ s hge, irqMask, irqBit_of_ge hge]
    exact ⟨_, _, rfl, complete_afterEvents _ _⟩

/-- Settles O25: the slave's event comes first, for its lines only. -/
theorem picSendEoiAcknowledges : Obligations.PicSendEoiAcknowledges := by
  intro s irq
  exact ⟨fun hlt => ⟨_, (exec_picSendEoi_of_lt s hlt).trans (complete_afterEvents _ _)⟩,
    fun hge hlt => ⟨_, (exec_picSendEoi_of_ge s hge hlt).trans (complete_afterEvents _ _)⟩,
    exec_picSendEoi_fault s⟩

/-- Settles O26: one sequence, for the two select bytes. -/
theorem picStatusReads : Obligations.PicStatusReads := by
  intro s
  exact ⟨complete_readStatus 0x0A s, complete_readStatus 0x0B s⟩

/-- Settles O27: the shadows `PIC_ENABLE` writes are the bytes `PIC_DISABLE` read. -/
theorem disableThenEnableRestores : Obligations.DisableThenEnableRestores := by
  intro s
  refine ⟨s.masterMask, s.slaveMask, _, performAll_pair (exec_picDisable s) (exec_picEnable _), ?_⟩
  rw [State.advance_trace, State.afterEvents_trace, State.advance_trace, State.afterEvents_trace,
    List.append_assoc]
  rfl

/-- Settles O28: the masks written back last are the ones the reference controllers answered. -/
theorem referencePicInitKeepsMasks : Obligations.ReferencePicInitKeepsMasks := by
  intro s d offset1 offset2 h
  have master : s.masterMask = d.master.imr := answerByte_reference h rfl
  have slave : s.slaveMask = d.slave.imr :=
    answerByte_reference (congrArg PortOracle.afterRead h) rfl
  refine ⟨_, _, exec_picInit offset1 offset2 s,
    State.afterEvents_reference (s := s.setSnap none none) _ h, ?_⟩
  rw [picInitEvents_reference, master, slave]
  exact ⟨rfl, rfl, rfl, rfl, rfl, rfl⟩

/-- Settles O29: both commands change the mask register of the line's controller alone. -/
theorem referenceSetThenClear : Obligations.ReferenceSetThenClear := by
  intro s d irq h hlt master slave
  have ready : d.ready := ⟨master, slave⟩
  have set := modifyMask_reference irq (fun v => v ||| irqMask irq) h ready
  have clear := modifyMask_reference (s := (modifyMask irq (fun v => v ||| irqMask irq) s).advance)
    irq (fun v => v &&& ~~~ irqMask irq) set (ready.changeMask _ _)
  refine ⟨_, _, performAll_pair (exec_picSetMask s hlt) (exec_picClearMask _ hlt), clear,
    fun b hb => ?_⟩
  rcases Nat.lt_or_ge irq.toNat 8 with h8 | h8
  · have other : irq.toNat ≠ b + 8 := by omega
    simp [RefDevices.changeMask_of_lt _ _ h8, irqMask, irqBit_of_lt h8, getLsbD_set_clear _ _ hb,
      other]
  · have other : irq.toNat ≠ b := by omega
    have line : irq.toNat = b + 8 ↔ irq.toNat - 8 = b := by omega
    simp [RefDevices.changeMask_of_ge _ _ h8, irqMask, irqBit_of_ge h8, getLsbD_set_clear _ _ hb,
      other, line]

/-- Settles O59: every command is counted, constructor by constructor. -/
theorem portAccessCounts : Obligations.PortAccessCounts := by
  intro i s t
  exact exec_makes i s t

end Sys2Proof.Machine
end

