-- ==== Sys2Proof/Proofs/Vga.lean ====
section
/-! The VGA unit (43_vga.md), O30 to O43. Each command is the record of the state it leaves
(`exec_term…`, `exec_cur…`); what its memory holds is a fact about cells: a cell written
(`read_write_cell`), the clear (`read_clearCells`) and the scroll (`scrollCells_moves`). `TERM_WRITE`
is its characters one after another (`performAll_putchars`), and `TERM_WRITESTRING` a `TERM_WRITE` of
the length its scan finds. -/

namespace Sys2Proof.Machine

/-! ### The screen -/

theorem complete_setScreen (s : State) (t : Terminal) (m : Memory) :
    complete (s.setScreen t m) = .next { s with term := some t, mem := m, ci := s.ci + 1 } := rfl

/-- Setting the screen to what it is changes nothing. -/
theorem setScreen_self {s : State} {t : Terminal} (ht : s.term = some t) :
    s.setScreen t s.mem = s := by
  rw [State.setScreen, ← ht]

theorem exec_termInit (s : State) : exec .termInit s =
    complete (s.setScreen { row := 0, col := 0, attr := 0x07 } (clearCells s.mem)) := rfl

/-! ### Cells -/

theorem off_cellAddrOf {k : Nat} (hk : k < 2000) : off (cellAddrOf k) = 2 * k :=
  (eq_cellAddrOf_iff _ hk).1 rfl

theorem off_cellAddrOf_succ {k : Nat} (hk : k < 2000) : off (cellAddrOf k + 1) = 2 * k + 1 :=
  (eq_cellAddrOf_succ_iff _ hk).1 rfl

/-- Cells share no byte: a write of one is read in that cell alone. -/
theorem read_write_cell {m : Memory} (hm : m.wf = true) {k j : Nat} (hk : k < 2000) (hj : j < 2000)
    (v : Word16) : (m.write (cellAddrOf k) 2 v).read (cellAddrOf j) 2 =
      if j = k then v else m.read (cellAddrOf j) 2 := by
  by_cases hjk : j = k
  · rw [if_pos hjk, hjk]
    exact Memory.read_write_same 2 m _ v (by decide) hm
  · rw [if_neg hjk, read_cell, read_cell, byte_write_cell m hk v _ hm, byte_write_cell m hk v _ hm,
      off_cellAddrOf hj, off_cellAddrOf_succ hj, if_neg (by omega), if_neg (by omega),
      if_neg (by omega), if_neg (by omega)]

/-- Every cell the clear leaves is blank (R107). -/
theorem read_clearCells {m : Memory} (hm : m.wf = true) {k : Nat} (hk : k < 2000) :
    (clearCells m).read (cellAddrOf k) 2 = blankCell := by
  obtain ⟨-, hbyte⟩ := clearCells_spec m hm
  rw [read_cell, hbyte, hbyte, off_cellAddrOf hk, off_cellAddrOf_succ hk, if_pos (by omega),
    if_pos (by omega), if_pos (by omega), if_neg (by omega)]
  rfl

/-- The scroll moves rows 1 to 24 up by one, keeps row 24 and writes no byte outside the grid
(R103). -/
theorem scrollCells_moves {m : Memory} (hm : m.wf = true) :
    (∀ row col : Nat, row < 25 → col < 80 → (scrollCells m).read (cellAddr row col) 2 =
      m.read (cellAddr (if row < 24 then row + 1 else row) col) 2) ∧
    ∀ a, ¬ inGrid a → (scrollCells m).byte a = m.byte a := by
  refine ⟨fun row col hr hc => ?_, fun a ha => ?_⟩
  · rw [scrollCells_cell m hm hr hc]
    split <;> rfl
  · obtain ⟨-, hbyte⟩ := scrollCells_spec m hm
    rw [inGrid_iff] at ha
    rw [hbyte, if_neg (by omega)]

/-! ### The nibbles of `TERM_ATTR` -/

theorem nibbles_append (v : Byte) : v.extractLsb' 4 4 ++ v.extractLsb' 0 4 = v :=
  BitVec.extractLsb'_append_extractLsb'

/-- A byte below 16 has no high nibble. -/
theorem high_nibble_of_lt {color : Byte} (h : color.toNat < 16) : color.extractLsb' 4 4 = 0 := by
  apply BitVec.eq_of_toNat_eq
  rw [BitVec.extractLsb'_toNat, Nat.shiftRight_eq_div_pow, Nat.div_eq_of_lt h]
  rfl

/-- `TERM_SET_FG`'s new `TERM_ATTR`, nibble by nibble (R108). -/
theorem withForeground_eq (attr : Byte) {color : Byte} (h : color.toNat < 16) :
    withForeground attr color = attr.extractLsb' 4 4 ++ color.extractLsb' 0 4 := by
  have hcolor : 0#4 ++ color.extractLsb' 0 4 = color := by
    rw [← BitVec.ofNat_eq_ofNat, ← high_nibble_of_lt h, nibbles_append]
  calc withForeground attr color
      = ((attr.extractLsb' 4 4 ++ attr.extractLsb' 0 4) &&& (BitVec.allOnes 4 ++ 0#4)) |||
          (0#4 ++ color.extractLsb' 0 4) := by rw [nibbles_append, hcolor]; rfl
    _ = attr.extractLsb' 4 4 ++ color.extractLsb' 0 4 := by
        rw [BitVec.and_append, BitVec.or_append, BitVec.and_allOnes, BitVec.or_zero,
          BitVec.and_zero, BitVec.zero_or]

/-- `TERM_SET_BG`'s new `TERM_ATTR`, nibble by nibble (R109). -/
theorem withBackground_eq (attr color : Byte) :
    withBackground attr color = color.extractLsb' 0 4 ++ attr.extractLsb' 0 4 := by
  have hcolor : color <<< 4 = color.extractLsb' 0 4 ++ 0#4 :=
    BitVec.shiftLeft_eq_concat_of_lt (by decide)
  calc withBackground attr color
      = ((attr.extractLsb' 4 4 ++ attr.extractLsb' 0 4) &&& (0#4 ++ BitVec.allOnes 4)) |||
          (color.extractLsb' 0 4 ++ 0#4) := by rw [nibbles_append, ← hcolor]; rfl
    _ = color.extractLsb' 0 4 ++ attr.extractLsb' 0 4 := by
        rw [BitVec.and_append, BitVec.or_append, BitVec.and_allOnes, BitVec.or_zero,
          BitVec.and_zero, BitVec.zero_or]

/-- The blink flag is the top bit of the high nibble: set exactly from colour 8 on (R109). -/
theorem attrBlink_withBackground (attr : Byte) {color : Byte} (h : color.toNat < 16) :
    attrBlink (withBackground attr color) = decide (8 ≤ color.toNat) := by
  have hlow : (color.extractLsb' 0 4).toNat = color.toNat := by
    rw [BitVec.extractLsb'_toNat]
    exact Nat.mod_eq_of_lt h
  show (withBackground attr color).msb = _
  rw [withBackground_eq, BitVec.msb_append, if_neg (by decide), BitVec.msb_eq_decide, hlow]

/-! ### The colour commands -/

/-- What R108 and R109 share: the two checks, the colour's first, then a new `TERM_ATTR`. -/
def setAttribute (i : Instr) (color : Byte) (attr : Byte → Byte) (s : State) :
    Host.Outcome State Fault Refusal :=
  if color.toNat ≥ 16 then fail .colorRange i s
  else
    match s.term with
    | none => fail .termUninit i s
    | some t => complete (s.setScreen { t with attr := attr t.attr } s.mem)

theorem exec_termSetFg (color : Byte) (s : State) : exec (.termSetFg color) s =
    setAttribute (.termSetFg color) color (withForeground · color) s := rfl

theorem exec_termSetBg (color : Byte) (s : State) : exec (.termSetBg color) s =
    setAttribute (.termSetBg color) color (withBackground · color) s := rfl

section
variable {s : State} {t : Terminal} {i : Instr} {color : Byte} {attr : Byte → Byte}

theorem setAttribute_of_some (ht : s.term = some t) (h : color.toNat < 16) :
    setAttribute i color attr s =
      .next { s with term := some { t with attr := attr t.attr }, ci := s.ci + 1 } := by
  rw [setAttribute, if_neg (Nat.not_le.2 h), ht]
  rfl

theorem setAttribute_colorRange (h : 16 ≤ color.toNat) :
    setAttribute i color attr s = .next (s.faulted .colorRange i) :=
  if_pos h

theorem setAttribute_termUninit (ht : s.term = none) (h : color.toNat < 16) :
    setAttribute i color attr s = .next (s.faulted .termUninit i) := by
  rw [setAttribute, if_neg (Nat.not_le.2 h), ht]
  rfl

end

/-! ### Characters and the scroll -/

theorem exec_termPutchar {s : State} {t : Terminal} (c : Byte) (ht : s.term = some t) :
    exec (.termPutchar c) s =
      complete (s.setScreen (putcharBody c t s.mem).1 (putcharBody c t s.mem).2) := by
  show execTermPutchar c s = _
  rw [execTermPutchar, ht]

theorem exec_termPutchar_uninit {s : State} (c : Byte) (ht : s.term = none) :
    exec (.termPutchar c) s = .next (s.faulted .termUninit (.termPutchar c)) := by
  show execTermPutchar c s = _
  rw [execTermPutchar, ht]
  rfl

theorem exec_termScroll {s : State} {t : Terminal} (ht : s.term = some t) (h : 0 < t.row) :
    exec .termScroll s =
      complete (s.setScreen { t with row := t.row - 1 } (scrollCells s.mem)) := by
  show execTermScroll s = _
  rw [execTermScroll, ht]
  simp only [scrollBody]
  exact if_neg (Nat.pos_iff_ne_zero.1 h)

theorem exec_termScroll_underflow {s : State} {t : Terminal} (ht : s.term = some t)
    (h : t.row = 0) :
    exec .termScroll s = .next (s.faulted .scrollUnderflow .termScroll) := by
  show execTermScroll s = _
  rw [execTermScroll, ht]
  exact if_pos h

theorem exec_termScroll_uninit {s : State} (ht : s.term = none) :
    exec .termScroll s = .next (s.faulted .termUninit .termScroll) := by
  show execTermScroll s = _
  rw [execTermScroll, ht]
  rfl

section
variable {t : Terminal} {m : Memory} {c : Byte}

/-- Above row 24 the row advances and nothing is written (R104). -/
theorem advanceRow_of_lt (h : t.row < 24) :
    advanceRow t m = ({ t with row := t.row + 1 }, m) :=
  if_neg (show ¬ t.row + 1 = 25 by omega)

/-- On row 24 one scroll takes back the row's advance (R103, R104). -/
theorem advanceRow_last (h : t.row = 24) : advanceRow t m = (t, scrollCells m) :=
  if_pos (show t.row + 1 = 25 by omega)

theorem putcharBody_newline : putcharBody 0x0A t m = advanceRow { t with col := 0 } m := rfl

theorem putcharBody_of_lt (hc : c ≠ 0x0A) (h : t.col < 79) : putcharBody c t m =
    ({ t with col := t.col + 1 }, m.write (cellAddr t.row t.col) 2 (makeCell c t.attr)) := by
  rw [putcharBody, if_neg (show ¬ c = Config.newline from hc)]
  exact if_neg (show ¬ t.col + 1 = 80 by omega)

theorem putcharBody_last (hc : c ≠ 0x0A) (h : t.col = 79) : putcharBody c t m =
    advanceRow { t with col := 0 } (m.write (cellAddr t.row t.col) 2 (makeCell c t.attr)) := by
  rw [putcharBody, if_neg (show ¬ c = Config.newline from hc)]
  exact if_pos (show t.col + 1 = 80 by omega)

/-- A character that does not scroll: its cell written, the cursor moved (R105). -/
theorem putcharBody_no_scroll (hc : c ≠ 0x0A) (hcol : t.col < 80) (h : t.col < 79 ∨ t.row < 24) :
    putcharBody c t m =
      (if t.col < 79 then { t with col := t.col + 1 } else { t with row := t.row + 1, col := 0 },
        m.write (cellAddr t.row t.col) 2 (makeCell c t.attr)) := by
  by_cases hlt : t.col < 79
  · rw [if_pos hlt, putcharBody_of_lt hc hlt]
  · rw [if_neg hlt, putcharBody_last hc (by omega),
      advanceRow_of_lt (t := { t with col := 0 }) (h.resolve_left hlt)]

/-- A character in the last cell: the cell written, then one scroll (R105). -/
theorem putcharBody_scroll (hc : c ≠ 0x0A) (hcol : t.col = 79) (hrow : t.row = 24) :
    putcharBody c t m = ({ t with row := 24, col := 0 },
      scrollCells (m.write (cellAddr 24 79) 2 (makeCell c t.attr))) := by
  rw [putcharBody_last hc hcol, advanceRow_last (t := { t with col := 0 }) hrow, hrow, hcol]

end

/-- The screen after a character in the last cell, cell by cell (R103, R105). -/
theorem read_scrollCells_write_last {m : Memory} (hm : m.wf = true) (v : Word16) {row col : Nat}
    (hr : row < 25) (hc : col < 80) :
    (scrollCells (m.write (cellAddr 24 79) 2 v)).read (cellAddr row col) 2 =
      if col = 79 ∧ 23 ≤ row then v
      else m.read (cellAddr (if row < 24 then row + 1 else row) col) 2 := by
  obtain ⟨moves, -⟩ := scrollCells_moves (Memory.wf_write 2 m (cellAddr 24 79) v hm)
  have hsrc : (if row < 24 then row + 1 else row) * 80 + col < 2000 := by split <;> omega
  have hlast : (if row < 24 then row + 1 else row) * 80 + col = 24 * 80 + 79 ↔
      col = 79 ∧ 23 ≤ row := by split <;> omega
  rw [moves row col hr hc, cellAddr_eq, cellAddr_eq, read_write_cell hm (by decide) hsrc,
    if_congr hlast rfl rfl]

/-! ### Buffers -/

theorem bufferOutOfRange_iff (a n : Nat) : bufferOutOfRange a n = true ↔
    0 < n ∧ (2 ^ 32 < a + n ∨ (a < 0xB8FA0 ∧ 0xB8000 < a + n)) := by
  simp only [bufferOutOfRange, meetsGrid, Bool.and_eq_true, Bool.or_eq_true, decide_eq_true_eq]
  rfl

theorem meetsGrid_succ_iff (a n : Nat) :
    meetsGrid a (n + 1) = true ↔ a < 0xB8FA0 ∧ 0xB8000 ≤ a + n := by
  simp only [meetsGrid, Bool.and_eq_true, decide_eq_true_eq]
  exact and_congr_right fun _ => Nat.lt_succ_iff

/-- An empty buffer, or one below 2^32 and clear of the grid, passes R111's check. -/
theorem bufferOutOfRange_of_legal {address : Addr} {length : BitVec 32}
    (h : length = 0 ∨ (address.toNat + length.toNat ≤ 2 ^ 32 ∧
      (address.toNat + length.toNat ≤ 0xB8000 ∨ 0xB8FA0 ≤ address.toNat))) :
    bufferOutOfRange address.toNat length.toNat = false := by
  rw [Bool.eq_false_iff, Ne, bufferOutOfRange_iff]
  rcases h with rfl | h
  · exact fun hout => absurd hout.1 (Nat.lt_irrefl 0)
  · omega

section
variable {s : State} {t : Terminal} {address : Addr} {length : BitVec 32} {n : Nat}

theorem exec_termWrite (h : bufferOutOfRange address.toNat length.toNat = false)
    (ht : s.term = some t) :
    exec (.termWrite address length) s = complete (writeBody address length.toNat t s) := by
  show execTermWrite address length s = _
  rw [execTermWrite, if_neg (Bool.eq_false_iff.1 h), ht]

theorem exec_termWrite_bufferRange (h : bufferOutOfRange address.toNat length.toNat = true) :
    exec (.termWrite address length) s =
      .next (s.faulted .bufferRange (.termWrite address length)) :=
  if_pos h

theorem exec_termWrite_uninit (h : bufferOutOfRange address.toNat length.toNat = false)
    (ht : s.term = none) : exec (.termWrite address length) s =
      .next (s.faulted .termUninit (.termWrite address length)) := by
  show execTermWrite address length s = _
  rw [execTermWrite, if_neg (Bool.eq_false_iff.1 h), ht]
  rfl

theorem exec_termWritestring (hscan : scanString s.mem address = some n)
    (h : ¬ meetsGrid address.toNat (n + 1) = true) (ht : s.term = some t) :
    exec (.termWritestring address) s = complete (writeBody address n t s) := by
  show execTermWritestring address s = _
  rw [execTermWritestring, hscan]
  dsimp only
  rw [if_neg h, ht]

theorem exec_termWritestring_noTerminator (hscan : scanString s.mem address = none) :
    exec (.termWritestring address) s =
      .next (s.faulted .bufferRange (.termWritestring address)) := by
  show execTermWritestring address s = _
  rw [execTermWritestring, hscan]
  rfl

theorem exec_termWritestring_meetsGrid (hscan : scanString s.mem address = some n)
    (h : meetsGrid address.toNat (n + 1) = true) : exec (.termWritestring address) s =
      .next (s.faulted .bufferRange (.termWritestring address)) := by
  show execTermWritestring address s = _
  rw [execTermWritestring, hscan]
  exact if_pos h

theorem exec_termWritestring_uninit (hscan : scanString s.mem address = some n)
    (h : ¬ meetsGrid address.toNat (n + 1) = true) (ht : s.term = none) :
    exec (.termWritestring address) s =
      .next (s.faulted .termUninit (.termWritestring address)) := by
  show execTermWritestring address s = _
  rw [execTermWritestring, hscan]
  dsimp only
  rw [if_neg h, ht]
  rfl

/-- The scan finds the first 0x00 before the top of memory (R112). -/
theorem scanString_eq_some {m : Memory} (hn : address.toNat + n < 2 ^ 32)
    (hzero : m.byte (address + BitVec.ofNat 32 n) = 0)
    (hbefore : ∀ i, i < n → m.byte (address + BitVec.ofNat 32 i) ≠ 0) :
    scanString m address = some n :=
  (stringLength_some m _ address n).2 ⟨Nat.lt_sub_of_add_lt (Nat.add_comm _ n ▸ hn), hzero, hbefore⟩

theorem scanString_eq_none {m : Memory} (h : ∀ i, address.toNat + i < 2 ^ 32 →
    m.byte (address + BitVec.ofNat 32 i) ≠ 0) : scanString m address = none :=
  (stringLength_none m _ address).2 fun i hi => h i (Nat.add_lt_of_lt_sub' hi)

end

theorem performAll_cons {i : Instr} {is : List Instr} {s t : State} (h : exec i s = .next t) :
    performAll (i :: is) s = performAll is t := by
  rw [performAll, h]

/-- Characters put one after another through their commands leave the screen `putAll` gives, and
`ci` counts each. -/
theorem performAll_putchars (cs : List Byte) : ∀ {s : State} {t : Terminal}, s.term = some t →
    performAll (cs.map Instr.termPutchar) s =
      some { s.setScreen (putAll cs t s.mem).1 (putAll cs t s.mem).2 with
        ci := s.ci + cs.length } := by
  induction cs with
  | nil =>
    intro s t ht
    exact congrArg some (setScreen_self ht).symm
  | cons c cs ih =>
    intro s t ht
    have hput := exec_termPutchar c ht
    rw [complete] at hput
    rw [List.map_cons, performAll_cons hput, ih rfl, List.length_cons, Nat.add_comm cs.length,
      ← Nat.add_assoc]
    rfl

/-! ### The hardware cursor -/

theorem exec_curEnable_rejected {min max : Byte} (s : State) (h : max.toNat ≤ min.toNat) :
    exec (.curEnable min max) s = complete s :=
  if_pos h

theorem exec_curEnable {min max : Byte} (s : State) (h : min.toNat < max.toNat) :
    exec (.curEnable min max) s = complete (s.afterEvents
      [.write 0x03D4 (.byte 0x0A), .write 0x03D5 (.byte min),
       .write 0x03D4 (.byte 0x0B), .write 0x03D5 (.byte (clampScanline max))]) :=
  if_neg (Nat.not_le.2 h)

theorem clampScanline_toNat (max : Byte) :
    (clampScanline max).toNat = Nat.min max.toNat 15 := by
  unfold clampScanline
  split
  · rename_i h
    exact (Nat.min_eq_right (Nat.le_of_lt h)).symm
  · rename_i h
    exact (Nat.min_eq_left (Nat.le_of_not_lt h)).symm

/-- The two bytes of a word, the low one first. -/
theorem word_eq_bytes (v : Word16) :
    (v.extractLsb' 0 8).toNat + 256 * (v.extractLsb' 8 8).toNat = v.toNat := by
  have happend : v.extractLsb' 8 8 ++ v.extractLsb' 0 8 = v :=
    BitVec.extractLsb'_append_extractLsb'
  rw [Nat.add_comm, Nat.mul_comm]
  exact (toNat_append_mul _ _).symm.trans (congrArg BitVec.toNat happend)

/-! ### The obligations -/

/-- Settles O30: the clear's cells are blank and its bytes lie in the grid. -/
theorem termInitClearsTheGrid : Obligations.TermInitClearsTheGrid := by
  intro s hm
  refine ⟨clearCells s.mem, (exec_termInit s).trans (complete_setScreen _ _ _),
    fun k hk => read_clearCells hm hk, fun a ha => ?_⟩
  obtain ⟨-, hbyte⟩ := clearCells_spec s.mem hm
  rw [hbyte, if_neg ((inGrid_iff a).not.1 ha)]

/-- Settles O31: the new `TERM_ATTR` is the old high nibble above the colour. -/
theorem termSetFgWritesTheLowNibble : Obligations.TermSetFgWritesTheLowNibble := by
  intro s color
  rw [exec_termSetFg]
  refine ⟨fun t ht hlt => ⟨_, setAttribute_of_some ht hlt, ?_, ?_⟩, setAttribute_colorRange,
    setAttribute_termUninit⟩
  · rw [withForeground_eq _ hlt, BitVec.extractLsb'_append_eq_right]
  · rw [withForeground_eq _ hlt, BitVec.extractLsb'_append_eq_left]

/-- Settles O32: the new `TERM_ATTR` is the colour above the old low nibble. -/
theorem termSetBgWritesTheHighNibble : Obligations.TermSetBgWritesTheHighNibble := by
  intro s color
  rw [exec_termSetBg]
  refine ⟨fun t ht hlt => ⟨_, setAttribute_of_some ht hlt, ?_, ?_,
    attrBlink_withBackground _ hlt⟩, setAttribute_colorRange, setAttribute_termUninit⟩
  · rw [withBackground_eq, BitVec.extractLsb'_append_eq_left]
  · rw [withBackground_eq, BitVec.extractLsb'_append_eq_right]

/-- Settles O33: the one write is of the cell under the cursor. -/
theorem putcharWritesItsCell : Obligations.PutcharWritesItsCell := by
  refine ⟨fun s t c hm ht _ hcol hc hcell => ?_, fun s c => exec_termPutchar_uninit c⟩
  refine ⟨s.mem.write (cellAddr t.row t.col) 2 (makeCell c t.attr), ?_,
    Memory.read_write_same 2 _ _ _ (by decide) hm, fun a => Memory.byte_write_outside _ _ _ _ a⟩
  rw [exec_termPutchar c ht, putcharBody_no_scroll hc hcol hcell, complete_setScreen]

/-- Settles O34: the scroll moves the grid with the character already in its last cell. -/
theorem putcharAtTheLastCellScrolls : Obligations.PutcharAtTheLastCellScrolls := by
  intro s t c hm ht hrow hcol hc
  have hput := putcharBody_scroll (m := s.mem) hc hcol hrow
  have hin : t.inBounds := ⟨by rw [hrow]; decide, by rw [hcol]; decide⟩
  obtain ⟨-, -, -, hout⟩ := putcharBody_spec c t s.mem hm hin
  simp only [hput] at hout
  refine ⟨_, ?_,
    fun row col hr hc => read_scrollCells_write_last hm (makeCell c t.attr) hr hc, hout⟩
  rw [exec_termPutchar c ht, hput, complete_setScreen]

/-- Settles O35: a newline is a row advance from column 0. -/
theorem newlineAdvancesTheRow : Obligations.NewlineAdvancesTheRow := by
  intro s t hm ht
  rw [exec_termPutchar 0x0A ht, putcharBody_newline]
  refine ⟨fun hlt => ?_, fun hrow => ⟨scrollCells s.mem, ?_, scrollCells_moves hm⟩⟩
  · rw [advanceRow_of_lt (t := { t with col := 0 }) hlt, complete_setScreen]
  · rw [advanceRow_last (t := { t with col := 0 }) hrow, complete_setScreen, ← hrow]

/-- Settles O36: the command's cells are the scroll's. -/
theorem termScrollMovesRowsUp : Obligations.TermScrollMovesRowsUp := by
  intro s
  exact ⟨fun t hm ht hrow => ⟨_, (exec_termScroll ht hrow).trans (complete_setScreen _ _ _),
      scrollCells_moves hm⟩,
    fun t => exec_termScroll_underflow, exec_termScroll_uninit⟩

/-- Settles O37: the loop reads each byte as it was at the start, since a legal buffer has no byte in
the grid. -/
theorem termWriteIsPutcharsThenSetpos : Obligations.TermWriteIsPutcharsThenSetpos := by
  intro s t address length hm ht hin hlegal
  have hrange := bufferOutOfRange_of_legal hlegal
  have hputs := performAll_putchars (bufferBytes s.mem address length.toNat) ht
  rw [bufferBytes, List.map_map, ← bufferBytes] at hputs
  refine ⟨_, _, _, hputs, rfl, rfl, ?_⟩
  rw [exec_termWrite hrange ht, writeBody,
    writeLoop_eq_putAll _ _ _ _ hm hin (buffer_outside_grid hrange)]
  rfl

/-- Settles O38: the range check is R111's, and comes before the terminal's. -/
theorem termWriteFaults : Obligations.TermWriteFaults := by
  intro s address length
  exact ⟨fun hpos hout => exec_termWrite_bufferRange ((bufferOutOfRange_iff _ _).2 ⟨hpos, hout⟩),
    fun ht hlegal => exec_termWrite_uninit (bufferOutOfRange_of_legal hlegal) ht⟩

/-- Settles O39: the scan finds the `n` bytes, and both commands run one body on them. -/
theorem termWritestringIsTermWrite : Obligations.TermWritestringIsTermWrite := by
  intro s t address n ht hn hgrid hzero hbefore
  have hlength : (BitVec.ofNat 32 n).toNat = n :=
    (BitVec.toNat_ofNat n 32).trans (Nat.mod_eq_of_lt (by omega))
  have hrange : bufferOutOfRange address.toNat (BitVec.ofNat 32 n).toNat = false :=
    bufferOutOfRange_of_legal (.inr (by rw [hlength]; omega))
  refine ⟨_, exec_termWritestring (scanString_eq_some hn hzero hbefore) ?_ ht, ?_⟩
  · rw [meetsGrid_succ_iff]
    omega
  · rw [exec_termWrite hrange ht, hlength]
    rfl

/-- Settles O40: the three checks in order: the terminator, the grid, the terminal. -/
theorem termWritestringFaults : Obligations.TermWritestringFaults := by
  intro s address
  refine ⟨fun hnone => exec_termWritestring_noTerminator (scanString_eq_none hnone),
    fun n hn hzero hbefore => ?_⟩
  have hscan := scanString_eq_some hn hzero hbefore
  rw [← meetsGrid_succ_iff]
  exact ⟨exec_termWritestring_meetsGrid hscan, exec_termWritestring_uninit hscan⟩

/-- Settles O41: four events past the rejection test, the last one clamped. -/
theorem curEnableClampsOrRejects : Obligations.CurEnableClampsOrRejects := by
  intro s min max
  exact ⟨exec_curEnable_rejected s, fun hlt => ⟨clampScanline max, _, clampScanline_toNat max,
    (exec_curEnable s hlt).trans (complete_afterEvents _ _)⟩⟩

/-- Settles O42: the command is its two events. -/
theorem curDisableWritesTheSentinel : Obligations.CurDisableWritesTheSentinel := by
  intro s
  exact ⟨_, (exec_curDisable s).trans (complete_afterEvents _ _)⟩

/-- Settles O43: the two bytes written are those of the position. -/
theorem curSetposWritesThePosition : Obligations.CurSetposWritesThePosition := by
  intro s x y
  exact ⟨_, _, _, (word_eq_bytes _).trans (position_toNat x y),
    (exec_curSetpos x y s).trans (complete_afterEvents _ _)⟩

end Sys2Proof.Machine
end

