-- ==== Sys2Proof/Proofs/Exceptions.lean ====
section
/-! The interrupt step (60_exceptions.md, R123): the environment takes it only while `IF` = 1, and no
command and no rejected word faults with its code (O46). -/

namespace Sys2Proof.Machine

/-! ### The environment's interrupt -/

section
variable {s : State} {rest : List EnvAction}

theorem environment_interrupt_enabled (hacts : s.envActions = .interrupt :: rest)
    (hif : s.ifFlag = true) :
    s.environment = .acted ({ s with envActions := rest } : State).interruptStep := by
  rw [State.environment, hacts]
  exact if_pos hif

theorem environment_interrupt_masked (hacts : s.envActions = .interrupt :: rest)
    (hif : s.ifFlag = false) : s.environment = .idle { s with envActions := rest } := by
  rw [State.environment, hacts]
  exact if_neg (Bool.eq_false_iff.1 hif)

theorem environment_quiet (hacts : s.envActions = .quiet :: rest) :
    s.environment = .idle { s with envActions := rest } := by
  rw [State.environment, hacts]

end

/-- When the environment takes a step, that is the whole step. -/
theorem step_acted {s s' : State} (hf : s.fault = none) (hwf : s.params.wf = true)
    (he : s.environment = .acted s') : step s = .next s' := by
  rw [step, if_neg (by simp [hf]), if_pos hwf, he]

/-! ### The code of a fault -/

theorem rejectCode_ne_intrUnhandled (r : DecodeReject) : rejectCode r ≠ .intrUnhandled := by
  cases r <;> decide

/-- A fault that stands after a command and not before it is one of the command's codes (R118). -/
theorem Effect.code_ne_intrUnhandled {i : Instr} {s t : State} {f : FaultRecord}
    (h : Effect i s t) (hs : s.fault = none) (ht : t.fault = some f) : f.code ≠ .intrUnhandled := by
  rcases h with ⟨code, low, high⟩ | ⟨change, events, o, hall, rfl⟩
  · obtain rfl := Option.some.inj ht
    rintro rfl
    exact absurd high (by decide)
  · obtain ⟨-, hfault, -⟩ := change.keeps
    cases hs.symm.trans (hfault.symm.trans ht)

/-- With `IF` = 0 no step of an unfaulted block ends in the interrupt's fault (R123). -/
theorem step_code_ne_intrUnhandled {s t : State} {f : FaultRecord} (hs : s.fault = none)
    (hif : s.ifFlag = false) (h : step s = .next t) (ht : t.fault = some f) :
    f.code ≠ .intrUnhandled := by
  rcases step_cases h with ⟨-, rfl⟩ | ⟨-, -, hact | ⟨s', hidle, hrun⟩⟩
  · cases hs.symm.trans ht
  · rcases environment_acted hact with ⟨hon, -⟩ | ⟨o, rfl⟩
    · exact absurd (hif.symm.trans hon) Bool.false_ne_true
    · cases hs.symm.trans ht
  · obtain rfl := environment_idle hidle
    rcases hrun with ⟨-, rfl⟩ | ⟨code, w, hw, rfl⟩ | ⟨i, -, he⟩
    · cases hs.symm.trans ht
    · obtain ⟨-, r, -, rfl⟩ := fetch_reject.1 hw
      obtain rfl := Option.some.inj ht
      exact rejectCode_ne_intrUnhandled r
    · exact (effect_of_exec he).code_ne_intrUnhandled hs ht

/-! ### The obligation -/

/-- Settles O46: a masked interrupt and a quiet choice leave the environment idle in one state, so both
steps run the same command from there. -/
theorem interruptStepNeedsIf : Obligations.InterruptStepNeedsIf := by
  intro s hf hwf
  refine ⟨fun rest hacts => ⟨fun hif => ?_, fun hif => ?_⟩,
    fun hif t f h ht => step_code_ne_intrUnhandled hf hif h ht⟩
  · exact step_acted hf hwf (environment_interrupt_enabled hacts hif)
  · rw [step_idle hf hwf (environment_interrupt_masked hacts hif)]
    exact (step_idle (s := { s with envActions := .quiet :: rest }) hf hwf
      (environment_quiet rfl)).symm

end Sys2Proof.Machine
end

