-- ==== Sys2Proof/Proofs/Reset.lean ====
section
/-! The initialisation order (70_reset_and_hazards.md, R136): each two of `TERM_INIT`, `GDT_INIT`
and `PIC_INIT` end in the same state in both orders (O60). Each command is a function of the state,
and each moves past the other two. The one fact about memory is that the clear of the grid and the
stores of `GDT_INIT` commute: under R9 they meet at no byte (`gdtInitMem_clearCells`). -/

namespace Sys2Proof.Machine

/-! ### Two memories that agree at one address -/

/-- Two canonical memories hold the same byte at `x`. -/
structure AgreeAt (x : Addr) (m m' : Memory) : Prop where
  wf : m.wf = true
  wf' : m'.wf = true
  byte : m.byte x = m'.byte x

section
variable {x : Addr} {m m' : Memory}

theorem AgreeAt.setByte (h : AgreeAt x m m') (a : Addr) (v : Byte) :
    AgreeAt x (m.setByte a v) (m'.setByte a v) := by
  refine ⟨Memory.wf_setByte m a v h.wf, Memory.wf_setByte m' a v h.wf', ?_⟩
  by_cases hx : x = a
  · rw [hx, Memory.byte_setByte_same m a v h.wf, Memory.byte_setByte_same m' a v h.wf']
  · rw [Memory.byte_setByte_ne m v hx, Memory.byte_setByte_ne m' v hx, h.byte]

/-- The same store keeps two memories in agreement, wherever it goes. -/
theorem AgreeAt.write {n : Nat} {a : Addr} {v : BitVec (8 * n)} (h : AgreeAt x m m') :
    AgreeAt x (m.write a n v) (m'.write a n v) := by
  induction n generalizing m m' a with
  | zero => exact h
  | succ n ih => exact ih (h.setByte _ _)

theorem AgreeAt.defaultsMem (h : AgreeAt x m m') (table : Addr) :
    AgreeAt x (defaultsMem table m) (defaultsMem table m') :=
  h.write.write.write.write.write

theorem AgreeAt.gdtInitMem {s s' : State} (h : AgreeAt x s.mem s'.mem)
    (hparams : s.params = s'.params) : AgreeAt x (gdtInitMem s) (gdtInitMem s') := by
  have pointer : AgreeAt x (storePointer s).mem (storePointer s').mem := by
    simp only [storePointer, State.memWrite_mem, State.memWrite_params, hparams]
    exact h.write.write
  rw [Machine.gdtInitMem, Machine.gdtInitMem, hparams]
  exact pointer.defaultsMem _

end

/-! ### The stores of `GDT_INIT` and the clear of the grid -/

/-- `GDT_INIT` writes memory from the launch parameters and memory alone. -/
theorem gdtInitMem_congr {s s' : State} (hparams : s.params = s'.params) (hmem : s.mem = s'.mem) :
    gdtInitMem s = gdtInitMem s' := by
  simp only [gdtInitMem, storePointer, State.memWrite_mem, State.memWrite_params, hparams, hmem]

/-- Under R9 `GDT_INIT` writes no byte of the grid. -/
theorem gdtInitMem_inGrid {s : State} (hp : s.params.wf = true) {x : Addr} (hx : inGrid x) :
    (gdtInitMem s).byte x = s.mem.byte x :=
  gdtInitMem_outside s (grid_apart_pointer hp hx) fun _ hi hslot =>
    grid_apart_table hp hx (slot_in_table s.params (by omega) hslot)

/-- The state a command leaves that sets the terminal registers to `t` and memory to `m`. -/
def State.drawn (s : State) (t : Terminal) (m : Memory) : State :=
  { s with term := some t, mem := m, ci := s.ci + 1 }

@[simp] theorem State.drawn_mem (s : State) (t : Terminal) (m : Memory) :
    (s.drawn t m).mem = m := rfl

/-- Memory that was cleared before `GDT_INIT` and memory cleared after it are the same. -/
theorem gdtInitMem_clearCells {s : State} (hp : s.params.wf = true) (hm : s.mem.wf = true)
    (t : Terminal) : gdtInitMem (s.drawn t (clearCells s.mem)) = clearCells (gdtInitMem s) := by
  obtain ⟨wfClear, clear⟩ := clearCells_spec s.mem hm
  obtain ⟨wfAfter, clearAfter⟩ := clearCells_spec _ (wf_gdtInitMem hm)
  generalize clearCells s.mem = m at wfClear clear ⊢
  refine Memory.ext_byte _ _ (wf_gdtInitMem (s := s.drawn t m) wfClear) wfAfter fun x => ?_
  rw [clearAfter]
  by_cases hx : off x < 4000
  · rw [gdtInitMem_inGrid (s := s.drawn t m) hp ((inGrid_iff x).2 hx), State.drawn_mem,
      clear, if_pos hx, if_pos hx]
  · have agree : AgreeAt x (s.drawn t m).mem s.mem :=
      ⟨wfClear, hm, by rw [State.drawn_mem, clear, if_neg hx]⟩
    rw [if_neg hx, (agree.gdtInitMem rfl).byte]

/-! ### The commands as functions of the state -/

/-- The terminal registers `TERM_INIT` sets (R107). -/
def termAtInit : Terminal := { row := 0, col := 0, attr := 0x07 }

/-- The memory cleared has a name of its own, so that no comparison of states computes the clear. -/
theorem exec_termInit_eq_next {s : State} {m : Memory} (hmem : s.mem = m) :
    exec .termInit s = .next (s.drawn termAtInit (clearCells m)) := by
  rw [exec_termInit, complete_setScreen, hmem]
  rfl

/-- What an access does to the oracle. -/
def PortOracle.afterEvent (o : PortOracle) : PortEvent → PortOracle
  | .read _ _ => o.afterRead
  | .write port v => o.afterWrite port v

/-- Accesses move the oracle from itself alone, whatever the rest of the state. -/
theorem State.afterEvents_oracle (events : List PortEvent) : ∀ s : State,
    (s.afterEvents events).oracle = events.foldl PortOracle.afterEvent s.oracle := by
  induction events with
  | nil => exact fun _ => rfl
  | cons e events ih =>
    intro s
    have moved : (s.afterEvent e).oracle = s.oracle.afterEvent e := by cases e <;> rfl
    rw [List.foldl_cons, ← moved]
    exact ih (s.afterEvent e)

/-- The state `PIC_INIT` leaves (R93). -/
def picInitState (offset1 offset2 : Byte) (s : State) : State :=
  { s with
    snapM := none
    snapS := none
    trace := s.trace ++ picInitEvents offset1 offset2 s.masterMask s.slaveMask
    oracle := (picInitEvents offset1 offset2 s.masterMask s.slaveMask).foldl
      PortOracle.afterEvent s.oracle
    ci := s.ci + 1 }

theorem exec_picInit_eq_next (offset1 offset2 : Byte) (s : State) :
    exec (.picInit offset1 offset2) s = .next (picInitState offset1 offset2 s) := by
  rw [exec_picInit, complete_afterEvents, State.afterEvents_oracle]
  rfl

/-! ### One command after another -/

/-- What a command drew before `GDT_INIT` can be drawn after it, on the memory `GDT_INIT` leaves. -/
theorem exec_gdtInit_drawn {s : State} {m : Memory} (hp : s.params.wf = true) (hm : m.wf = true)
    (t : Terminal) : exec .gdtInit (s.drawn t m) =
      .next ((gdtInitState s).drawn t (gdtInitMem (s.drawn t m))) := by
  rw [exec_gdtInit (s := s.drawn t m) hp hm]
  rfl

/-- What a command drew before `PIC_INIT` can be drawn after it: `PIC_INIT` writes no memory. -/
theorem exec_picInit_drawn (offset1 offset2 : Byte) (s : State) (t : Terminal) (m : Memory) :
    exec (.picInit offset1 offset2) (s.drawn t m) =
      .next ((picInitState offset1 offset2 s).drawn t m) :=
  exec_picInit_eq_next offset1 offset2 (s.drawn t m)

/-- `GDT_INIT` uses no port and `PIC_INIT` no memory, so they commute. -/
theorem exec_gdtInit_picInitState (offset1 offset2 : Byte) {s : State}
    (hp : s.params.wf = true) (hm : s.mem.wf = true) :
    exec .gdtInit (picInitState offset1 offset2 s) =
      .next (picInitState offset1 offset2 (gdtInitState s)) := by
  have mem : gdtInitMem (picInitState offset1 offset2 s) = gdtInitMem s := gdtInitMem_congr rfl rfl
  rw [exec_gdtInit (s := picInitState offset1 offset2 s) hp hm, gdtInitState, mem]
  rfl

/-! ### The obligation -/

/-- Two commands that reach one state in both orders. -/
theorem performAll_both_orders {i j : Instr} {s si sj t : State} (hi : exec i s = .next si)
    (hij : exec j si = .next t) (hj : exec j s = .next sj) (hji : exec i sj = .next t) :
    ∃ t, performAll [i, j] s = some t ∧ performAll [j, i] s = some t :=
  ⟨t, performAll_pair hi hij, performAll_pair hj hji⟩

/-- Settles O60: the clear moves past the stores of `GDT_INIT`, and `PIC_INIT` moves past both. -/
theorem initialisationOrderDoesNotMatter : Obligations.InitialisationOrderDoesNotMatter := by
  intro s offset1 offset2 hp hm
  have term := exec_termInit_eq_next (s := s) rfl
  have gdt := exec_gdtInit hp hm
  have pic := exec_picInit_eq_next offset1 offset2 s
  refine ⟨?_, ?_, ?_⟩
  · have gdtLast := exec_gdtInit_drawn hp (clearCells_spec s.mem hm).1 termAtInit
    rw [gdtInitMem_clearCells hp hm] at gdtLast
    exact performAll_both_orders term gdtLast gdt (exec_termInit_eq_next rfl)
  · exact performAll_both_orders gdt (exec_picInit_eq_next offset1 offset2 _) pic
      (exec_gdtInit_picInitState offset1 offset2 hp hm)
  · exact performAll_both_orders term (exec_picInit_drawn offset1 offset2 s _ _) pic
      (exec_termInit_eq_next rfl)

end Sys2Proof.Machine
end
